-- ==== Sys2Proof/Word.lean ====
section
/-! DEFINITION. The value types of CORE: bytes, command and host words, slot indices, and the mathematical values
(field elements are natural numbers, below the modulus when canonical) that exist inside a step. -/

namespace Sys2Proof

/-- One byte of either RAM (20_memory.md R51). -/
abbrev Byte := BitVec 8

/-- One 32-bit word: a command word (30_encoding.md R80) or the data of a host access (20_memory.md R53). -/
abbrev Word := BitVec 32

/-- An 8-bit slot index as a command field holds it (00_scope.md R11, 30_encoding.md R81). -/
abbrev Slot := BitVec 8

/-- An element `re + im·i` of the quadratic extension, real part first (00_scope.md R17, R19). The parts are natural
numbers; a canonical element has both below the prime modulus. -/
structure Fp2 where
  re : Nat
  im : Nat
deriving DecidableEq, Repr

/-- A point in extended coordinates (X, Y, Z, T) (44_ecc_point_add.md R190). Nothing about the tuple is checked. -/
structure Point where
  X : Fp2
  Y : Fp2
  Z : Fp2
  T : Fp2
deriving DecidableEq, Repr

/-- The prime modulus p = 2^127 − 1 (00_scope.md R6). It is fixed, not a parameter. -/
def primeP : Nat := 2 ^ 127 - 1

end Sys2Proof
end

