-- ==== Sys2Proof/Machine/Bytes.lean ====
section
/-! DEFINITION. Byte strings and their little-endian values (00_scope.md R15), the byte order of everything in CORE
(20_memory.md R54). -/

namespace Sys2Proof.Machine

/-- `LE(B)`: the integer whose little-endian byte string is B (00_scope.md R15). -/
def leNat : List Byte → Nat
  | [] => 0
  | b :: bs => b.toNat + 256 * leNat bs

/-- `toLE_n(v)`: the n-byte little-endian string of v (00_scope.md R15; for v at or above 256^n, its low n bytes). -/
def toLE : Nat → Nat → List Byte
  | 0, _ => []
  | n + 1, v => BitVec.ofNat 8 v :: toLE n (v / 256)

/-- n zero bytes. -/
def zeroBytes (n : Nat) : List Byte := List.replicate n 0

/-- The four bytes of a word, lowest address first (20_memory.md R54). -/
def wordBytes (w : Word) : List Byte := toLE 4 w.toNat

/-- The word whose four bytes these are, lowest address first (20_memory.md R54). -/
def bytesWord (bs : List Byte) : Word := BitVec.ofNat 32 (leNat bs)

end Sys2Proof.Machine
end

