-- ==== Sys2Proof/Syntax.lean ====
section
/-! DEFINITION. The commands of CORE, one constructor for each of the 44 rows of the opcode map (30_encoding.md R84),
the operand types with their spans (R90), and the ways a word fails to be a legal command (R83). -/

namespace Sys2Proof

/-- The operand types of 30_encoding.md R90. -/
inductive OperandType where
  | fp | fp2 | sc | raw | wide | pt | bytes | pair | seed | bool
deriving DecidableEq, Repr

/-- How many consecutive slots an operand of each type covers (30_encoding.md R90). -/
def OperandType.span : OperandType → Nat
  | .fp => 1
  | .fp2 => 1
  | .sc => 1
  | .raw => 1
  | .wide => 2
  | .pt => 4
  | .bytes => 1
  | .pair => 2
  | .seed => 2
  | .bool => 1

/-- The role an opcode gives one of its three fields (30_encoding.md R81, R82). -/
inductive Role where
  | unused
  | operand (t : OperandType)
  | imm8
deriving DecidableEq, Repr

/-- Why a word is not a legal command: the three decode checks, in their order (30_encoding.md R83). -/
inductive DecodeError where
  | illegalOpcode
  | reservedField
  | slotRange
deriving DecidableEq, Repr

/-- The 44 commands (30_encoding.md R84). A slot argument is the index of the operand's first slot. -/
inductive Instr where
  | halt
  | nop
  | mov (rd rs1 : Slot)
  | fpMul (rd rs1 rs2 : Slot)
  | fpSqr (rd rs1 : Slot)
  | fp2Mul (rd rs1 rs2 : Slot)
  | fp2Sqr (rd rs1 : Slot)
  | fpRed (rd rs1 : Slot)
  | fpAdd (rd rs1 rs2 : Slot)
  | fpSub (rd rs1 rs2 : Slot)
  | fpNeg (rd rs1 : Slot)
  | fpHalf (rd rs1 : Slot)
  | fp2Add (rd rs1 rs2 : Slot)
  | fp2Sub (rd rs1 rs2 : Slot)
  | fp2Neg (rd rs1 : Slot)
  | fp2Half (rd rs1 : Slot)
  | fpInv (rd rs1 : Slot)
  | fpSqrt (rd rs1 : Slot)
  | fp2Inv (rd rs1 : Slot)
  | fp2Sqrt (rd rs1 : Slot)
  | scRed32 (rd rs1 : Slot)
  | scRed64 (rd rs1 : Slot)
  | scAdd (rd rs1 rs2 : Slot)
  | scSub (rd rs1 rs2 : Slot)
  | scMul (rd rs1 rs2 : Slot)
  | scInv (rd rs1 : Slot)
  | ptAdd (rd rs1 rs2 : Slot)
  | ptNeg (rd rs1 : Slot)
  | ptEq (rd rs1 rs2 : Slot)
  | ptOncurve (rd rs1 : Slot)
  | ptLdid (rd : Slot)
  | ptLdb (rd : Slot)
  | ptDbl (rd rs1 : Slot)
  | ptMul (rd rs1 rs2 : Slot)
  | fp2Sign (rd rs1 : Slot)
  | ptEnc (rd rs1 : Slot)
  | ptDec (rd rs1 : Slot)
  | ptChkenc (rd rs1 : Slot)
  | seedStrict (rd rs1 : Slot) (l : Byte)
  | seedTry (rd rs1 : Slot) (l : Byte)
  | keyPriv (rd rs1 : Slot)
  | keyPub (rd rs1 : Slot)
  | sign (rd rs1 rs2 : Slot)
  | verify (rd rs1 rs2 : Slot)
deriving DecidableEq, Repr

end Sys2Proof
end

