-- ==== Sys2Proof/WellFormed.lean ====
section
/-! DEFINITION. Which commands are well formed: every slot operand lies within slots 0 to 255 (30_encoding.md R83,
check 3; 20_memory.md R56). -/

namespace Sys2Proof

/-- An operand of type `t` whose first slot is `first` ends at or before slot 255 (30_encoding.md R81, R83). -/
def fits (t : OperandType) (first : Slot) : Bool :=
  decide (first.toNat + t.span - 1 ≤ 255)

/-- Every slot operand of the command fits, with the types of its row in 30_encoding.md R84. A one-slot operand always
fits. -/
def Instr.wellFormed : Instr → Bool
  | .halt | .nop => true
  | .mov rd rs1 => fits .raw rd && fits .raw rs1
  | .fpMul rd rs1 rs2 | .fpAdd rd rs1 rs2 | .fpSub rd rs1 rs2 => fits .fp rd && fits .fp rs1 && fits .fp rs2
  | .fpSqr rd rs1 | .fpNeg rd rs1 | .fpHalf rd rs1 | .fpInv rd rs1 | .fpSqrt rd rs1 => fits .fp rd && fits .fp rs1
  | .fp2Mul rd rs1 rs2 | .fp2Add rd rs1 rs2 | .fp2Sub rd rs1 rs2 => fits .fp2 rd && fits .fp2 rs1 && fits .fp2 rs2
  | .fp2Sqr rd rs1 | .fp2Neg rd rs1 | .fp2Half rd rs1 | .fp2Inv rd rs1 | .fp2Sqrt rd rs1 =>
    fits .fp2 rd && fits .fp2 rs1
  | .fpRed rd rs1 => fits .fp rd && fits .raw rs1
  | .scRed32 rd rs1 => fits .sc rd && fits .raw rs1
  | .scRed64 rd rs1 => fits .sc rd && fits .wide rs1
  | .scAdd rd rs1 rs2 | .scSub rd rs1 rs2 | .scMul rd rs1 rs2 => fits .sc rd && fits .sc rs1 && fits .sc rs2
  | .scInv rd rs1 => fits .sc rd && fits .sc rs1
  | .ptAdd rd rs1 rs2 => fits .pt rd && fits .pt rs1 && fits .pt rs2
  | .ptNeg rd rs1 | .ptDbl rd rs1 => fits .pt rd && fits .pt rs1
  | .ptEq rd rs1 rs2 => fits .bool rd && fits .pt rs1 && fits .pt rs2
  | .ptOncurve rd rs1 => fits .bool rd && fits .pt rs1
  | .ptLdid rd | .ptLdb rd => fits .pt rd
  | .ptMul rd rs1 rs2 => fits .pt rd && fits .pt rs1 && fits .raw rs2
  | .fp2Sign rd rs1 => fits .bool rd && fits .fp2 rs1
  | .ptEnc rd rs1 => fits .bytes rd && fits .pt rs1
  | .ptDec rd rs1 => fits .pt rd && fits .bytes rs1
  | .ptChkenc rd rs1 => fits .bool rd && fits .bytes rs1
  | .seedStrict rd rs1 _ | .seedTry rd rs1 _ => fits .bytes rd && fits .seed rs1
  | .keyPriv rd rs1 => fits .sc rd && fits .bytes rs1
  | .keyPub rd rs1 => fits .bytes rd && fits .bytes rs1
  | .sign rd rs1 rs2 => fits .pair rd && fits .pair rs1 && fits .bytes rs2
  | .verify rd rs1 rs2 => fits .bool rd && fits .pair rs1 && fits .pair rs2

end Sys2Proof
end

