-- ==== Sys2Proof/Decode.lean ====
section
/-! DEFINITION. The opcode map (30_encoding.md R84), the decoder with its three checks in order (R83), and after it the
encoder. -/

namespace Sys2Proof

/-- OP, bits 31:24 (30_encoding.md R80). -/
def opField (w : Word) : Byte := w.extractLsb' 24 8

/-- RD, bits 23:16 (30_encoding.md R80). -/
def rdField (w : Word) : Byte := w.extractLsb' 16 8

/-- RS1, bits 15:8 (30_encoding.md R80). -/
def rs1Field (w : Word) : Byte := w.extractLsb' 8 8

/-- RS2, bits 7:0 (30_encoding.md R80). -/
def rs2Field (w : Word) : Byte := w.extractLsb' 0 8

/-- One row of the opcode map: the mnemonic, the opcode, the role of each field, and the command it stands for. -/
structure OpRow where
  mnemonic : String
  op : Byte
  rd : Role
  rs1 : Role
  rs2 : Role
  build : Slot → Slot → Byte → Instr

/-- Rows of the opcode map (30_encoding.md R84): opcodes 0x00 to 0x02. -/
def controlRows : List OpRow :=
  [⟨"HALT", 0x00, .unused, .unused, .unused, fun _ _ _ => .halt⟩,
   ⟨"NOP", 0x01, .unused, .unused, .unused, fun _ _ _ => .nop⟩,
   ⟨"MOV", 0x02, .operand .raw, .operand .raw, .unused, fun a b _ => .mov a b⟩]

/-- Rows of the opcode map (30_encoding.md R84): opcodes 0x10 to 0x13. -/
def fieldMulRows : List OpRow :=
  [⟨"FP_MUL", 0x10, .operand .fp, .operand .fp, .operand .fp, fun a b c => .fpMul a b c⟩,
   ⟨"FP_SQR", 0x11, .operand .fp, .operand .fp, .unused, fun a b _ => .fpSqr a b⟩,
   ⟨"FP2_MUL", 0x12, .operand .fp2, .operand .fp2, .operand .fp2, fun a b c => .fp2Mul a b c⟩,
   ⟨"FP2_SQR", 0x13, .operand .fp2, .operand .fp2, .unused, fun a b _ => .fp2Sqr a b⟩]

/-- Rows of the opcode map (30_encoding.md R84): opcodes 0x20 to 0x28. -/
def reduceRows : List OpRow :=
  [⟨"FP_RED", 0x20, .operand .fp, .operand .raw, .unused, fun a b _ => .fpRed a b⟩,
   ⟨"FP_ADD", 0x21, .operand .fp, .operand .fp, .operand .fp, fun a b c => .fpAdd a b c⟩,
   ⟨"FP_SUB", 0x22, .operand .fp, .operand .fp, .operand .fp, fun a b c => .fpSub a b c⟩,
   ⟨"FP_NEG", 0x23, .operand .fp, .operand .fp, .unused, fun a b _ => .fpNeg a b⟩,
   ⟨"FP_HALF", 0x24, .operand .fp, .operand .fp, .unused, fun a b _ => .fpHalf a b⟩,
   ⟨"FP2_ADD", 0x25, .operand .fp2, .operand .fp2, .operand .fp2, fun a b c => .fp2Add a b c⟩,
   ⟨"FP2_SUB", 0x26, .operand .fp2, .operand .fp2, .operand .fp2, fun a b c => .fp2Sub a b c⟩,
   ⟨"FP2_NEG", 0x27, .operand .fp2, .operand .fp2, .unused, fun a b _ => .fp2Neg a b⟩,
   ⟨"FP2_HALF", 0x28, .operand .fp2, .operand .fp2, .unused, fun a b _ => .fp2Half a b⟩]

/-- Rows of the opcode map (30_encoding.md R84): opcodes 0x30 to 0x3D. -/
def modexpRows : List OpRow :=
  [⟨"FP_INV", 0x30, .operand .fp, .operand .fp, .unused, fun a b _ => .fpInv a b⟩,
   ⟨"FP_SQRT", 0x31, .operand .fp, .operand .fp, .unused, fun a b _ => .fpSqrt a b⟩,
   ⟨"FP2_INV", 0x32, .operand .fp2, .operand .fp2, .unused, fun a b _ => .fp2Inv a b⟩,
   ⟨"FP2_SQRT", 0x33, .operand .fp2, .operand .fp2, .unused, fun a b _ => .fp2Sqrt a b⟩,
   ⟨"SC_RED32", 0x38, .operand .sc, .operand .raw, .unused, fun a b _ => .scRed32 a b⟩,
   ⟨"SC_RED64", 0x39, .operand .sc, .operand .wide, .unused, fun a b _ => .scRed64 a b⟩,
   ⟨"SC_ADD", 0x3A, .operand .sc, .operand .sc, .operand .sc, fun a b c => .scAdd a b c⟩,
   ⟨"SC_SUB", 0x3B, .operand .sc, .operand .sc, .operand .sc, fun a b c => .scSub a b c⟩,
   ⟨"SC_MUL", 0x3C, .operand .sc, .operand .sc, .operand .sc, fun a b c => .scMul a b c⟩,
   ⟨"SC_INV", 0x3D, .operand .sc, .operand .sc, .unused, fun a b _ => .scInv a b⟩]

/-- Rows of the opcode map (30_encoding.md R84): opcodes 0x40 to 0x45. -/
def pointAddRows : List OpRow :=
  [⟨"PT_ADD", 0x40, .operand .pt, .operand .pt, .operand .pt, fun a b c => .ptAdd a b c⟩,
   ⟨"PT_NEG", 0x41, .operand .pt, .operand .pt, .unused, fun a b _ => .ptNeg a b⟩,
   ⟨"PT_EQ", 0x42, .operand .bool, .operand .pt, .operand .pt, fun a b c => .ptEq a b c⟩,
   ⟨"PT_ONCURVE", 0x43, .operand .bool, .operand .pt, .unused, fun a b _ => .ptOncurve a b⟩,
   ⟨"PT_LDID", 0x44, .operand .pt, .unused, .unused, fun a _ _ => .ptLdid a⟩,
   ⟨"PT_LDB", 0x45, .operand .pt, .unused, .unused, fun a _ _ => .ptLdb a⟩]

/-- Rows of the opcode map (30_encoding.md R84): opcodes 0x50 to 0x51. -/
def pointDoubleRows : List OpRow :=
  [⟨"PT_DBL", 0x50, .operand .pt, .operand .pt, .unused, fun a b _ => .ptDbl a b⟩,
   ⟨"PT_MUL", 0x51, .operand .pt, .operand .pt, .operand .raw, fun a b c => .ptMul a b c⟩]

/-- Rows of the opcode map (30_encoding.md R84): opcodes 0x60 to 0x71. -/
def codecRows : List OpRow :=
  [⟨"FP2_SIGN", 0x60, .operand .bool, .operand .fp2, .unused, fun a b _ => .fp2Sign a b⟩,
   ⟨"PT_ENC", 0x61, .operand .bytes, .operand .pt, .unused, fun a b _ => .ptEnc a b⟩,
   ⟨"PT_DEC", 0x70, .operand .pt, .operand .bytes, .unused, fun a b _ => .ptDec a b⟩,
   ⟨"PT_CHKENC", 0x71, .operand .bool, .operand .bytes, .unused, fun a b _ => .ptChkenc a b⟩]

/-- Rows of the opcode map (30_encoding.md R84): opcodes 0x80 to 0x90. -/
def schnorrRows : List OpRow :=
  [⟨"SEED_STRICT", 0x80, .operand .bytes, .operand .seed, .imm8, fun a b c => .seedStrict a b c⟩,
   ⟨"SEED_TRY", 0x81, .operand .bytes, .operand .seed, .imm8, fun a b c => .seedTry a b c⟩,
   ⟨"KEY_PRIV", 0x82, .operand .sc, .operand .bytes, .unused, fun a b _ => .keyPriv a b⟩,
   ⟨"KEY_PUB", 0x83, .operand .bytes, .operand .bytes, .unused, fun a b _ => .keyPub a b⟩,
   ⟨"SIGN", 0x84, .operand .pair, .operand .pair, .operand .bytes, fun a b c => .sign a b c⟩,
   ⟨"VERIFY", 0x90, .operand .bool, .operand .pair, .operand .pair, fun a b c => .verify a b c⟩]

/-- The opcode map, whole: 44 rows (30_encoding.md R84). -/
def opcodeMap : List OpRow :=
  controlRows ++ fieldMulRows ++ reduceRows ++ modexpRows ++ pointAddRows ++ pointDoubleRows ++ codecRows ++ schnorrRows

/-- A field the row marks unused is not zero (30_encoding.md R83, check 2). -/
def reservedBroken (role : Role) (field : Byte) : Bool :=
  match role with
  | .unused => field != 0
  | .operand _ => false
  | .imm8 => false

/-- A slot operand runs past slot 255 (30_encoding.md R83, check 3). -/
def rangeBroken (role : Role) (field : Byte) : Bool :=
  match role with
  | .unused => false
  | .operand t => !fits t field
  | .imm8 => false

/-- Decode of a fetched word: the three checks of 30_encoding.md R83, in order, and then the command. Every word has
one outcome (R86). -/
def decode (w : Word) : Except DecodeError Instr :=
  match opcodeMap.find? (fun r => r.op == opField w) with
  | none => .error .illegalOpcode
  | some r =>
    if reservedBroken r.rd (rdField w) || reservedBroken r.rs1 (rs1Field w) || reservedBroken r.rs2 (rs2Field w) then
      .error .reservedField
    else if rangeBroken r.rd (rdField w) || rangeBroken r.rs1 (rs1Field w) || rangeBroken r.rs2 (rs2Field w) then
      .error .slotRange
    else
      .ok (r.build (rdField w) (rs1Field w) (rs2Field w))

/-- The word whose fields these are (30_encoding.md R80). -/
def packWord (op rd rs1 rs2 : Byte) : Word := op ++ rd ++ rs1 ++ rs2

/-- The word of a command: its opcode and its fields, unused fields zero (30_encoding.md R80, R84). -/
def encode : Instr → Word
  | .halt => packWord 0x00 0 0 0
  | .nop => packWord 0x01 0 0 0
  | .mov rd rs1 => packWord 0x02 rd rs1 0
  | .fpMul rd rs1 rs2 => packWord 0x10 rd rs1 rs2
  | .fpSqr rd rs1 => packWord 0x11 rd rs1 0
  | .fp2Mul rd rs1 rs2 => packWord 0x12 rd rs1 rs2
  | .fp2Sqr rd rs1 => packWord 0x13 rd rs1 0
  | .fpRed rd rs1 => packWord 0x20 rd rs1 0
  | .fpAdd rd rs1 rs2 => packWord 0x21 rd rs1 rs2
  | .fpSub rd rs1 rs2 => packWord 0x22 rd rs1 rs2
  | .fpNeg rd rs1 => packWord 0x23 rd rs1 0
  | .fpHalf rd rs1 => packWord 0x24 rd rs1 0
  | .fp2Add rd rs1 rs2 => packWord 0x25 rd rs1 rs2
  | .fp2Sub rd rs1 rs2 => packWord 0x26 rd rs1 rs2
  | .fp2Neg rd rs1 => packWord 0x27 rd rs1 0
  | .fp2Half rd rs1 => packWord 0x28 rd rs1 0
  | .fpInv rd rs1 => packWord 0x30 rd rs1 0
  | .fpSqrt rd rs1 => packWord 0x31 rd rs1 0
  | .fp2Inv rd rs1 => packWord 0x32 rd rs1 0
  | .fp2Sqrt rd rs1 => packWord 0x33 rd rs1 0
  | .scRed32 rd rs1 => packWord 0x38 rd rs1 0
  | .scRed64 rd rs1 => packWord 0x39 rd rs1 0
  | .scAdd rd rs1 rs2 => packWord 0x3A rd rs1 rs2
  | .scSub rd rs1 rs2 => packWord 0x3B rd rs1 rs2
  | .scMul rd rs1 rs2 => packWord 0x3C rd rs1 rs2
  | .scInv rd rs1 => packWord 0x3D rd rs1 0
  | .ptAdd rd rs1 rs2 => packWord 0x40 rd rs1 rs2
  | .ptNeg rd rs1 => packWord 0x41 rd rs1 0
  | .ptEq rd rs1 rs2 => packWord 0x42 rd rs1 rs2
  | .ptOncurve rd rs1 => packWord 0x43 rd rs1 0
  | .ptLdid rd => packWord 0x44 rd 0 0
  | .ptLdb rd => packWord 0x45 rd 0 0
  | .ptDbl rd rs1 => packWord 0x50 rd rs1 0
  | .ptMul rd rs1 rs2 => packWord 0x51 rd rs1 rs2
  | .fp2Sign rd rs1 => packWord 0x60 rd rs1 0
  | .ptEnc rd rs1 => packWord 0x61 rd rs1 0
  | .ptDec rd rs1 => packWord 0x70 rd rs1 0
  | .ptChkenc rd rs1 => packWord 0x71 rd rs1 0
  | .seedStrict rd rs1 l => packWord 0x80 rd rs1 l
  | .seedTry rd rs1 l => packWord 0x81 rd rs1 l
  | .keyPriv rd rs1 => packWord 0x82 rd rs1 0
  | .keyPub rd rs1 => packWord 0x83 rd rs1 0
  | .sign rd rs1 rs2 => packWord 0x84 rd rs1 rs2
  | .verify rd rs1 rs2 => packWord 0x90 rd rs1 rs2

/-- The decoder over the four bytes of a word as the command RAM holds them, lowest address first (20_memory.md R54,
R57). -/
def decodeBytes (bs : List Byte) : Except DecodeError Instr := decode (Machine.bytesWord bs)

/-- The command that the low `nbits` bits of w stand for, all higher bits zero: the word is laid out as the command RAM
holds it and given to the decoder. -/
def decodeTableWord (nbits w : Nat) : Option Instr :=
  match decodeBytes (Machine.toLE 4 (w % 2 ^ nbits)) with
  | .ok i => some i
  | .error _ => none

end Sys2Proof
end

