-- ==== Sys2Proof/Machine/State.lean ====
section
/-! DEFINITION. The state of CORE as plain data (10_state.md), the events that reach it from outside, the causes and
codes it records, the reasons a step of the model stops, and the state after reset. -/

namespace Sys2Proof.Machine

/-- STATUS.STATE (10_state.md R22). -/
inductive EngineState where
  | idle
  | busy
  | halted
  | faulted
deriving DecidableEq, Repr

/-- The result codes that STATUS.RC ever holds (60_exceptions.md R283); codes 4 to 15 are reserved and never written. -/
inductive Rc where
  | ok
  | absent
  | divzero
  | invalid
deriving DecidableEq, Repr

/-- CORE's own fault causes (60_exceptions.md R291). Taking one is a next state of the machine, not a stop of the
model. -/
inductive Cause where
  | illegalOpcode
  | reservedField
  | slotRange
  | invalidSeed
  | cmdOverrun
deriving DecidableEq, Repr

/-- What reaches CORE from outside, one event for each atomic transition (20_memory.md R60): a host access to the host
window at a byte offset, of a width in bytes (20_memory.md R52, R53); an assertion of the reset input
(70_reset_and_hazards.md R320); or `wait`, one transition during which the host does nothing, so that the engine may
step. -/
inductive HostEvent where
  | write (offset width : Nat) (data : Word)
  | read (offset width : Nat)
  | reset
  | wait
deriving DecidableEq, Repr

/-- A RAM: (address, byte) pairs in strictly rising order of address. An unlisted address holds no value
(10_state.md R34). -/
abbrev Memory := List Host.Cell

/-- The state of CORE: exactly what 10_state.md R21 lists, and then the model's own three fields. -/
structure State where
  /-- STATUS.STATE (10_state.md R22). -/
  state : EngineState
  /-- STATUS.DONE_PEND (10_state.md R25). -/
  donePend : Bool
  /-- STATUS.FAULT_PEND (10_state.md R25). -/
  faultPend : Bool
  /-- STATUS.RC (10_state.md R25, 60_exceptions.md R283). -/
  rc : Rc
  /-- STATUS.S_ABSENT (10_state.md R25). -/
  sAbsent : Bool
  /-- STATUS.S_DIVZERO (10_state.md R25). -/
  sDivzero : Bool
  /-- STATUS.S_INVALID (10_state.md R25). -/
  sInvalid : Bool
  /-- STATUS.WERR (10_state.md R25). -/
  werr : Bool
  /-- CTRL.IE_DONE (10_state.md R23). -/
  ieDone : Bool
  /-- CTRL.IE_FAULT (10_state.md R23). -/
  ieFault : Bool
  /-- CP[7:0], the command pointer (10_state.md R24). -/
  cp : BitVec 8
  /-- FAULT_INFO (10_state.md R26). -/
  faultInfo : Word
  /-- FAULT_CMD (10_state.md R26). -/
  faultCmd : Word
  /-- CMD_COUNT (10_state.md R29). -/
  cmdCount : Word
  /-- The operand RAM: byte k of slot j at address 32·j + k (10_state.md R31, 20_memory.md R55). -/
  opRam : Memory
  /-- The command RAM: word i in the four bytes from address 4·i (10_state.md R33, 20_memory.md R54, R57). -/
  cmdRam : Memory
  /-- The model's own: the events from outside still to come, the next one first (log entry 6). -/
  inputs : List HostEvent
  /-- The model's own: the data of the host's latest read (log entry 6). -/
  reply : Option Word
  /-- The model's own: how many free host-read words have been drawn (log entry 5). -/
  freeCount : Nat
deriving DecidableEq, Repr

/-- Why a step of the model stops with a fault. None of these is one of CORE's own causes. -/
inductive Fault where
  /-- Raised by an engine read of an operand-RAM byte that nobody has written since reset
  (93_implementation_defined.md I1). Safe: the hardware goes on with some value. -/
  | unwrittenOperand
  /-- Raised by the fetch of a command-RAM word that nobody has written since reset (93_implementation_defined.md I1).
  Safe: the hardware goes on with some word. -/
  | unwrittenCommand
  /-- Raised by an operand that runs past slot 255, which only an ill-formed command could name: the decoder turns such a
  word into CORE's fault SLOT_RANGE (20_memory.md R56). Safe: no step reaches it (log entry 17). -/
  | noSuchSlot
deriving DecidableEq, Repr

/-- Why the model gives a step no meaning. -/
inductive Refusal where
  /-- Raised by exec for a command that has no meaning yet. Safe. -/
  | notModelled (mnemonic : String)
  /-- Raised by step when the engine is not BUSY and no event from outside is pending: nothing can happen
  (10_state.md R22, 40_control.md R113). Safe: CORE itself does nothing then. -/
  | noStep
  /-- Raised by a host access that is not 32 bits wide or not 4-byte aligned (20_memory.md R53,
  93_implementation_defined.md I2). Safe: CORE's state does not change. -/
  | hostAccessForm
  /-- Raised by a host access at an offset at or above 0x4000, which is outside CORE (20_memory.md R52). Safe: such an
  access never reaches CORE. -/
  | outsideWindow
deriving DecidableEq, Repr

/-- What one step of the model answers. -/
abbrev Result := Host.Outcome State Fault Refusal

/-- What a command, once its sources are read, comes to (40_control.md R113, 60_exceptions.md R280): it completes with
RC = OK and writes these bytes from this slot on; it completes with a code and writes nothing; or it raises a fault. -/
inductive Effect where
  | wrote (first : Nat) (bytes : List Byte)
  | silent (rc : Rc)
  | raised (c : Cause)
deriving DecidableEq, Repr

/-- The machine right after reset (10_state.md R37): every register 0, STATE = IDLE, and nothing written in either RAM
(R34). The last three fields are the model's own (log entries 5 and 6). -/
def State.reset : State where
  state := .idle
  donePend := false
  faultPend := false
  rc := .ok
  sAbsent := false
  sDivzero := false
  sInvalid := false
  werr := false
  ieDone := false
  ieFault := false
  cp := 0
  faultInfo := 0
  faultCmd := 0
  cmdCount := 0
  opRam := []
  cmdRam := []
  inputs := []
  reply := none
  freeCount := 0

end Sys2Proof.Machine
end

