-- ==== Sys2Proof/Machine/Flags.lean ====
section
/-! DEFINITION. The flags: result codes, sticky bits, cause codes, the STATUS and CTRL words, and the line IRQ
(10_state.md R22 to R25, R35; 60_exceptions.md R283, R291, R300). -/

namespace Sys2Proof.Machine

/-- The number of each engine state (10_state.md R22). -/
def EngineState.code : EngineState → BitVec 2
  | .idle => 0
  | .busy => 1
  | .halted => 2
  | .faulted => 3

/-- The number of each result code (60_exceptions.md R283). -/
def Rc.code : Rc → BitVec 4
  | .ok => 0
  | .absent => 1
  | .divzero => 2
  | .invalid => 3

/-- The number of each fault cause (60_exceptions.md R291). -/
def Cause.code : Cause → BitVec 8
  | .illegalOpcode => 0x01
  | .reservedField => 0x02
  | .slotRange => 0x03
  | .invalidSeed => 0x04
  | .cmdOverrun => 0x05

/-- RC and the sticky bits after a command completes with a code: RC holds it, and a code other than OK sets its
sticky bit, which stays set (10_state.md R25, R35; 40_control.md R113). -/
def setRc (rc : Rc) (s : State) : State :=
  { s with
    rc := rc
    sAbsent := s.sAbsent || rc == .absent
    sDivzero := s.sDivzero || rc == .divzero
    sInvalid := s.sInvalid || rc == .invalid }

/-- A flag as one bit. -/
def flagBit (b : Bool) : BitVec 1 := BitVec.ofBool b

/-- The word a read of STATUS returns (10_state.md R25). -/
def statusWord (s : State) : Word :=
  (0 : BitVec 20) ++ flagBit s.werr ++ flagBit s.sInvalid ++ flagBit s.sDivzero ++ flagBit s.sAbsent ++ s.rc.code ++
    flagBit s.faultPend ++ flagBit s.donePend ++ s.state.code

/-- The word a read of CTRL returns: IE_FAULT·8 + IE_DONE·4 (10_state.md R23). -/
def ctrlWord (s : State) : Word := (0 : BitVec 28) ++ flagBit s.ieFault ++ flagBit s.ieDone ++ (0 : BitVec 2)

/-- The level of the line IRQ (60_exceptions.md R300). -/
def irq (s : State) : Bool := (s.donePend && s.ieDone) || (s.faultPend && s.ieFault)

end Sys2Proof.Machine
end

