-- ==== Sys2Proof/Machine/Memory.lean ====
section
/-! DEFINITION. Reading and writing bytes of a RAM, and the canonical form every RAM keeps. What an unlisted address
reads as is one definition: `Memory.read` answers none, no value (10_state.md R34, log entry 4). -/

namespace Sys2Proof.Machine

/-- The byte at an address, or none where nobody has written one. -/
def Memory.read : Memory → Nat → Option Byte
  | [], _ => none
  | (a, b) :: m, x => if x = a then some b else Memory.read m x

/-- Write one byte, keeping the addresses in strictly rising order. -/
def Memory.write : Memory → Nat → Byte → Memory
  | [], x, v => [(x, v)]
  | (a, b) :: m, x, v =>
    if x < a then (x, v) :: (a, b) :: m
    else if x = a then (x, v) :: m
    else (a, b) :: Memory.write m x v

/-- The n bytes from address a on, or none where one of them was never written (00_scope.md R16, MemRead). -/
def Memory.readBytes (m : Memory) : Nat → Nat → Option (List Byte)
  | _, 0 => some []
  | a, n + 1 =>
    match m.read a, Memory.readBytes m (a + 1) n with
    | some b, some bs => some (b :: bs)
    | _, _ => none

/-- Write bytes from address a on (00_scope.md R16, MemWrite). -/
def Memory.writeBytes (m : Memory) : Nat → List Byte → Memory
  | _, [] => m
  | a, b :: bs => Memory.writeBytes (m.write a b) (a + 1) bs

/-- Every address of the list is above x, and they rise strictly. -/
def Memory.risesFrom : Nat → Memory → Bool
  | _, [] => true
  | x, (a, _) :: m => decide (x < a) && Memory.risesFrom a m

/-- The canonical form: addresses strictly rising. An unlisted address holds no value, so no entry can equal it. -/
def Memory.wf : Memory → Bool
  | [] => true
  | (a, _) :: m => Memory.risesFrom a m

/-- Every listed address is below the size of the RAM. -/
def Memory.below (m : Memory) (size : Nat) : Bool := m.all fun c => decide (c.1 < size)

/-- The bytes of the operand RAM: 256 slots of 32 bytes (10_state.md R31, 20_memory.md R51). -/
def opRamSize : Nat := 8192

/-- The bytes of the command RAM: 256 words of 32 bits (10_state.md R33, 20_memory.md R51). -/
def cmdRamSize : Nat := 1024

end Sys2Proof.Machine
end

