-- ==== Sys2Proof/Config.lean ====
section
/-! DEFINITION. What a build of CORE fixes: the curve parameters, at the defaults the spec gives, and the open
parameters and free values, which are opaque constants that nothing can evaluate. -/

namespace Sys2Proof

/-- The curve parameters CURVE_D, CURVE_N, BASE_X and BASE_Y (00_scope.md R7 to R9). The functions of the point and
scalar families take one as an argument, so that what is proved of them can hold for every choice. -/
structure Curve where
  /-- CURVE_D, the curve parameter d (R7). -/
  d : Fp2
  /-- CURVE_N, the group order N (R8). -/
  n : Nat
  /-- BASE_X, the affine x of the base point (R9). -/
  baseX : Fp2
  /-- BASE_Y, the affine y of the base point (R9). -/
  baseY : Fp2
deriving DecidableEq, Repr

namespace Config

/-- The curve the machine runs with: the spec's defaults (00_scope.md R7, R8, R9).
DESIGN CHOICE (log entry 1): the spec takes these as parameters and gives these defaults; another network may have
other values, so a claim that uses the numbers is unsafe for it. -/
def curve : Curve where
  d := ⟨0x00000000000000E40000000000000142, 0x5E472F846657E0FCB3821488F1FC0C8D⟩
  n := 0x0029CBC14E5E0A72F05397829CBC14E5DFBD004DFE0F79992FB2540EC7768CE7
  baseX := ⟨0x1A3472237C2FB305286592AD7B3833AA, 0x1E1F553F2878AA9C96869FB360AC77F6⟩
  baseY := ⟨0x0E3FEE9BA120785AB924A2462BCBB287, 0x6E1C4AF8630E024249A7C344844C8B5C⟩

/-- HASH(m, n), the hash port (00_scope.md R12): total, deterministic, exactly n bytes, and nothing else is known of it.
Opaque, so safe: what is proved holds for every such function (log entry 2). -/
opaque hash : List Byte → (n : Nat) → Vector Byte n

/-- BASE_ADDR, where the platform places the host window (00_scope.md R13). Opaque, so safe (log entry 3). -/
opaque baseAddr : Nat

/-- The free value: the k-th unspecified word a host read returns (20_memory.md R59, 93_implementation_defined.md I3, I4).
Opaque, so safe (log entry 5). -/
opaque freeHostWord : Nat → Word

/-- The free value: what KEY_PUB and SIGN would write for a point that has no affine form. 48_schnorr_sign.md R254 says
this never happens under the laws of 00_scope.md R10 and states no value for it. DESIGN CHOICE, safe (log entry 12). -/
opaque encodingWithoutAffine : Point → Vector Byte 32

end Config

end Sys2Proof
end

