-- ==== Sys2Proof/Machine/FieldArith.lean ====
section
/-! DEFINITION. The arithmetic of Fp, Fp2 and the scalar field, as 41_montgomery_mult.md, 42_barrett_reduce.md and
43_modexp_engine.md give it. An absent result is none (00_scope.md R18). The pseudocode's loops are recursions on a
count that is at least the number of rounds they take (log entry 21). -/

namespace Sys2Proof.Machine

/-- The fold of 42_barrett_reduce.md R140, at most `k` times: while v ≥ 2p, v ← (v >> 127) + (v & p). -/
def foldLoop : Nat → Nat → Nat
  | 0, v => v
  | k + 1, v => if v < 2 * primeP then v else foldLoop k ((v >>> 127) + (v &&& primeP))

/-- `fp_reduce(v)` (42_barrett_reduce.md R140). Each fold lowers v, so v rounds are enough. -/
def fpReduce (v : Nat) : Nat :=
  let r := foldLoop v v
  if primeP ≤ r then r - primeP else r

/-- `fp_add` (42_barrett_reduce.md R142). -/
def fpAdd (a b : Nat) : Nat := fpReduce (a + b)

/-- `fp_sub`, for canonical operands (42_barrett_reduce.md R143). -/
def fpSub (a b : Nat) : Nat := fpReduce (a + primeP - b)

/-- `fp_neg`, for a canonical operand (42_barrett_reduce.md R144). -/
def fpNeg (a : Nat) : Nat := fpReduce (primeP - a)

/-- `fp_half`, for a canonical operand (42_barrett_reduce.md R145). -/
def fpHalf (a : Nat) : Nat := if a % 2 = 0 then a / 2 else (a + primeP) / 2

/-- `fp_mul` (41_montgomery_mult.md R120): the exact product, reduced. -/
def fpMul (a b : Nat) : Nat := fpReduce (a * b)

/-- `fp_sqr` (41_montgomery_mult.md R120). -/
def fpSqr (a : Nat) : Nat := fpReduce (a * a)

/-- The loop of `fp_pow`, at most `k` rounds (43_modexp_engine.md R160). -/
def fpPowLoop : Nat → Nat → Nat → Nat → Nat
  | 0, r, _, _ => r
  | k + 1, r, b, e =>
    if e = 0 then r
    else fpPowLoop k (if e &&& 1 = 1 then fpMul r b else r) (fpSqr b) (e >>> 1)

/-- `fp_pow(a, e)` by square-and-multiply (43_modexp_engine.md R160). e halves each round, so e rounds are enough. -/
def fpPow (a e : Nat) : Nat := fpPowLoop e 1 a e

/-- `fp_inv`: absent for zero, else a^(p − 2) (43_modexp_engine.md R161; 90_conflicts.md C2). -/
def fpInv (a : Nat) : Option Nat := if a = 0 then none else some (fpPow a (primeP - 2))

/-- `fp_sqrt`: the candidate a^((p + 1)/4), if its square is a (43_modexp_engine.md R162). -/
def fpSqrt (a : Nat) : Option Nat :=
  let c := fpPow a ((primeP + 1) / 4)
  if fpSqr c = a then some c else none

/-- The element 0 of Fp2. -/
def fp2Zero : Fp2 := ⟨0, 0⟩

/-- The element 1 of Fp2. -/
def fp2One : Fp2 := ⟨1, 0⟩

/-- Equality of Fp2 elements: both parts agree (00_scope.md R17). -/
def fp2Eq (x y : Fp2) : Bool := x.re == y.re && x.im == y.im

/-- `fp2_add` (42_barrett_reduce.md R146). -/
def fp2Add (x y : Fp2) : Fp2 := ⟨fpAdd x.re y.re, fpAdd x.im y.im⟩

/-- `fp2_sub` (42_barrett_reduce.md R146). -/
def fp2Sub (x y : Fp2) : Fp2 := ⟨fpSub x.re y.re, fpSub x.im y.im⟩

/-- `fp2_neg` (42_barrett_reduce.md R146). -/
def fp2Neg (x : Fp2) : Fp2 := ⟨fpNeg x.re, fpNeg x.im⟩

/-- `fp2_half` (42_barrett_reduce.md R146). -/
def fp2Half (x : Fp2) : Fp2 := ⟨fpHalf x.re, fpHalf x.im⟩

/-- `fp2_mul`, with three Fp products (41_montgomery_mult.md R123). -/
def fp2Mul (x y : Fp2) : Fp2 :=
  let t0 := fpMul x.re y.re
  let t1 := fpMul x.im y.im
  let t2 := fpMul (fpAdd x.re x.im) (fpAdd y.re y.im)
  ⟨fpSub t0 t1, fpSub (fpSub t2 t0) t1⟩

/-- `fp2_sqr`, specialised (41_montgomery_mult.md R123). -/
def fp2Sqr (x : Fp2) : Fp2 := ⟨fpSub (fpSqr x.re) (fpSqr x.im), fpMul 2 (fpMul x.re x.im)⟩

/-- `fp2_inv`, through the norm (43_modexp_engine.md R163). -/
def fp2Inv (x : Fp2) : Option Fp2 := do
  let ni ← fpInv (fpAdd (fpSqr x.re) (fpSqr x.im))
  return ⟨fpMul x.re ni, fpMul (fpNeg x.im) ni⟩

/-- The x of `fp2_sqrt`: a root of (a + n)/2, else a root of (a − n)/2 (43_modexp_engine.md R165). -/
def fp2SqrtReal (a n : Nat) : Option Nat :=
  match fpSqrt (fpHalf (fpAdd a n)) with
  | some x => some x
  | none => fpSqrt (fpHalf (fpSub a n))

/-- The y of `fp2_sqrt` for that x: b/(2x), or √(−a) when x = 0 and b = 0, else absent (43_modexp_engine.md R165,
92_eei_decisions.md D39). For a nonzero canonical x the inverse is never absent (log entry 13). -/
def fp2SqrtImag (a b x : Nat) : Option Nat :=
  if x ≠ 0 then (fpInv (fpMul 2 x)).map (fpMul b)
  else if b = 0 then fpSqrt (fpNeg a)
  else none

/-- The first of the four sign trials, in the order of 43_modexp_engine.md R165, whose square is the target. -/
def fp2SqrtTrial (target : Fp2) (x y : Nat) : Option Fp2 :=
  [(⟨x, y⟩ : Fp2), ⟨x, fpNeg y⟩, ⟨fpNeg x, fpNeg y⟩, ⟨fpNeg x, y⟩].find? (fun c => fp2Eq (fp2Sqr c) target)

/-- `fp2_sqrt` (43_modexp_engine.md R165). -/
def fp2Sqrt (t : Fp2) : Option Fp2 := do
  let n ← fpSqrt (fpAdd (fpSqr t.re) (fpSqr t.im))
  let x ← fp2SqrtReal t.re n
  let y ← fp2SqrtImag t.re t.im x
  fp2SqrtTrial t x y

/-- `fp2_sign`: bit 126 of the real part, or of the imaginary part when the real part is zero
(46_ecc_point_compress.md R230). -/
def fp2Sign (x : Fp2) : Bool := if x.re ≠ 0 then x.re.testBit 126 else x.im.testBit 126

/-- `sc_reduce(v)`: v mod N (43_modexp_engine.md R168, R169). -/
def scReduce (c : Curve) (v : Nat) : Nat := v % c.n

/-- `sc_add` (43_modexp_engine.md R168). -/
def scAdd (c : Curve) (a b : Nat) : Nat := (a + b) % c.n

/-- `sc_sub`, the non-negative remainder, for scalars below N (43_modexp_engine.md R168). -/
def scSub (c : Curve) (a b : Nat) : Nat := (a + c.n - b) % c.n

/-- `sc_mul` (43_modexp_engine.md R168). -/
def scMul (c : Curve) (a b : Nat) : Nat := (a * b) % c.n

/-- Square-and-multiply modulo N, at most `k` rounds. -/
def scPowLoop (c : Curve) : Nat → Nat → Nat → Nat → Nat
  | 0, r, _, _ => r
  | k + 1, r, b, e =>
    if e = 0 then r
    else scPowLoop c k (if e &&& 1 = 1 then scMul c r b else r) (scMul c b b) (e >>> 1)

/-- a^e mod N (43_modexp_engine.md R168, for `sc_inv`). -/
def scPow (c : Curve) (a e : Nat) : Nat := scPowLoop c e (1 % c.n) a e

/-- `sc_inv`: absent for zero, else a^(N − 2) mod N (43_modexp_engine.md R168; 90_conflicts.md C5). -/
def scInv (c : Curve) (a : Nat) : Option Nat := if a = 0 then none else some (scPow c a (c.n - 2))

end Sys2Proof.Machine
end

