-- ==== Sys2Proof/Machine/PointArith.lean ====
section
/-! DEFINITION. The group law of the twisted Edwards curve and the 32-byte point codec, as 44_ecc_point_add.md to
47_ecc_point_decompress.md give them. Every function is total on any tuple. -/

namespace Sys2Proof.Machine

/-- The identity tuple (0, 1, 1, 0) (44_ecc_point_add.md R190). -/
def ptIdentity : Point := ⟨fp2Zero, fp2One, fp2One, fp2Zero⟩

/-- BASEPT: the base point with Z = 1 (44_ecc_point_add.md R198, 48_schnorr_sign.md R254). -/
def ptBase (c : Curve) : Point := ⟨c.baseX, c.baseY, fp2One, fp2Mul c.baseX c.baseY⟩

/-- `pt_add`: add-2008-hwcd with a = −1 (44_ecc_point_add.md R191). -/
def ptAdd (c : Curve) (P Q : Point) : Point :=
  let A := fp2Mul P.X Q.X
  let B := fp2Mul P.Y Q.Y
  let C := fp2Mul (fp2Mul P.T c.d) Q.T
  let D := fp2Mul P.Z Q.Z
  let E := fp2Sub (fp2Sub (fp2Mul (fp2Add P.X P.Y) (fp2Add Q.X Q.Y)) A) B
  let F := fp2Sub D C
  let G := fp2Add D C
  let H := fp2Add B A
  ⟨fp2Mul E F, fp2Mul G H, fp2Mul F G, fp2Mul E H⟩

/-- `pt_neg` (44_ecc_point_add.md R192). -/
def ptNeg (P : Point) : Point := ⟨fp2Neg P.X, P.Y, P.Z, fp2Neg P.T⟩

/-- `pt_eq`: the two cross-products; T is not compared (44_ecc_point_add.md R193; the degenerate truths of
93_implementation_defined.md I5 are kept). -/
def ptEq (P Q : Point) : Bool :=
  fp2Eq (fp2Mul P.X Q.Z) (fp2Mul Q.X P.Z) && fp2Eq (fp2Mul P.Y Q.Z) (fp2Mul Q.Y P.Z)

/-- `pt_affine`: absent when Z = 0 (44_ecc_point_add.md R195). -/
def ptAffine (P : Point) : Option (Fp2 × Fp2) := do
  let zi ← fp2Inv P.Z
  return (fp2Mul P.X zi, fp2Mul P.Y zi)

/-- The curve equation −x² + y² = 1 + d·x²·y² at an affine point (44_ecc_point_add.md R195). -/
def onCurveAffine (c : Curve) (x y : Fp2) : Bool :=
  let x2 := fp2Sqr x
  let y2 := fp2Sqr y
  fp2Eq (fp2Add (fp2Neg x2) y2) (fp2Add fp2One (fp2Mul (fp2Mul c.d x2) y2))

/-- `pt_on_curve`: false when Z = 0 (44_ecc_point_add.md R195). -/
def ptOnCurve (c : Curve) (P : Point) : Bool :=
  match ptAffine P with
  | none => false
  | some (x, y) => onCurveAffine c x y

/-- `pt_dbl`: dbl-2008-hwcd with a = −1; T is not used (45_ecc_point_double.md R210). -/
def ptDbl (P : Point) : Point :=
  let A := fp2Sqr P.X
  let B := fp2Sqr P.Y
  let C := fp2Add (fp2Sqr P.Z) (fp2Sqr P.Z)
  let D := fp2Neg A
  let E := fp2Sub (fp2Sub (fp2Sqr (fp2Add P.X P.Y)) A) B
  let G := fp2Add D B
  let F := fp2Sub G C
  let H := fp2Sub D B
  ⟨fp2Mul E F, fp2Mul G H, fp2Mul F G, fp2Mul E H⟩

/-- The loop of `pt_mul`, at most `n` rounds (45_ecc_point_double.md R212). -/
def ptMulLoop (c : Curve) : Nat → Point → Point → Nat → Point
  | 0, R, _, _ => R
  | n + 1, R, A, k =>
    if k = 0 then R
    else ptMulLoop c n (if k &&& 1 = 1 then ptAdd c R A else R) (ptDbl A) (k >>> 1)

/-- `pt_mul` for a natural scalar. k halves each round, so k rounds are enough (45_ecc_point_double.md R212). -/
def ptMulNat (c : Curve) (P : Point) (k : Nat) : Point := ptMulLoop c k ptIdentity P k

/-- `pt_mul(P, k)` for an integer k: a negative k negates the point (45_ecc_point_double.md R212). -/
def ptMul (c : Curve) (P : Point) : Int → Point
  | .ofNat k => ptMulNat c P k
  | .negSucc k => ptMulNat c (ptNeg P) (k + 1)

/-- The 32-byte codec of an Fp2 element: real part first (30_encoding.md R93). -/
def fp2ToBytes (x : Fp2) : List Byte := toLE 16 x.re ++ toLE 16 x.im

/-- The Fp2 element of 32 bytes, each component reduced (30_encoding.md R93). -/
def fp2OfBytes (bs : List Byte) : Fp2 := ⟨fpReduce (leNat (bs.take 16)), fpReduce (leNat (bs.drop 16))⟩

/-- The 32 bytes with bit 7 of byte 31 replaced (46_ecc_point_compress.md R232, 47_ecc_point_decompress.md R240). -/
def setTopBit (bs : List Byte) (bit : Bool) : List Byte :=
  bs.take 31 ++ (bs.drop 31).map (fun b => (b &&& 0x7F) ||| (if bit then 0x80 else 0))

/-- `pt_encode`: absent when Z = 0 (46_ecc_point_compress.md R232). -/
def ptEncode (P : Point) : Option (List Byte) := do
  let (x, y) ← ptAffine P
  return setTopBit (fp2ToBytes y) (fp2Sign x)

/-- `pt_decode` of a 32-byte string (47_ecc_point_decompress.md R240). -/
def ptDecode (c : Curve) (E : List Byte) : Option Point := do
  let s := (E.getD 31 0).msb
  let y := fp2OfBytes (setTopBit E false)
  let y2 := fp2Sqr y
  let vi ← fp2Inv (fp2Add (fp2Mul c.d y2) fp2One)
  let x0 ← fp2Sqrt (fp2Mul (fp2Sub y2 fp2One) vi)
  let x := if fp2Sign x0 != s then fp2Neg x0 else x0
  let P : Point := ⟨x, y, fp2One, fp2Mul x y⟩
  if ptOnCurve c P then some P else none

/-- `enc_valid`: bit 7 of byte 15 is 0, and nothing else (47_ecc_point_decompress.md R242; 90_conflicts.md C6). -/
def encValid (E : List Byte) : Bool := (E.getD 15 0 &&& 0x80) == 0

end Sys2Proof.Machine
end

