-- ==== Sys2Proof/Machine/SchnorrScheme.lean ====
section
/-! DEFINITION. Seeds, keys, signing and verification as 48_schnorr_sign.md and 49_schnorr_verify.md give them, over any
hash function H and any curve. The machine runs them with `Config.hash` and `Config.curve`. -/

namespace Sys2Proof.Machine

/-- A hash function as the hash port offers it: n bytes for any byte string and any n (00_scope.md R12). -/
abbrev HashFn := List Byte → (n : Nat) → Vector Byte n

/-- `seed_valid(S, L)`: L is 55 and every seed byte is a lowercase letter (48_schnorr_sign.md R250). -/
def seedValid (S : List Byte) (L : Nat) : Bool :=
  L == 55 && S.all fun b => decide (0x61 ≤ b.toNat) && decide (b.toNat ≤ 0x7A)

/-- `seed_to_subseed(S)`: each character less 'a', hashed to 32 bytes (48_schnorr_sign.md R251). -/
def seedToSubseed (H : HashFn) (S : List Byte) : List Byte := (H (S.map fun b => b - 0x61) 32).toList

/-- `priv_of(ss)` (48_schnorr_sign.md R254). -/
def privOf (H : HashFn) (c : Curve) (ss : List Byte) : Nat := scReduce c (leNat ((H ss 64).toList.take 32))

/-- The encoding of a multiple of the base point. 48_schnorr_sign.md R254 says it is never absent; for a tuple with Z = 0
the bytes are free (log entry 12). -/
def encodeMultiple (c : Curve) (k : Nat) : List Byte :=
  match ptEncode (ptMul c (ptBase c) k) with
  | some E => E
  | none => (Config.encodingWithoutAffine (ptMul c (ptBase c) k)).toList

/-- `pub_of(ss)` (48_schnorr_sign.md R254). -/
def pubOf (H : HashFn) (c : Curve) (ss : List Byte) : List Byte := encodeMultiple c (privOf H c ss)

/-- `nonce_of(ss, dg)`: from the second half of the seed hash and the digest (48_schnorr_sign.md R257). -/
def nonceOf (H : HashFn) (c : Curve) (ss dg : List Byte) : Nat :=
  scReduce c (leNat ((H (((H ss 64).toList.drop 32).take 32 ++ dg) 64).toList.take 32))

/-- `challenge_of(R, pk, dg)` (48_schnorr_sign.md R257). -/
def challengeOf (H : HashFn) (c : Curve) (R pk dg : List Byte) : Nat :=
  scReduce c (leNat ((H (R ++ pk ++ dg) 64).toList.take 32))

/-- `sign(ss, pk, dg)`: R ‖ s, 64 bytes (48_schnorr_sign.md R258). -/
def schnorrSign (H : HashFn) (c : Curve) (ss pk dg : List Byte) : List Byte :=
  let a := privOf H c ss
  let k := nonceOf H c ss dg
  let R := encodeMultiple c k
  let h := challengeOf H c R pk dg
  R ++ toLE 32 (scSub c k (scMul c h a))

/-- The last test of `verify`: s·G + h·P equals R (49_schnorr_verify.md R270). -/
def verifyEquation (c : Curve) (P R : Point) (s h : Nat) : Bool :=
  ptEq (ptAdd c (ptMul c (ptBase c) s) (ptMul c P h)) R

/-- `verify(pk, dg, sig)` (49_schnorr_verify.md R270). -/
def schnorrVerify (H : HashFn) (c : Curve) (pk dg sig : List Byte) : Bool :=
  let Rb := sig.take 32
  let Sb := (sig.drop 32).take 32
  if !encValid pk || !encValid Rb then false
  else
    match ptDecode c pk, ptDecode c Rb with
    | some P, some R => verifyEquation c P R (leNat Sb % c.n) (challengeOf H c Rb pk dg)
    | _, _ => false

end Sys2Proof.Machine
end

