-- ==== Sys2Proof/Machine/Operands.lean ====
section
/-! DEFINITION. The typed operand views of the operand RAM (30_encoding.md R90 to R98): what each type reads from the
slots it covers, and the bytes each type writes. A slot index is a natural number here, so that slot j + 1 of a
multi-slot operand never wraps (20_memory.md R56). -/

namespace Sys2Proof.Machine

/-- The operand-RAM address of byte 0 of slot j (20_memory.md R55). -/
def slotAddr (j : Nat) : Nat := 32 * j

/-- `MemRead(a, n)`, an engine read (00_scope.md R16): a byte nobody has written faults in the model
(10_state.md R34, 93_implementation_defined.md I1), and so does a byte past slot 255. -/
def memRead (s : State) (a n : Nat) : Except Fault (List Byte) :=
  if a + n ≤ opRamSize then
    match s.opRam.readBytes a n with
    | some bs => .ok bs
    | none => .error .unwrittenOperand
  else .error .noSuchSlot

/-- `readBytes(j, n)`: n bytes from slot j on, unchanged (30_encoding.md R97). -/
def readBytes (s : State) (j n : Nat) : Except Fault (List Byte) := memRead s (slotAddr j) n

/-- `readFp(j)`: the low 16 bytes, reduced; bytes 16 to 31 are not read (30_encoding.md R91). -/
def readFp (s : State) (j : Nat) : Except Fault Nat := do
  let bs ← readBytes s j 16
  return fpReduce (leNat bs)

/-- `readFp2(j)`: both halves, each reduced (30_encoding.md R93). -/
def readFp2 (s : State) (j : Nat) : Except Fault Fp2 := do
  let bs ← readBytes s j 32
  return fp2OfBytes bs

/-- `readRaw(j)`: the 256-bit integer, not reduced (30_encoding.md R95). -/
def readRaw (s : State) (j : Nat) : Except Fault Nat := do
  let bs ← readBytes s j 32
  return leNat bs

/-- `readWide(j)`: the 512-bit integer of two slots, slot j the low half (30_encoding.md R95). -/
def readWide (s : State) (j : Nat) : Except Fault Nat := do
  let bs ← readBytes s j 64
  return leNat bs

/-- `readSc(j)`: the 32 bytes modulo N (30_encoding.md R94). -/
def readSc (s : State) (j : Nat) : Except Fault Nat := do
  let bs ← readBytes s j 32
  return leNat bs % Config.curve.n

/-- `readPt(j)`: X, Y, Z, T from four slots; nothing is checked (30_encoding.md R96). -/
def readPt (s : State) (j : Nat) : Except Fault Point := do
  let x ← readFp2 s j
  let y ← readFp2 s (j + 1)
  let z ← readFp2 s (j + 2)
  let t ← readFp2 s (j + 3)
  return ⟨x, y, z, t⟩

/-- What `writeFp` writes: 16 bytes and 16 zero bytes (30_encoding.md R92). -/
def fpBytes (v : Nat) : List Byte := toLE 16 v ++ zeroBytes 16

/-- What `writeSc` writes (30_encoding.md R94). -/
def scBytes (v : Nat) : List Byte := toLE 32 v

/-- What `writePt` writes: four slots (30_encoding.md R96). -/
def ptBytes (P : Point) : List Byte := fp2ToBytes P.X ++ fp2ToBytes P.Y ++ fp2ToBytes P.Z ++ fp2ToBytes P.T

/-- What `writeBool` writes: 0x01 or 0x00, then 31 zero bytes (30_encoding.md R98). -/
def boolBytes (b : Bool) : List Byte := (if b then 0x01 else 0x00) :: zeroBytes 31

end Sys2Proof.Machine
end

