-- ==== Sys2Proof/Machine/Ops.lean ====
section
/-! DEFINITION. The named operations every command shares: fault entry (60_exceptions.md R290 to R292), the completion
of a command and the advance of the sequencer (40_control.md R113), the write of a result (30_encoding.md R99), and the
return from a stop, which is the host's START or CLEAR (10_state.md R27, R28; 60_exceptions.md R302). -/

namespace Sys2Proof.Machine

/-- FAULT_INFO for a cause at a command pointer: zext_32(cp << 8 | c) (60_exceptions.md R292, 10_state.md R26). -/
def faultInfoWord (cp c : BitVec 8) : Word := (0 : BitVec 16) ++ cp ++ c

/-- Fault entry: take CORE's fault `c` on the command word `w` fetched at CP (60_exceptions.md R292). CP is not changed. -/
def raiseFault (c : Cause) (w : Word) (s : State) : State :=
  { s with
    state := .faulted
    faultPend := true
    faultInfo := faultInfoWord s.cp c.code
    faultCmd := w }

/-- The advance of CP, or CMD_OVERRUN at index 255 (40_control.md R113, 60_exceptions.md R291). -/
def advance (w : Word) (s : State) : State :=
  if s.cp = 255 then raiseFault .cmdOverrun w s else { s with cp := s.cp + 1 }

/-- CMD_COUNT counts one completed command, modulo 2^32 (10_state.md R29). -/
def countCommand (s : State) : State := { s with cmdCount := s.cmdCount + 1 }

/-- A command other than HALT completes with a result code (40_control.md R113): RC and the sticky bits, CMD_COUNT, and
then the sequencer moves on. -/
def complete (w : Word) (rc : Rc) (s : State) : State := advance w (countCommand (setRc rc s))

/-- The operand RAM with bytes written from slot `first` on (30_encoding.md R97; 00_scope.md R16, MemWrite). -/
def writeSlots (first : Nat) (bytes : List Byte) (s : State) : State :=
  { s with opRam := s.opRam.writeBytes (slotAddr first) bytes }

/-- The end of a command whose word is `w`, once its sources are read and its outcome is known: a model fault stops the
step; a result is written and the command completes with OK; a code without a result completes and writes nothing; a
fault of CORE is entered with nothing written (30_encoding.md R99; 60_exceptions.md R280, R281, R290). -/
def retire (w : Word) (s : State) (e : Except Fault Effect) : Result :=
  match e with
  | .error f => .fault f
  | .ok (.raised c) => .next (raiseFault c w s)
  | .ok (.silent rc) => .next (complete w rc s)
  | .ok (.wrote first bytes) =>
    if slotAddr first + bytes.length ≤ opRamSize then .next (complete w .ok (writeSlots first bytes s))
    else .fault .noSuchSlot

/-- A command whose result may be absent: it writes the bytes of the result, or completes with a code and writes nothing
(00_scope.md R18, 60_exceptions.md R281). -/
def wroteOr (rc : Rc) (first : Nat) (r : Option (List Byte)) : Effect :=
  match r with
  | some bytes => .wrote first bytes
  | none => .silent rc

/-- What START and CLEAR both clear: RC, the sticky bits, WERR, the pending bits and the fault registers (10_state.md
R27, R28). -/
def clearOutcome (s : State) : State :=
  { s with
    rc := .ok
    sAbsent := false
    sDivzero := false
    sInvalid := false
    werr := false
    donePend := false
    faultPend := false
    faultInfo := 0
    faultCmd := 0 }

/-- A host write refused while BUSY sets WERR (10_state.md R25). -/
def setWerr (s : State) : State := { s with werr := true }

/-- The START action: a new run from the CP the host left, unless BUSY (10_state.md R27). -/
def startAction (s : State) : State :=
  if s.state = .busy then setWerr s else { clearOutcome s with cmdCount := 0, state := .busy }

/-- The CLEAR action: back to IDLE, unless BUSY (10_state.md R28). -/
def clearAction (s : State) : State :=
  if s.state = .busy then setWerr s else { clearOutcome s with state := .idle }

end Sys2Proof.Machine
end

