-- ==== Sys2Proof/Machine/BarrettReduce.lean ====
section
/-! DEFINITION. The reduction and additive field commands (42_barrett_reduce.md). -/

namespace Sys2Proof.Machine

/-- FP_RED: the whole 256-bit slot, reduced (42_barrett_reduce.md R141). -/
def execFpRed (rd rs1 : Slot) (s : State) : Result :=
  retire (encode (.fpRed rd rs1)) s do
    let a ← readRaw s rs1.toNat
    return .wrote rd.toNat (fpBytes (fpReduce a))

/-- FP_ADD (42_barrett_reduce.md R142). -/
def execFpAdd (rd rs1 rs2 : Slot) (s : State) : Result :=
  retire (encode (.fpAdd rd rs1 rs2)) s do
    let a ← readFp s rs1.toNat
    let b ← readFp s rs2.toNat
    return .wrote rd.toNat (fpBytes (fpAdd a b))

/-- FP_SUB (42_barrett_reduce.md R143). -/
def execFpSub (rd rs1 rs2 : Slot) (s : State) : Result :=
  retire (encode (.fpSub rd rs1 rs2)) s do
    let a ← readFp s rs1.toNat
    let b ← readFp s rs2.toNat
    return .wrote rd.toNat (fpBytes (fpSub a b))

/-- FP_NEG (42_barrett_reduce.md R144). -/
def execFpNeg (rd rs1 : Slot) (s : State) : Result :=
  retire (encode (.fpNeg rd rs1)) s do
    let a ← readFp s rs1.toNat
    return .wrote rd.toNat (fpBytes (fpNeg a))

/-- FP_HALF (42_barrett_reduce.md R145). -/
def execFpHalf (rd rs1 : Slot) (s : State) : Result :=
  retire (encode (.fpHalf rd rs1)) s do
    let a ← readFp s rs1.toNat
    return .wrote rd.toNat (fpBytes (fpHalf a))

/-- FP2_ADD (42_barrett_reduce.md R147). -/
def execFp2Add (rd rs1 rs2 : Slot) (s : State) : Result :=
  retire (encode (.fp2Add rd rs1 rs2)) s do
    let a ← readFp2 s rs1.toNat
    let b ← readFp2 s rs2.toNat
    return .wrote rd.toNat (fp2ToBytes (fp2Add a b))

/-- FP2_SUB (42_barrett_reduce.md R148). -/
def execFp2Sub (rd rs1 rs2 : Slot) (s : State) : Result :=
  retire (encode (.fp2Sub rd rs1 rs2)) s do
    let a ← readFp2 s rs1.toNat
    let b ← readFp2 s rs2.toNat
    return .wrote rd.toNat (fp2ToBytes (fp2Sub a b))

/-- FP2_NEG (42_barrett_reduce.md R149). -/
def execFp2Neg (rd rs1 : Slot) (s : State) : Result :=
  retire (encode (.fp2Neg rd rs1)) s do
    let a ← readFp2 s rs1.toNat
    return .wrote rd.toNat (fp2ToBytes (fp2Neg a))

/-- FP2_HALF (42_barrett_reduce.md R150). -/
def execFp2Half (rd rs1 : Slot) (s : State) : Result :=
  retire (encode (.fp2Half rd rs1)) s do
    let a ← readFp2 s rs1.toNat
    return .wrote rd.toNat (fp2ToBytes (fp2Half a))


end Sys2Proof.Machine
end

