-- ==== Sys2Proof/Machine/Control.lean ====
section
/-! DEFINITION. The control commands HALT, NOP and MOV (40_control.md). -/

namespace Sys2Proof.Machine

/-- HALT: STATE ← HALTED and DONE_PEND ← 1, and nothing else (40_control.md R110, R113). -/
def execHalt (s : State) : Result := .next { s with state := .halted, donePend := true }

/-- NOP: RC ← OK (40_control.md R111). -/
def execNop (s : State) : Result := retire (encode .nop) s (.ok (.silent .ok))

/-- MOV: copy the 32 bytes of a slot unchanged (40_control.md R112). -/
def execMov (rd rs1 : Slot) (s : State) : Result :=
  retire (encode (.mov rd rs1)) s do
    let b ← readBytes s rs1.toNat 32
    return .wrote rd.toNat b


end Sys2Proof.Machine
end

