-- ==== Sys2Proof/Machine/EccPointAdd.lean ====
section
/-! DEFINITION. The point commands of 44_ecc_point_add.md. -/

namespace Sys2Proof.Machine

/-- PT_ADD (44_ecc_point_add.md R191). -/
def execPtAdd (rd rs1 rs2 : Slot) (s : State) : Result :=
  retire (encode (.ptAdd rd rs1 rs2)) s do
    let a ← readPt s rs1.toNat
    let b ← readPt s rs2.toNat
    return .wrote rd.toNat (ptBytes (ptAdd Config.curve a b))

/-- PT_NEG (44_ecc_point_add.md R192). -/
def execPtNeg (rd rs1 : Slot) (s : State) : Result :=
  retire (encode (.ptNeg rd rs1)) s do
    let a ← readPt s rs1.toNat
    return .wrote rd.toNat (ptBytes (ptNeg a))

/-- PT_EQ: a Bool, RC = OK either way (44_ecc_point_add.md R194). -/
def execPtEq (rd rs1 rs2 : Slot) (s : State) : Result :=
  retire (encode (.ptEq rd rs1 rs2)) s do
    let a ← readPt s rs1.toNat
    let b ← readPt s rs2.toNat
    return .wrote rd.toNat (boolBytes (ptEq a b))

/-- PT_ONCURVE: a Bool, RC = OK either way (44_ecc_point_add.md R196). -/
def execPtOncurve (rd rs1 : Slot) (s : State) : Result :=
  retire (encode (.ptOncurve rd rs1)) s do
    let a ← readPt s rs1.toNat
    return .wrote rd.toNat (boolBytes (ptOnCurve Config.curve a))

/-- PT_LDID: the identity tuple (44_ecc_point_add.md R197). -/
def execPtLdid (rd : Slot) (s : State) : Result :=
  retire (encode (.ptLdid rd)) s (.ok (.wrote rd.toNat (ptBytes ptIdentity)))

/-- PT_LDB: the base point tuple (44_ecc_point_add.md R198). -/
def execPtLdb (rd : Slot) (s : State) : Result :=
  retire (encode (.ptLdb rd)) s (.ok (.wrote rd.toNat (ptBytes (ptBase Config.curve))))


end Sys2Proof.Machine
end

