-- ==== Sys2Proof/Machine/EccPointCompress.lean ====
section
/-! DEFINITION. The x-sign and point encoding (46_ecc_point_compress.md). -/

namespace Sys2Proof.Machine

/-- FP2_SIGN (46_ecc_point_compress.md R231). -/
def execFp2Sign (rd rs1 : Slot) (s : State) : Result :=
  retire (encode (.fp2Sign rd rs1)) s do
    let a ← readFp2 s rs1.toNat
    return .wrote rd.toNat (boolBytes (fp2Sign a))

/-- PT_ENC: DIVZERO when Z = 0 (46_ecc_point_compress.md R233). -/
def execPtEnc (rd rs1 : Slot) (s : State) : Result :=
  retire (encode (.ptEnc rd rs1)) s do
    let P ← readPt s rs1.toNat
    return wroteOr .divzero rd.toNat (ptEncode P)


end Sys2Proof.Machine
end

