-- ==== Sys2Proof/Machine/EccPointDecompress.lean ====
section
/-! DEFINITION. Point decoding and the encoding validator (47_ecc_point_decompress.md). -/

namespace Sys2Proof.Machine

/-- PT_DEC: ABSENT where the decode fails (47_ecc_point_decompress.md R241). -/
def execPtDec (rd rs1 : Slot) (s : State) : Result :=
  retire (encode (.ptDec rd rs1)) s do
    let E ← readBytes s rs1.toNat 32
    return wroteOr .absent rd.toNat ((ptDecode Config.curve E).map ptBytes)

/-- PT_CHKENC (47_ecc_point_decompress.md R243). -/
def execPtChkenc (rd rs1 : Slot) (s : State) : Result :=
  retire (encode (.ptChkenc rd rs1)) s do
    let E ← readBytes s rs1.toNat 32
    return .wrote rd.toNat (boolBytes (encValid E))


end Sys2Proof.Machine
end

