-- ==== Sys2Proof/Machine/EccPointDouble.lean ====
section
/-! DEFINITION. Doubling and scalar multiplication (45_ecc_point_double.md). -/

namespace Sys2Proof.Machine

/-- PT_DBL (45_ecc_point_double.md R211). -/
def execPtDbl (rd rs1 : Slot) (s : State) : Result :=
  retire (encode (.ptDbl rd rs1)) s do
    let a ← readPt s rs1.toNat
    return .wrote rd.toNat (ptBytes (ptDbl a))

/-- PT_MUL: the scalar is the whole 256-bit slot, not reduced (45_ecc_point_double.md R213). -/
def execPtMul (rd rs1 rs2 : Slot) (s : State) : Result :=
  retire (encode (.ptMul rd rs1 rs2)) s do
    let P ← readPt s rs1.toNat
    let k ← readRaw s rs2.toNat
    return .wrote rd.toNat (ptBytes (ptMul Config.curve P k))


end Sys2Proof.Machine
end

