-- ==== Sys2Proof/Machine/ModexpEngine.lean ====
section
/-! DEFINITION. The exponentiation, inverse, square-root and scalar commands (43_modexp_engine.md). -/

namespace Sys2Proof.Machine

/-- FP_INV: DIVZERO for zero (43_modexp_engine.md R161). -/
def execFpInv (rd rs1 : Slot) (s : State) : Result :=
  retire (encode (.fpInv rd rs1)) s do
    let a ← readFp s rs1.toNat
    return wroteOr .divzero rd.toNat ((fpInv a).map fpBytes)

/-- FP_SQRT: ABSENT where there is no root (43_modexp_engine.md R162). -/
def execFpSqrt (rd rs1 : Slot) (s : State) : Result :=
  retire (encode (.fpSqrt rd rs1)) s do
    let a ← readFp s rs1.toNat
    return wroteOr .absent rd.toNat ((fpSqrt a).map fpBytes)

/-- FP2_INV: DIVZERO for zero (43_modexp_engine.md R164). -/
def execFp2Inv (rd rs1 : Slot) (s : State) : Result :=
  retire (encode (.fp2Inv rd rs1)) s do
    let a ← readFp2 s rs1.toNat
    return wroteOr .divzero rd.toNat ((fp2Inv a).map fp2ToBytes)

/-- FP2_SQRT: ABSENT where there is no root (43_modexp_engine.md R166). -/
def execFp2Sqrt (rd rs1 : Slot) (s : State) : Result :=
  retire (encode (.fp2Sqrt rd rs1)) s do
    let a ← readFp2 s rs1.toNat
    return wroteOr .absent rd.toNat ((fp2Sqrt a).map fp2ToBytes)

/-- SC_RED32: the whole 256-bit slot modulo N (43_modexp_engine.md R170). -/
def execScRed32 (rd rs1 : Slot) (s : State) : Result :=
  retire (encode (.scRed32 rd rs1)) s do
    let a ← readRaw s rs1.toNat
    return .wrote rd.toNat (scBytes (scReduce Config.curve a))

/-- SC_RED64: two slots, 512 bits, modulo N (43_modexp_engine.md R169, R171). -/
def execScRed64 (rd rs1 : Slot) (s : State) : Result :=
  retire (encode (.scRed64 rd rs1)) s do
    let a ← readWide s rs1.toNat
    return .wrote rd.toNat (scBytes (scReduce Config.curve a))

/-- SC_ADD (43_modexp_engine.md R172). -/
def execScAdd (rd rs1 rs2 : Slot) (s : State) : Result :=
  retire (encode (.scAdd rd rs1 rs2)) s do
    let a ← readSc s rs1.toNat
    let b ← readSc s rs2.toNat
    return .wrote rd.toNat (scBytes (scAdd Config.curve a b))

/-- SC_SUB (43_modexp_engine.md R173). -/
def execScSub (rd rs1 rs2 : Slot) (s : State) : Result :=
  retire (encode (.scSub rd rs1 rs2)) s do
    let a ← readSc s rs1.toNat
    let b ← readSc s rs2.toNat
    return .wrote rd.toNat (scBytes (scSub Config.curve a b))

/-- SC_MUL (43_modexp_engine.md R174). -/
def execScMul (rd rs1 rs2 : Slot) (s : State) : Result :=
  retire (encode (.scMul rd rs1 rs2)) s do
    let a ← readSc s rs1.toNat
    let b ← readSc s rs2.toNat
    return .wrote rd.toNat (scBytes (scMul Config.curve a b))

/-- SC_INV: DIVZERO for zero (43_modexp_engine.md R175). -/
def execScInv (rd rs1 : Slot) (s : State) : Result :=
  retire (encode (.scInv rd rs1)) s do
    let a ← readSc s rs1.toNat
    return wroteOr .divzero rd.toNat ((scInv Config.curve a).map scBytes)


end Sys2Proof.Machine
end

