-- ==== Sys2Proof/Machine/MontgomeryMult.lean ====
section
/-! DEFINITION. The field multiplication commands (41_montgomery_mult.md). -/

namespace Sys2Proof.Machine

/-- FP_MUL (41_montgomery_mult.md R121). -/
def execFpMul (rd rs1 rs2 : Slot) (s : State) : Result :=
  retire (encode (.fpMul rd rs1 rs2)) s do
    let a ← readFp s rs1.toNat
    let b ← readFp s rs2.toNat
    return .wrote rd.toNat (fpBytes (fpMul a b))

/-- FP_SQR (41_montgomery_mult.md R122). -/
def execFpSqr (rd rs1 : Slot) (s : State) : Result :=
  retire (encode (.fpSqr rd rs1)) s do
    let a ← readFp s rs1.toNat
    return .wrote rd.toNat (fpBytes (fpSqr a))

/-- FP2_MUL (41_montgomery_mult.md R124). -/
def execFp2Mul (rd rs1 rs2 : Slot) (s : State) : Result :=
  retire (encode (.fp2Mul rd rs1 rs2)) s do
    let a ← readFp2 s rs1.toNat
    let b ← readFp2 s rs2.toNat
    return .wrote rd.toNat (fp2ToBytes (fp2Mul a b))

/-- FP2_SQR (41_montgomery_mult.md R125). -/
def execFp2Sqr (rd rs1 : Slot) (s : State) : Result :=
  retire (encode (.fp2Sqr rd rs1)) s do
    let a ← readFp2 s rs1.toNat
    return .wrote rd.toNat (fp2ToBytes (fp2Sqr a))


end Sys2Proof.Machine
end

