-- ==== Sys2Proof/Machine/SchnorrSign.lean ====
section
/-! DEFINITION. Seeds, keys and signing (48_schnorr_sign.md), over the hash port. -/

namespace Sys2Proof.Machine

/-- SEED_STRICT: an invalid seed raises INVALID_SEED. L is checked first, and with L other than 55 the bytes do not matter
(48_schnorr_sign.md R250, R252; log entry 11). -/
def execSeedStrict (rd rs1 : Slot) (l : Byte) (s : State) : Result :=
  retire (encode (.seedStrict rd rs1 l)) s do
    if l.toNat = 55 then
      let S ← readBytes s rs1.toNat 55
      if seedValid S l.toNat then return .wrote rd.toNat (seedToSubseed Config.hash S)
      else return .raised .invalidSeed
    else return .raised .invalidSeed

/-- SEED_TRY: an invalid seed completes with INVALID and writes nothing; L is checked first (48_schnorr_sign.md R250, R253;
log entry 11). -/
def execSeedTry (rd rs1 : Slot) (l : Byte) (s : State) : Result :=
  retire (encode (.seedTry rd rs1 l)) s do
    if l.toNat = 55 then
      let S ← readBytes s rs1.toNat 55
      if seedValid S l.toNat then return .wrote rd.toNat (seedToSubseed Config.hash S)
      else return .silent .invalid
    else return .silent .invalid

/-- KEY_PRIV (48_schnorr_sign.md R255). -/
def execKeyPriv (rd rs1 : Slot) (s : State) : Result :=
  retire (encode (.keyPriv rd rs1)) s do
    let ss ← readBytes s rs1.toNat 32
    return .wrote rd.toNat (scBytes (privOf Config.hash Config.curve ss))

/-- KEY_PUB (48_schnorr_sign.md R256). -/
def execKeyPub (rd rs1 : Slot) (s : State) : Result :=
  retire (encode (.keyPub rd rs1)) s do
    let ss ← readBytes s rs1.toNat 32
    return .wrote rd.toNat (pubOf Config.hash Config.curve ss)

/-- SIGN: subSeed and public key from a Pair, the digest, and R ‖ s written as a Pair (48_schnorr_sign.md R259). -/
def execSign (rd rs1 rs2 : Slot) (s : State) : Result :=
  retire (encode (.sign rd rs1 rs2)) s do
    let ss ← readBytes s rs1.toNat 32
    let pk ← readBytes s (rs1.toNat + 1) 32
    let dg ← readBytes s rs2.toNat 32
    return .wrote rd.toNat (schnorrSign Config.hash Config.curve ss pk dg)


end Sys2Proof.Machine
end

