-- ==== Sys2Proof/Machine/SchnorrVerify.lean ====
section
/-! DEFINITION. Signature verification (49_schnorr_verify.md), over the hash port. -/

namespace Sys2Proof.Machine

/-- VERIFY: a Bool, RC = OK either way (49_schnorr_verify.md R271). -/
def execVerify (rd rs1 rs2 : Slot) (s : State) : Result :=
  retire (encode (.verify rd rs1 rs2)) s do
    let pk ← readBytes s rs1.toNat 32
    let dg ← readBytes s (rs1.toNat + 1) 32
    let sig ← readBytes s rs2.toNat 64
    return .wrote rd.toNat (boolBytes (schnorrVerify Config.hash Config.curve pk dg sig))


end Sys2Proof.Machine
end

