-- ==== Sys2Proof/Machine/Dispatch.lean ====
section
/-! DEFINITION. exec: one arm for each command of 30_encoding.md R84, each a call of that command's meaning. -/

namespace Sys2Proof.Machine

def exec (i : Instr) (s : State) : Host.Outcome State Fault Refusal :=
  match i with
  | .halt => Sys2Proof.Machine.execHalt s
  | .nop => Sys2Proof.Machine.execNop s
  | .mov rd rs1 => Sys2Proof.Machine.execMov rd rs1 s
  | .fpMul rd rs1 rs2 => Sys2Proof.Machine.execFpMul rd rs1 rs2 s
  | .fpSqr rd rs1 => Sys2Proof.Machine.execFpSqr rd rs1 s
  | .fp2Mul rd rs1 rs2 => Sys2Proof.Machine.execFp2Mul rd rs1 rs2 s
  | .fp2Sqr rd rs1 => Sys2Proof.Machine.execFp2Sqr rd rs1 s
  | .fpRed rd rs1 => Sys2Proof.Machine.execFpRed rd rs1 s
  | .fpAdd rd rs1 rs2 => Sys2Proof.Machine.execFpAdd rd rs1 rs2 s
  | .fpSub rd rs1 rs2 => Sys2Proof.Machine.execFpSub rd rs1 rs2 s
  | .fpNeg rd rs1 => Sys2Proof.Machine.execFpNeg rd rs1 s
  | .fpHalf rd rs1 => Sys2Proof.Machine.execFpHalf rd rs1 s
  | .fp2Add rd rs1 rs2 => Sys2Proof.Machine.execFp2Add rd rs1 rs2 s
  | .fp2Sub rd rs1 rs2 => Sys2Proof.Machine.execFp2Sub rd rs1 rs2 s
  | .fp2Neg rd rs1 => Sys2Proof.Machine.execFp2Neg rd rs1 s
  | .fp2Half rd rs1 => Sys2Proof.Machine.execFp2Half rd rs1 s
  | .fpInv rd rs1 => Sys2Proof.Machine.execFpInv rd rs1 s
  | .fpSqrt rd rs1 => Sys2Proof.Machine.execFpSqrt rd rs1 s
  | .fp2Inv rd rs1 => Sys2Proof.Machine.execFp2Inv rd rs1 s
  | .fp2Sqrt rd rs1 => Sys2Proof.Machine.execFp2Sqrt rd rs1 s
  | .scRed32 rd rs1 => Sys2Proof.Machine.execScRed32 rd rs1 s
  | .scRed64 rd rs1 => Sys2Proof.Machine.execScRed64 rd rs1 s
  | .scAdd rd rs1 rs2 => Sys2Proof.Machine.execScAdd rd rs1 rs2 s
  | .scSub rd rs1 rs2 => Sys2Proof.Machine.execScSub rd rs1 rs2 s
  | .scMul rd rs1 rs2 => Sys2Proof.Machine.execScMul rd rs1 rs2 s
  | .scInv rd rs1 => Sys2Proof.Machine.execScInv rd rs1 s
  | .ptAdd rd rs1 rs2 => Sys2Proof.Machine.execPtAdd rd rs1 rs2 s
  | .ptNeg rd rs1 => Sys2Proof.Machine.execPtNeg rd rs1 s
  | .ptEq rd rs1 rs2 => Sys2Proof.Machine.execPtEq rd rs1 rs2 s
  | .ptOncurve rd rs1 => Sys2Proof.Machine.execPtOncurve rd rs1 s
  | .ptLdid rd => Sys2Proof.Machine.execPtLdid rd s
  | .ptLdb rd => Sys2Proof.Machine.execPtLdb rd s
  | .ptDbl rd rs1 => Sys2Proof.Machine.execPtDbl rd rs1 s
  | .ptMul rd rs1 rs2 => Sys2Proof.Machine.execPtMul rd rs1 rs2 s
  | .fp2Sign rd rs1 => Sys2Proof.Machine.execFp2Sign rd rs1 s
  | .ptEnc rd rs1 => Sys2Proof.Machine.execPtEnc rd rs1 s
  | .ptDec rd rs1 => Sys2Proof.Machine.execPtDec rd rs1 s
  | .ptChkenc rd rs1 => Sys2Proof.Machine.execPtChkenc rd rs1 s
  | .seedStrict rd rs1 l => Sys2Proof.Machine.execSeedStrict rd rs1 l s
  | .seedTry rd rs1 l => Sys2Proof.Machine.execSeedTry rd rs1 l s
  | .keyPriv rd rs1 => Sys2Proof.Machine.execKeyPriv rd rs1 s
  | .keyPub rd rs1 => Sys2Proof.Machine.execKeyPub rd rs1 s
  | .sign rd rs1 rs2 => Sys2Proof.Machine.execSign rd rs1 rs2 s
  | .verify rd rs1 rs2 => Sys2Proof.Machine.execVerify rd rs1 rs2 s

end Sys2Proof.Machine
end

