-- ==== Sys2Proof/Machine/HostPort.lean ====
section
/-! DEFINITION. The host window (20_memory.md R52): host reads and writes of the registers and of both RAMs, the reset
input (70_reset_and_hazards.md R320), and the place of the window in the platform's space (00_scope.md R13). -/

namespace Sys2Proof.Machine

/-- The size of the host window in bytes (20_memory.md R51). -/
def windowSize : Nat := 0x4000

/-- The offset in the host window that a platform address reaches, if it reaches CORE at all (00_scope.md R13,
20_memory.md R51). -/
def windowOffset (address : Nat) : Option Nat :=
  if Config.baseAddr ≤ address ∧ address < Config.baseAddr + windowSize then some (address - Config.baseAddr) else none

/-- A host write of CTRL: the interrupt enables, then CLEAR, then START (10_state.md R23). -/
def writeCtrl (w : Word) (s : State) : State :=
  let s1 := { s with ieDone := w.getLsbD 2, ieFault := w.getLsbD 3 }
  let s2 := if w.getLsbD 1 then clearAction s1 else s1
  if w.getLsbD 0 then startAction s2 else s2

/-- A host write of CP: refused while BUSY (10_state.md R24). -/
def writeCp (w : Word) (s : State) : State :=
  if s.state = .busy then setWerr s else { s with cp := w.extractLsb' 0 8 }

/-- A host write of four bytes of the command RAM: refused while BUSY (20_memory.md R57, R58). -/
def writeCmdRam (a : Nat) (w : Word) (s : State) : State :=
  if s.state = .busy then setWerr s else { s with cmdRam := s.cmdRam.writeBytes a (wordBytes w) }

/-- A host write of four bytes of the operand RAM: refused while BUSY (20_memory.md R55, R58). -/
def writeOpRam (a : Nat) (w : Word) (s : State) : State :=
  if s.state = .busy then setWerr s else { s with opRam := s.opRam.writeBytes a (wordBytes w) }

/-- A host write of a word at an aligned offset of the window (20_memory.md R52). Read-only registers and reserved
offsets ignore it (10_state.md R25, R26, R29, R30). -/
def hostWrite (offset : Nat) (w : Word) (s : State) : State :=
  if offset = 0x0000 then writeCtrl w s
  else if offset = 0x0008 then writeCp w s
  else if 0x1000 ≤ offset ∧ offset < 0x1400 then writeCmdRam (offset - 0x1000) w s
  else if 0x2000 ≤ offset ∧ offset < 0x4000 then writeOpRam (offset - 0x2000) w s
  else s

/-- The word the host reads in a RAM: the stored bytes, little-endian (20_memory.md R54), or none where one of them was
never written. -/
def ramWord (m : Memory) (a : Nat) : Option Word := (m.readBytes a 4).map bytesWord

/-- The word a host read at an aligned offset of the window returns, or none where the spec lets it be any word: a RAM
word nobody has written since reset (93_implementation_defined.md I4), and the operand RAM while BUSY (20_memory.md R59,
I3). Registers read at the present step boundary (10_state.md R30, log entry 14); reserved offsets read 0. -/
def windowWord (offset : Nat) (s : State) : Option Word :=
  if offset = 0x0000 then some (ctrlWord s)
  else if offset = 0x0004 then some (statusWord s)
  else if offset = 0x0008 then some (s.cp.setWidth 32)
  else if offset = 0x000C then some s.faultInfo
  else if offset = 0x0010 then some s.faultCmd
  else if offset = 0x0014 then some s.cmdCount
  else if 0x1000 ≤ offset ∧ offset < 0x1400 then ramWord s.cmdRam (offset - 0x1000)
  else if 0x2000 ≤ offset ∧ offset < 0x4000 then
    if s.state = .busy then none else ramWord s.opRam (offset - 0x2000)
  else some 0

/-- A host read: the word goes to `reply`, and nothing of CORE changes (20_memory.md R60). An unspecified word is the
next free value. -/
def hostRead (offset : Nat) (s : State) : State :=
  match windowWord offset s with
  | some w => { s with reply := some w }
  | none => { s with reply := some (Config.freeHostWord s.freeCount), freeCount := s.freeCount + 1 }

/-- A host access takes effect only inside the window, and only as an aligned 32-bit word (20_memory.md R52, R53;
93_implementation_defined.md I2). -/
def hostAccess (offset width : Nat) (s : State) (act : State → State) : Result :=
  if windowSize ≤ offset then .refused .outsideWindow
  else if width = 4 ∧ offset % 4 = 0 then .next (act s)
  else .refused .hostAccessForm

/-- The reset input (70_reset_and_hazards.md R320, R321): every register at its reset value, and nothing written in
either RAM since. The model's own fields are no part of CORE and stay. -/
def resetInput (s : State) : State :=
  { State.reset with inputs := s.inputs, reply := s.reply, freeCount := s.freeCount }

end Sys2Proof.Machine
end

