-- ==== Sys2Proof/Machine/Sequencer.lean ====
section
/-! DEFINITION. The engine step (40_control.md R113) and the turns of the two agents (10_state.md R20): fetch, decode,
run, and the events from outside that `inputs` holds. -/

namespace Sys2Proof.Machine

/-- The address of command word i in the command RAM's bytes (20_memory.md R57). -/
def cmdAddr (i : Nat) : Nat := 4 * i

/-- Fetch: the four bytes of the command word at CP; a word nobody has written faults in the model (10_state.md R34,
20_memory.md R65, 93_implementation_defined.md I1). -/
def fetch (s : State) : Except Fault (List Byte) :=
  match s.cmdRam.readBytes (cmdAddr s.cp.toNat) 4 with
  | some bs => .ok bs
  | none => .error .unwrittenCommand

/-- The cause a failed decode check raises (30_encoding.md R83, 60_exceptions.md R291). -/
def decodeCause : DecodeError → Cause
  | .illegalOpcode => .illegalOpcode
  | .reservedField => .reservedField
  | .slotRange => .slotRange

/-- One engine step (40_control.md R113). -/
def engineStep (s : State) : Result :=
  match fetch s with
  | .error f => .fault f
  | .ok bs =>
    match decodeBytes bs with
    | .error e => .next (raiseFault (decodeCause e) (bytesWord bs) s)
    | .ok i => exec i s

/-- The turn of an event from outside, already taken from `inputs` (20_memory.md R60, R62). During a `wait` the engine
steps if it is BUSY, and otherwise nothing happens. -/
def eventTurn (e : HostEvent) (s : State) : Result :=
  match e with
  | .write offset width data => hostAccess offset width s (hostWrite offset data)
  | .read offset width => hostAccess offset width s (hostRead offset)
  | .reset => .next (resetInput s)
  | .wait => if s.state = .busy then engineStep s else .next s

/-- One transition of CORE (70_reset_and_hazards.md R331): the next event from outside, if there is one, and else a step
of the engine, which has one only while BUSY (10_state.md R22). -/
def turn (s : State) : Result :=
  match s.inputs with
  | e :: rest => eventTurn e { s with inputs := rest }
  | [] => if s.state = .busy then engineStep s else .refused .noStep

/-- The state in which the engine is BUSY, nothing is pending from outside, and the command word at CP holds the low
`nbits` bits of w, higher bits zero. -/
def placeCommand (nbits w : Nat) (s : State) : State :=
  { s with
    state := .busy
    inputs := []
    cmdRam := s.cmdRam.writeBytes (cmdAddr s.cp.toNat) (toLE 4 (w % 2 ^ nbits)) }

end Sys2Proof.Machine
end

