-- ==== Sys2Proof/Machine/Step.lean ====
section
/-! DEFINITION. The step of the whole machine, and the state in which its next step fetches a given command. -/

namespace Sys2Proof.Machine

/-- One step of the machine: one transition of CORE (40_control.md R113, 20_memory.md R60). -/
def step (s : State) : Host.Outcome State Fault Refusal := turn s

/-- s with a command stored where the next step fetches it, the engine BUSY, and no event pending, so that the very next
step runs that command (log entry 9). -/
def State.withFetchWord (s : State) (nbits w : Nat) : State := placeCommand nbits w s

end Sys2Proof.Machine
end

