-- ==== Sys2Proof/Safety.lean ====
section
/-! DEFINITION. The terms the statements about the machine use: what the operand RAM holds, what a command may write and
leaves unchanged, what completing and faulting look like from outside (said in the spec's terms, without the operations
of Machine/Ops.lean), and the invariants of the machine. -/

namespace Sys2Proof.Machine

/-- The operand RAM holds these bytes from slot j on. -/
def holdsAt (s : State) (j : Nat) (bs : List Byte) : Prop :=
  ∀ k, k < bs.length → s.opRam.read (slotAddr j + k) = bs[k]?

/-- The command RAM holds the word w at CP, in its four bytes (20_memory.md R54, R57). -/
def commandAt (s : State) (w : Word) : Prop :=
  ∀ k, k < 4 → s.cmdRam.read (cmdAddr s.cp.toNat + k) = (wordBytes w)[k]?

/-- From s to t these bytes were written from slot j on, and every other byte of the operand RAM reads as before. -/
structure WroteAt (s t : State) (j : Nat) (bs : List Byte) : Prop where
  written : holdsAt t j bs
  others : ∀ a, a < slotAddr j ∨ slotAddr j + bs.length ≤ a → t.opRam.read a = s.opRam.read a

/-- No command changes these: the interrupt enables, WERR, DONE_PEND unless it is HALT, the command RAM, and the model's
own fields (10_state.md R23, R25; 20_memory.md R57). -/
structure HostSideKept (s t : State) : Prop where
  ieDone : t.ieDone = s.ieDone
  ieFault : t.ieFault = s.ieFault
  werr : t.werr = s.werr
  donePend : t.donePend = s.donePend
  cmdRam : t.cmdRam = s.cmdRam
  inputs : t.inputs = s.inputs
  reply : t.reply = s.reply
  freeCount : t.freeCount = s.freeCount

/-- Fault entry from s to t with a cause code on the command word w: the four writes of 60_exceptions.md R292 and nothing
else; the operand RAM, RC, the sticky bits, CMD_COUNT and CP are as in s (R290). -/
structure FaultEntered (code : Nat) (w : Word) (s t : State) : Prop where
  state : t.state = .faulted
  faultPend : t.faultPend = true
  faultInfo : t.faultInfo.toNat = 256 * s.cp.toNat + code
  faultCmd : t.faultCmd = w
  cp : t.cp = s.cp
  rc : t.rc = s.rc
  sAbsent : t.sAbsent = s.sAbsent
  sDivzero : t.sDivzero = s.sDivzero
  sInvalid : t.sInvalid = s.sInvalid
  cmdCount : t.cmdCount = s.cmdCount
  opRam : t.opRam = s.opRam
  kept : HostSideKept s t

/-- Where the sequencer goes after a command that completed (40_control.md R113): the next index, with everything about
faults as it was; or, at index 255, the fault CMD_OVERRUN on that command's word (60_exceptions.md R291, R292). -/
def Advanced (w : Word) (s t : State) : Prop :=
  if s.cp = 255 then
    t.state = .faulted ∧ t.faultPend = true ∧ t.faultInfo = 0x0000FF05 ∧ t.faultCmd = w ∧ t.cp = 255
  else
    t.cp.toNat = s.cp.toNat + 1 ∧ t.state = s.state ∧ t.faultPend = s.faultPend ∧ t.faultInfo = s.faultInfo ∧
      t.faultCmd = s.faultCmd

/-- A command with the word w other than HALT completed from s to t with a result code: everything of the state but the
operand RAM (40_control.md R113; 10_state.md R25, R29, R35). -/
structure CompletedAs (w : Word) (code : Rc) (s t : State) : Prop where
  rc : t.rc = code
  sAbsent : t.sAbsent = (s.sAbsent || decide (code = .absent))
  sDivzero : t.sDivzero = (s.sDivzero || decide (code = .divzero))
  sInvalid : t.sInvalid = (s.sInvalid || decide (code = .invalid))
  cmdCount : t.cmdCount = s.cmdCount + 1
  advanced : Advanced w s t
  kept : HostSideKept s t

/-- The command i runs at s to its own effect: it completes with OK and writes these bytes from slot j on. -/
def Writes (i : Instr) (s : State) (j : Slot) (bs : List Byte) : Prop :=
  ∃ t, exec i s = .next t ∧ CompletedAs (encode i) .ok s t ∧ WroteAt s t j.toNat bs

/-- The command i completes at s with a code and writes nothing (60_exceptions.md R281). -/
def CompletesWithout (i : Instr) (s : State) (rc : Rc) : Prop :=
  ∃ t, exec i s = .next t ∧ CompletedAs (encode i) rc s t ∧ t.opRam = s.opRam

/-- The slots a command may write: the first slot and how many, from the type of its RD in 30_encoding.md R84. -/
def destination : Instr → Option (Slot × Nat)
  | .halt | .nop => none
  | .mov rd _ | .fpMul rd _ _ | .fpSqr rd _ | .fp2Mul rd _ _ | .fp2Sqr rd _ | .fpRed rd _ | .fpAdd rd _ _
  | .fpSub rd _ _ | .fpNeg rd _ | .fpHalf rd _ | .fp2Add rd _ _ | .fp2Sub rd _ _ | .fp2Neg rd _ | .fp2Half rd _
  | .fpInv rd _ | .fpSqrt rd _ | .fp2Inv rd _ | .fp2Sqrt rd _ | .scRed32 rd _ | .scRed64 rd _ | .scAdd rd _ _
  | .scSub rd _ _ | .scMul rd _ _ | .scInv rd _ | .ptEq rd _ _ | .ptOncurve rd _ | .fp2Sign rd _ | .ptEnc rd _
  | .ptChkenc rd _ | .seedStrict rd _ _ | .seedTry rd _ _ | .keyPriv rd _ | .keyPub rd _ | .verify rd _ _ =>
    some (rd, 1)
  | .sign rd _ _ => some (rd, 2)
  | .ptAdd rd _ _ | .ptNeg rd _ | .ptLdid rd | .ptLdb rd | .ptDbl rd _ | .ptMul rd _ _ | .ptDec rd _ => some (rd, 4)

/-- Address a lies in the destination of the command (20_memory.md R55, R56). -/
def inDestination (i : Instr) (a : Nat) : Prop :=
  match destination i with
  | none => False
  | some (rd, n) => slotAddr rd.toNat ≤ a ∧ a < slotAddr rd.toNat + 32 * n

/-- The bytes a command reads: the first slot of each source and how many bytes from there on, by the type its row of
30_encoding.md R84 gives it: 16 for Fp (R91), the 55 of a seed when L is 55 (48_schnorr_sign.md R250, log entry 11), and
else every byte of the slots (R93 to R97). -/
def sources : Instr → List (Slot × Nat)
  | .halt | .nop | .ptLdid _ | .ptLdb _ => []
  | .fpSqr _ a | .fpNeg _ a | .fpHalf _ a | .fpInv _ a | .fpSqrt _ a => [(a, 16)]
  | .fpMul _ a b | .fpAdd _ a b | .fpSub _ a b => [(a, 16), (b, 16)]
  | .mov _ a | .fp2Sqr _ a | .fpRed _ a | .fp2Neg _ a | .fp2Half _ a | .fp2Inv _ a | .fp2Sqrt _ a | .scRed32 _ a
  | .scInv _ a | .fp2Sign _ a | .ptDec _ a | .ptChkenc _ a | .keyPriv _ a | .keyPub _ a => [(a, 32)]
  | .fp2Mul _ a b | .fp2Add _ a b | .fp2Sub _ a b | .scAdd _ a b | .scSub _ a b | .scMul _ a b => [(a, 32), (b, 32)]
  | .scRed64 _ a => [(a, 64)]
  | .ptNeg _ a | .ptOncurve _ a | .ptDbl _ a | .ptEnc _ a => [(a, 128)]
  | .ptAdd _ a b | .ptEq _ a b => [(a, 128), (b, 128)]
  | .ptMul _ a b => [(a, 128), (b, 32)]
  | .seedStrict _ a l | .seedTry _ a l => if l.toNat = 55 then [(a, 55)] else []
  | .sign _ a b => [(a, 64), (b, 32)]
  | .verify _ a b => [(a, 64), (b, 64)]

/-- The result codes a command can complete with (60_exceptions.md R282); HALT sets none. -/
def possibleRc : Instr → List Rc
  | .halt => []
  | .fpInv _ _ | .fp2Inv _ _ | .scInv _ _ | .ptEnc _ _ => [.ok, .divzero]
  | .fpSqrt _ _ | .fp2Sqrt _ _ | .ptDec _ _ => [.ok, .absent]
  | .seedTry _ _ _ => [.ok, .invalid]
  | .nop | .mov _ _ | .fpMul _ _ _ | .fpSqr _ _ | .fp2Mul _ _ _ | .fp2Sqr _ _ | .fpRed _ _ | .fpAdd _ _ _
  | .fpSub _ _ _ | .fpNeg _ _ | .fpHalf _ _ | .fp2Add _ _ _ | .fp2Sub _ _ _ | .fp2Neg _ _ | .fp2Half _ _
  | .scRed32 _ _ | .scRed64 _ _ | .scAdd _ _ _ | .scSub _ _ _ | .scMul _ _ _ | .ptAdd _ _ _ | .ptNeg _ _
  | .ptEq _ _ _ | .ptOncurve _ _ | .ptLdid _ | .ptLdb _ | .ptDbl _ _ | .ptMul _ _ _ | .fp2Sign _ _ | .ptChkenc _ _
  | .seedStrict _ _ _ | .keyPriv _ _ | .keyPub _ _ | .sign _ _ _ | .verify _ _ _ => [.ok]

/-- The point that 128 bytes hold, each component reduced (30_encoding.md R93, R96). -/
def ptOfBytes (bs : List Byte) : Point :=
  ⟨fp2OfBytes (bs.take 32), fp2OfBytes ((bs.drop 32).take 32), fp2OfBytes ((bs.drop 64).take 32),
    fp2OfBytes ((bs.drop 96).take 32)⟩

/-- A canonical element of Fp2 (00_scope.md R19). -/
def Fp2Canonical (x : Fp2) : Prop := x.re < primeP ∧ x.im < primeP

/-- A tuple of canonical elements. -/
def PointCanonical (P : Point) : Prop := Fp2Canonical P.X ∧ Fp2Canonical P.Y ∧ Fp2Canonical P.Z ∧ Fp2Canonical P.T

/-- Both RAMs are in their one canonical form and list no address that does not exist (20_memory.md R51). -/
def MemoryCanonical (s : State) : Prop :=
  s.opRam.wf = true ∧ s.opRam.below opRamSize = true ∧ s.cmdRam.wf = true ∧ s.cmdRam.below cmdRamSize = true

/-- The STATUS fields agree: DONE_PEND is up exactly in HALTED and FAULT_PEND exactly in FAULTED, so never both
(60_exceptions.md R293); with no fault pending the fault registers are 0 (10_state.md R26); and a code other than OK has
its sticky bit (10_state.md R35). -/
def StatusConsistent (s : State) : Prop :=
  (s.donePend = true ↔ s.state = .halted) ∧ (s.faultPend = true ↔ s.state = .faulted) ∧
    (s.faultPend = false → s.faultInfo = 0 ∧ s.faultCmd = 0) ∧
    (s.rc = .absent → s.sAbsent = true) ∧ (s.rc = .divzero → s.sDivzero = true) ∧ (s.rc = .invalid → s.sInvalid = true)

/-- CMD_COUNT is at most 256, and during a run at most CP (10_state.md R29, 40_control.md R114). -/
def CountBounded (s : State) : Prop :=
  s.cmdCount.toNat ≤ 256 ∧ (s.state = .busy → s.cmdCount.toNat ≤ s.cp.toNat)

end Sys2Proof.Machine
end

