-- ==== Sys2Proof/Certificates/Slice0/Obligations.lean ====
section
/-! DEFINITION. The statements about CORE, for the provers. Results are said in plain modular arithmetic and in the bytes
the operand RAM holds, through the terms of Safety.lean, wherever the spec gives them so. `Config.curve` is the spec's default
parameters (log entry 1), `Config.hash` is any hash function (log entry 2), and the word that FAULT_CMD records for a command
is that command's encoding (log entry 18). -/

open Sys2Proof Sys2Proof.Machine

/-! ## Encoding -/

/-- Decoding the word of a well-formed command gives the command back (30_encoding.md R80 to R84), for all 44 commands
and every operand that fits. -/
def Obligations.EncodeThenDecodeGivesTheCommand : Prop :=
  ∀ i : Instr, i.wellFormed = true → decode (encode i) = .ok i

/-- A legal word is the encoding of the command it decodes to, and that command is well formed: no bit of the word is
dropped (30_encoding.md R80 to R84). -/
def Obligations.LegalWordsAreEncodings : Prop :=
  ∀ (w : Word) (i : Instr), decode w = .ok i → encode i = w ∧ i.wellFormed = true

/-- The three decode checks of 30_encoding.md R83, in order, with the opcodes of R84 and R86 and the ranges of
60_exceptions.md R291 written out as numbers. -/
def Obligations.DecodeChecksInOrder : Prop :=
  ∀ w : Word,
    let op := (opField w).toNat
    let rd := (rdField w).toNat
    let rs1 := (rs1Field w).toNat
    let rs2 := (rs2Field w).toNat
    (decode w = .error .illegalOpcode ↔
      (0x03 ≤ op ∧ op ≤ 0x0F) ∨ (0x14 ≤ op ∧ op ≤ 0x1F) ∨ (0x29 ≤ op ∧ op ≤ 0x2F) ∨ (0x34 ≤ op ∧ op ≤ 0x37) ∨
      (0x3E ≤ op ∧ op ≤ 0x3F) ∨ (0x46 ≤ op ∧ op ≤ 0x4F) ∨ (0x52 ≤ op ∧ op ≤ 0x5F) ∨ (0x62 ≤ op ∧ op ≤ 0x6F) ∨
      (0x72 ≤ op ∧ op ≤ 0x7F) ∨ (0x85 ≤ op ∧ op ≤ 0x8F) ∨ 0x91 ≤ op) ∧
    (decode w = .error .reservedField ↔
      (op ∈ [0x00, 0x01] ∧ (rd ≠ 0 ∨ rs1 ≠ 0 ∨ rs2 ≠ 0)) ∨
      (op ∈ [0x44, 0x45] ∧ (rs1 ≠ 0 ∨ rs2 ≠ 0)) ∨
      (op ∈ [0x02, 0x11, 0x13, 0x20, 0x23, 0x24, 0x27, 0x28, 0x30, 0x31, 0x32, 0x33, 0x38, 0x39, 0x3D, 0x41, 0x43, 0x50,
        0x60, 0x61, 0x70, 0x71, 0x82, 0x83] ∧ rs2 ≠ 0)) ∧
    (decode w = .error .slotRange ↔
      decode w ≠ .error .reservedField ∧
      ((op ∈ [0x40, 0x41, 0x44, 0x45, 0x50, 0x51, 0x70] ∧ 252 < rd) ∨
       (op ∈ [0x40, 0x41, 0x42, 0x43, 0x50, 0x51, 0x61] ∧ 252 < rs1) ∨
       (op ∈ [0x40, 0x42] ∧ 252 < rs2) ∨
       (op = 0x84 ∧ rd = 255) ∨
       (op ∈ [0x39, 0x80, 0x81, 0x84, 0x90] ∧ rs1 = 255) ∨
       (op = 0x90 ∧ rs2 = 255)))

/-- Words the spec writes out decode to the commands it says (30_encoding.md R88; 95_test_vectors.md, sections 8 and
9). -/
def Obligations.SpecWordsDecode : Prop :=
  decode 0x10020001 = .ok (.fpMul 2 0 1) ∧ decode 0x40080004 = .ok (.ptAdd 8 0 4) ∧
    decode 0x810A0837 = .ok (.seedTry 10 8 55) ∧ decode 0x00000000 = .ok .halt ∧
    decode 0x02050100 = .ok (.mov 5 1) ∧ decode 0x12FF0203 = .ok (.fp2Mul 255 2 3) ∧
    decode 0x30050300 = .ok (.fpInv 5 3) ∧ decode 0x21090406 = .ok (.fpAdd 9 4 6) ∧
    decode 0x50040000 = .ok (.ptDbl 4 0) ∧ decode 0x610D0400 = .ok (.ptEnc 13 4) ∧
    decode 0x70100D00 = .ok (.ptDec 16 13) ∧ decode 0x90060104 = .ok (.verify 6 1 4)

/-! ## The step -/

/-- A step of a BUSY machine whose command word at CP decodes runs that command: at once when no event from outside is
pending, and during a `wait` with that event taken (40_control.md R113; the queue of events is the model's own, log
entry 6). -/
def Obligations.StepRunsTheDecodedCommand : Prop :=
  ∀ (s : State) (w : Word) (i : Instr), s.state = .busy → commandAt s w → decode w = .ok i →
    (s.inputs = [] → step s = exec i s) ∧
    (∀ rest, s.inputs = .wait :: rest → step s = exec i { s with inputs := rest })

/-- A BUSY step whose word fails a decode check takes the fault of that check, and nothing else changes: at once when no event
from outside is pending, and during a `wait` with that event taken (60_exceptions.md R290, R292; the queue of events is the
model's own, log entry 6). -/
def Obligations.DecodeFailureEntersItsFault : Prop :=
  ∀ (s : State) (w : Word) (e : DecodeError), s.state = .busy → commandAt s w → decode w = .error e →
    let cause := match e with | .illegalOpcode => 0x01 | .reservedField => 0x02 | .slotRange => 0x03
    (s.inputs = [] → ∃ t, step s = .next t ∧ FaultEntered cause w s t) ∧
    (∀ rest, s.inputs = .wait :: rest →
      ∃ t, step s = .next t ∧ FaultEntered cause w { s with inputs := rest } t)

/-- Out of BUSY the engine has no step (10_state.md R22): with nothing pending from outside the model refuses one (log entry
8), and a `wait` leaves the machine as it was (log entry 6). A fetch of a word of which some byte was never written stops
the model in both cases (10_state.md R34, log entry 4). -/
def Obligations.NoStepWithoutBusyOrWrittenCommand : Prop :=
  (∀ s : State, s.state ≠ .busy →
    (s.inputs = [] → step s = .refused .noStep) ∧
    (∀ rest, s.inputs = .wait :: rest → step s = .next { s with inputs := rest })) ∧
  (∀ s : State, s.state = .busy → (∃ k, k < 4 ∧ s.cmdRam.read (4 * s.cp.toNat + k) = none) →
    (s.inputs = [] → step s = .fault .unwrittenCommand) ∧
    (∀ rest, s.inputs = .wait :: rest → step s = .fault .unwrittenCommand))

/-- Every run ends: from a BUSY state with nothing pending from outside, within 256 − CP steps the machine is HALTED or
FAULTED, or the model stops on an operand byte or a command word that nobody has written (40_control.md R114; 10_state.md
R34, log entry 4; the queue of events is the model's own, log entry 6). -/
def Obligations.EveryRunEnds : Prop :=
  ∀ s : State, s.state = .busy → s.inputs = [] →
    ∃ k, k ≤ 256 - s.cp.toNat ∧
      ((∃ t, core.run k s = .next t ∧ (t.state = .halted ∨ t.state = .faulted)) ∨
       (∃ f : Fault, (f = .unwrittenOperand ∨ f = .unwrittenCommand) ∧ core.run k s = .fault f))

/-! ## Invariants -/

/-- Every step keeps both RAMs in their canonical form, with no address that does not exist (20_memory.md R51; the form is
the model's choice, log entry 4). -/
def Obligations.StepKeepsMemoryCanonical : Prop :=
  ∀ s t : State, MemoryCanonical s → step s = .next t → MemoryCanonical t

/-- Every step keeps the STATUS fields consistent: DONE_PEND and FAULT_PEND follow STATE and are never 1 together
(60_exceptions.md R293), the fault registers are 0 with no fault pending, and a code other than OK has its sticky bit. -/
def Obligations.StepKeepsStatusConsistent : Prop :=
  ∀ s t : State, StatusConsistent s → step s = .next t → StatusConsistent t

/-- Every step keeps CMD_COUNT at most 256, and at most CP during a run, so that it never wraps within a run
(10_state.md R29). -/
def Obligations.StepKeepsCountBounded : Prop :=
  ∀ s t : State, CountBounded s → step s = .next t → CountBounded t

/-- The three invariants hold right after reset (10_state.md R37; the form of the RAMs is the model's, log entry 4). -/
def Obligations.ResetMeetsTheInvariants : Prop :=
  MemoryCanonical State.reset ∧ StatusConsistent State.reset ∧ CountBounded State.reset

/-! ## What every command leaves unchanged -/

/-- No command changes the command RAM, the interrupt enables, WERR or the model's own fields, and a sticky bit that was
set stays set; HALT alone raises DONE_PEND (20_memory.md R57, R65; 10_state.md R25; the queue, the reply and the count of free
words are the model's own, log entries 5 and 6). All 44 commands. -/
def Obligations.CommandsKeepTheHostSide : Prop :=
  ∀ (i : Instr) (s t : State), exec i s = .next t →
    t.cmdRam = s.cmdRam ∧ t.ieDone = s.ieDone ∧ t.ieFault = s.ieFault ∧ t.werr = s.werr ∧ t.inputs = s.inputs ∧
    t.reply = s.reply ∧ t.freeCount = s.freeCount ∧
    (i ≠ .halt → t.donePend = s.donePend) ∧
    (s.sAbsent = true → t.sAbsent = true) ∧ (s.sDivzero = true → t.sDivzero = true) ∧
    (s.sInvalid = true → t.sInvalid = true)

/-- Every byte of the operand RAM outside the slots of the command's RD reads as before, whatever the command and however
its operands overlap (30_encoding.md R84, R99). All 44 commands; HALT and NOP have no destination. -/
def Obligations.CommandsWriteOnlyTheirDestination : Prop :=
  ∀ (i : Instr) (s t : State), exec i s = .next t →
    ∀ a, ¬ inDestination i a → t.opRam.read a = s.opRam.read a

/-- A command other than HALT ends in fault entry with INVALID_SEED, which only SEED_STRICT can raise (60_exceptions.md R290,
R292), or completes with one of the result codes 60_exceptions.md R282 lists for it and the effects of 40_control.md R113; a
code other than OK goes with nothing written (R281). HALT sets no result code. FAULT_CMD is the command's encoding (log entry
18), and the fields that are the model's own stay (log entries 5 and 6). All 44 commands. -/
def Obligations.CommandsCompleteWithTheirCodes : Prop :=
  ∀ (i : Instr) (s t : State), exec i s = .next t →
    (i = .halt → t.rc = s.rc) ∧
    (i ≠ .halt →
      (FaultEntered 0x04 (encode i) s t ∧ ∃ rd rs1 l, i = .seedStrict rd rs1 l) ∨
      (∃ code, code ∈ possibleRc i ∧ CompletedAs (encode i) code s t ∧ (code ≠ .ok → t.opRam = s.opRam)))

/-- A well-formed command with a source byte that nobody has written since reset stops the model, and one whose source bytes
are all written answers a next state (10_state.md R34, 93_implementation_defined.md I1, log entry 4; the bytes a command
reads are those of its operand types, 30_encoding.md R90 to R97, and a seed command reads none when L is not 55, log entry
11). All 44 commands. -/
def Obligations.UnwrittenSourceStopsTheModel : Prop :=
  ∀ (i : Instr) (s : State), i.wellFormed = true →
    ((∃ p, p ∈ sources i ∧ ∃ k, k < p.2 ∧ s.opRam.read (slotAddr p.1.toNat + k) = none) →
      exec i s = .fault .unwrittenOperand) ∧
    ((∀ p, p ∈ sources i → ∀ k, k < p.2 → s.opRam.read (slotAddr p.1.toNat + k) ≠ none) → ∃ t, exec i s = .next t)

/-! ## Control -/

/-- HALT: STATE is HALTED and DONE_PEND is 1, and everything else is as it was, CP and CMD_COUNT among it, at index 255
too (40_control.md R110). -/
def Obligations.HaltStopsTheRun : Prop :=
  ∀ s : State, ∃ t, exec .halt s = .next t ∧ t.state = .halted ∧ t.donePend = true ∧
    t = { s with state := t.state, donePend := t.donePend }

/-- NOP completes with OK and leaves both RAMs unchanged; MOV copies the 32 bytes of a slot unchanged
(40_control.md R111, R112). -/
def Obligations.NopAndMovComplete : Prop :=
  (∀ s : State, CompletesWithout .nop s .ok) ∧
  (∀ (rd rs1 : Slot) (s : State) (ba : List Byte), ba.length = 32 → holdsAt s rs1.toNat ba →
    Writes (.mov rd rs1) s rd ba)

/-! ## Fp and Fp2 -/

/-- `fp_reduce(v) = v mod p` for every v (42_barrett_reduce.md R140, which marks it as its own inference from the pseudocode;
41_montgomery_mult.md R120 says the same). -/
def Obligations.FoldReductionIsModP : Prop :=
  ∀ v : Nat, fpReduce v = v % primeP

/-- `fp_pow(a, e)` is a^e mod p, and 1 for e = 0 (43_modexp_engine.md R160). -/
def Obligations.SquareAndMultiplyIsThePower : Prop :=
  ∀ a e : Nat, a < primeP → fpPow a e = a ^ e % primeP

/-- FP_MUL and FP_SQR write the product modulo p in 16 bytes and 16 zero bytes, and FP_RED the 256-bit source modulo p
(41_montgomery_mult.md R121, R122; 42_barrett_reduce.md R141; 30_encoding.md R91, R92). Any overlap of the slots. -/
def Obligations.FpProductsAndReduction : Prop :=
  ∀ (rd rs1 rs2 : Slot) (s : State) (ba bb bc : List Byte), ba.length = 16 → bb.length = 16 → bc.length = 32 →
    (holdsAt s rs1.toNat ba → holdsAt s rs2.toNat bb →
      Writes (.fpMul rd rs1 rs2) s rd (toLE 16 (leNat ba * leNat bb % primeP) ++ zeroBytes 16)) ∧
    (holdsAt s rs1.toNat ba →
      Writes (.fpSqr rd rs1) s rd (toLE 16 (leNat ba * leNat ba % primeP) ++ zeroBytes 16)) ∧
    (holdsAt s rs1.toNat bc →
      Writes (.fpRed rd rs1) s rd (toLE 16 (leNat bc % primeP) ++ zeroBytes 16))

/-- FP_ADD, FP_SUB, FP_NEG write the sum, the difference and the negation modulo p; FP_HALF writes the one h below p with
2·h equal to the operand modulo p (42_barrett_reduce.md R142 to R145). -/
def Obligations.FpAdditiveOperations : Prop :=
  ∀ (rd rs1 rs2 : Slot) (s : State) (ba bb : List Byte), ba.length = 16 → bb.length = 16 → holdsAt s rs1.toNat ba →
    (holdsAt s rs2.toNat bb →
      Writes (.fpAdd rd rs1 rs2) s rd (toLE 16 ((leNat ba + leNat bb) % primeP) ++ zeroBytes 16) ∧
      Writes (.fpSub rd rs1 rs2) s rd
        (toLE 16 (((leNat ba : Int) - leNat bb) % (primeP : Int)).toNat ++ zeroBytes 16)) ∧
    Writes (.fpNeg rd rs1) s rd (toLE 16 ((-(leNat ba : Int)) % (primeP : Int)).toNat ++ zeroBytes 16) ∧
    (∃ h, h < primeP ∧ 2 * h % primeP = leNat ba % primeP ∧
      Writes (.fpHalf rd rs1) s rd (toLE 16 h ++ zeroBytes 16))

/-- FP2_MUL and FP2_SQR write (a1·a2 − b1·b2, a1·b2 + a2·b1) modulo p (41_montgomery_mult.md R123 to R125). -/
def Obligations.Fp2Products : Prop :=
  ∀ (rd rs1 rs2 : Slot) (s : State) (ba bb : List Byte), ba.length = 32 → bb.length = 32 → holdsAt s rs1.toNat ba →
    let a1 : Int := leNat (ba.take 16)
    let b1 : Int := leNat (ba.drop 16)
    let a2 : Int := leNat (bb.take 16)
    let b2 : Int := leNat (bb.drop 16)
    (holdsAt s rs2.toNat bb →
      Writes (.fp2Mul rd rs1 rs2) s rd
        (toLE 16 ((a1 * a2 - b1 * b2) % (primeP : Int)).toNat ++ toLE 16 ((a1 * b2 + a2 * b1) % (primeP : Int)).toNat)) ∧
    Writes (.fp2Sqr rd rs1) s rd
      (toLE 16 ((a1 * a1 - b1 * b1) % (primeP : Int)).toNat ++ toLE 16 ((2 * (a1 * b1)) % (primeP : Int)).toNat)

/-- FP2_ADD, FP2_SUB, FP2_NEG and FP2_HALF act on each component modulo p (42_barrett_reduce.md R146 to R150). -/
def Obligations.Fp2AdditiveOperations : Prop :=
  ∀ (rd rs1 rs2 : Slot) (s : State) (ba bb : List Byte), ba.length = 32 → bb.length = 32 → holdsAt s rs1.toNat ba →
    let a1 : Int := leNat (ba.take 16)
    let b1 : Int := leNat (ba.drop 16)
    let a2 : Int := leNat (bb.take 16)
    let b2 : Int := leNat (bb.drop 16)
    (holdsAt s rs2.toNat bb →
      Writes (.fp2Add rd rs1 rs2) s rd
        (toLE 16 ((a1 + a2) % (primeP : Int)).toNat ++ toLE 16 ((b1 + b2) % (primeP : Int)).toNat) ∧
      Writes (.fp2Sub rd rs1 rs2) s rd
        (toLE 16 ((a1 - a2) % (primeP : Int)).toNat ++ toLE 16 ((b1 - b2) % (primeP : Int)).toNat)) ∧
    Writes (.fp2Neg rd rs1) s rd
      (toLE 16 ((-a1) % (primeP : Int)).toNat ++ toLE 16 ((-b1) % (primeP : Int)).toNat) ∧
    (∃ h k, h < primeP ∧ k < primeP ∧ 2 * h % primeP = leNat (ba.take 16) % primeP ∧
      2 * k % primeP = leNat (ba.drop 16) % primeP ∧ Writes (.fp2Half rd rs1) s rd (toLE 16 h ++ toLE 16 k))

/-- FP_INV writes the inverse modulo p of an operand that is not 0 modulo p, and completes with DIVZERO and nothing written
for one that is, the bytes of p among them (43_modexp_engine.md R161). -/
def Obligations.FpInverse : Prop :=
  ∀ (rd rs1 : Slot) (s : State) (ba : List Byte), ba.length = 16 → holdsAt s rs1.toNat ba →
    (leNat ba % primeP = 0 → CompletesWithout (.fpInv rd rs1) s .divzero) ∧
    (leNat ba % primeP ≠ 0 →
      ∃ r, r < primeP ∧ leNat ba * r % primeP = 1 ∧ Writes (.fpInv rd rs1) s rd (toLE 16 r ++ zeroBytes 16))

/-- FP_SQRT writes the root that is itself a square where the operand is a square modulo p, and completes with ABSENT and
nothing written where it is none (43_modexp_engine.md R162). -/
def Obligations.FpSquareRoot : Prop :=
  ∀ (rd rs1 : Slot) (s : State) (ba : List Byte), ba.length = 16 → holdsAt s rs1.toNat ba →
    ((∃ x, x * x % primeP = leNat ba % primeP) →
      ∃ r, r < primeP ∧ r * r % primeP = leNat ba % primeP ∧ (∃ z, z * z % primeP = r) ∧
        Writes (.fpSqrt rd rs1) s rd (toLE 16 r ++ zeroBytes 16)) ∧
    ((¬ ∃ x, x * x % primeP = leNat ba % primeP) → CompletesWithout (.fpSqrt rd rs1) s .absent)

/-- FP2_INV writes the inverse in Fp2 of an operand that is not zero, and completes with DIVZERO and nothing written for
zero, and only for zero (43_modexp_engine.md R163, R164). -/
def Obligations.Fp2Inverse : Prop :=
  ∀ (rd rs1 : Slot) (s : State) (ba : List Byte), ba.length = 32 → holdsAt s rs1.toNat ba →
    let a := leNat (ba.take 16) % primeP
    let b := leNat (ba.drop 16) % primeP
    (a = 0 ∧ b = 0 → CompletesWithout (.fp2Inv rd rs1) s .divzero) ∧
    (¬ (a = 0 ∧ b = 0) →
      ∃ c d : Nat, c < primeP ∧ d < primeP ∧ ((a : Int) * c - b * d) % (primeP : Int) = 1 ∧ (a * d + b * c) % primeP = 0 ∧
        Writes (.fp2Inv rd rs1) s rd (toLE 16 c ++ toLE 16 d))

/-- FP2_SQRT writes a square root c + d·i in Fp2 wherever the operand has one, and completes with ABSENT and nothing written
where it has none. Which of the two roots is what the order of candidates gives: c is a square modulo p, and d is one when c
is 0 (43_modexp_engine.md R165 to R167). -/
def Obligations.Fp2SquareRoot : Prop :=
  ∀ (rd rs1 : Slot) (s : State) (ba : List Byte), ba.length = 32 → holdsAt s rs1.toNat ba →
    let isRoot : Nat → Nat → Prop := fun c d =>
      ((c : Int) * c - d * d) % (primeP : Int) = leNat (ba.take 16) % primeP ∧
        2 * c * d % primeP = leNat (ba.drop 16) % primeP
    ((∃ c d, isRoot c d) →
      ∃ c d, c < primeP ∧ d < primeP ∧ isRoot c d ∧ (∃ z, z * z % primeP = c) ∧ (c = 0 → ∃ z, z * z % primeP = d) ∧
        Writes (.fp2Sqrt rd rs1) s rd (toLE 16 c ++ toLE 16 d)) ∧
    ((¬ ∃ c d, isRoot c d) → CompletesWithout (.fp2Sqrt rd rs1) s .absent)

/-! ## Scalars -/

/-- SC_RED32, SC_RED64, SC_ADD, SC_SUB and SC_MUL write their values modulo N in 32 bytes; SC_RED64 reduces all 512 bits
(43_modexp_engine.md R168 to R174). -/
def Obligations.ScalarReductionAndArithmetic : Prop :=
  ∀ (rd rs1 rs2 : Slot) (s : State) (ba bb bw : List Byte), ba.length = 32 → bb.length = 32 → bw.length = 64 →
    let N := Config.curve.n
    (holdsAt s rs1.toNat ba → Writes (.scRed32 rd rs1) s rd (toLE 32 (leNat ba % N))) ∧
    (fits .wide rs1 = true → holdsAt s rs1.toNat bw → Writes (.scRed64 rd rs1) s rd (toLE 32 (leNat bw % N))) ∧
    (holdsAt s rs1.toNat ba → holdsAt s rs2.toNat bb →
      Writes (.scAdd rd rs1 rs2) s rd (toLE 32 ((leNat ba + leNat bb) % N)) ∧
      Writes (.scSub rd rs1 rs2) s rd (toLE 32 (((leNat ba : Int) - leNat bb) % (N : Int)).toNat) ∧
      Writes (.scMul rd rs1 rs2) s rd (toLE 32 (leNat ba * leNat bb % N)))

/-- SC_INV writes a^(N − 2) mod N for an operand that is not 0 modulo N, and completes with DIVZERO and nothing written for
one that is (43_modexp_engine.md R168, R175). -/
def Obligations.ScalarInverse : Prop :=
  ∀ (rd rs1 : Slot) (s : State) (ba : List Byte), ba.length = 32 → holdsAt s rs1.toNat ba →
    let N := Config.curve.n
    (leNat ba % N = 0 → CompletesWithout (.scInv rd rs1) s .divzero) ∧
    (leNat ba % N ≠ 0 → Writes (.scInv rd rs1) s rd (toLE 32 (leNat ba ^ (N - 2) % N)))

/-! ## Points -/

/-- PT_ADD writes the add-2008-hwcd tuple of its sources, with the formula written out over Fp2
(44_ecc_point_add.md R191). -/
def Obligations.PointAddition : Prop :=
  ∀ (rd rs1 rs2 : Slot) (s : State) (ba bb : List Byte), (Instr.ptAdd rd rs1 rs2).wellFormed = true →
    ba.length = 128 → bb.length = 128 → holdsAt s rs1.toNat ba → holdsAt s rs2.toNat bb →
    let P := ptOfBytes ba
    let Q := ptOfBytes bb
    let A := fp2Mul P.X Q.X
    let B := fp2Mul P.Y Q.Y
    let C := fp2Mul (fp2Mul P.T Config.curve.d) Q.T
    let D := fp2Mul P.Z Q.Z
    let E := fp2Sub (fp2Sub (fp2Mul (fp2Add P.X P.Y) (fp2Add Q.X Q.Y)) A) B
    let F := fp2Sub D C
    let G := fp2Add D C
    let H := fp2Add B A
    Writes (.ptAdd rd rs1 rs2) s rd
      (fp2ToBytes (fp2Mul E F) ++ fp2ToBytes (fp2Mul G H) ++ fp2ToBytes (fp2Mul F G) ++ fp2ToBytes (fp2Mul E H))

/-- PT_DBL writes the dbl-2008-hwcd tuple of its source and PT_NEG the tuple (−X, Y, Z, −T), with the formulas written
out over Fp2 (45_ecc_point_double.md R210, R211; 44_ecc_point_add.md R192). -/
def Obligations.PointDoublingAndNegation : Prop :=
  ∀ (rd rs1 : Slot) (s : State) (ba : List Byte), (Instr.ptDbl rd rs1).wellFormed = true → ba.length = 128 →
    holdsAt s rs1.toNat ba →
    let P := ptOfBytes ba
    let A := fp2Sqr P.X
    let B := fp2Sqr P.Y
    let C := fp2Add (fp2Sqr P.Z) (fp2Sqr P.Z)
    let D := fp2Neg A
    let E := fp2Sub (fp2Sub (fp2Sqr (fp2Add P.X P.Y)) A) B
    let G := fp2Add D B
    let F := fp2Sub G C
    let H := fp2Sub D B
    Writes (.ptDbl rd rs1) s rd
      (fp2ToBytes (fp2Mul E F) ++ fp2ToBytes (fp2Mul G H) ++ fp2ToBytes (fp2Mul F G) ++ fp2ToBytes (fp2Mul E H)) ∧
    Writes (.ptNeg rd rs1) s rd
      (fp2ToBytes (fp2Neg P.X) ++ fp2ToBytes P.Y ++ fp2ToBytes P.Z ++ fp2ToBytes (fp2Neg P.T))

/-- PT_LDID writes the identity tuple (0, 1, 1, 0) and PT_LDB the base point with Z = 1 and T = X·Y
(44_ecc_point_add.md R197, R198). -/
def Obligations.ConstantPoints : Prop :=
  ∀ (rd : Slot) (s : State), fits .pt rd = true →
    Writes (.ptLdid rd) s rd (zeroBytes 32 ++ toLE 32 1 ++ toLE 32 1 ++ zeroBytes 32) ∧
    Writes (.ptLdb rd) s rd
      (fp2ToBytes Config.curve.baseX ++ fp2ToBytes Config.curve.baseY ++ toLE 32 1 ++
        fp2ToBytes (fp2Mul Config.curve.baseX Config.curve.baseY))

/-- PT_MUL writes `pt_mul(P, k)` with k the whole 256-bit slot, not reduced (45_ecc_point_double.md R213), and `pt_mul` is
the low-to-high double-and-add from the identity over any number of bits that covers k (R212). -/
def Obligations.ScalarMultiplication : Prop :=
  (∀ (rd rs1 rs2 : Slot) (s : State) (ba bk : List Byte), (Instr.ptMul rd rs1 rs2).wellFormed = true →
    ba.length = 128 → bk.length = 32 → holdsAt s rs1.toNat ba → holdsAt s rs2.toNat bk →
    Writes (.ptMul rd rs1 rs2) s rd (ptBytes (ptMul Config.curve (ptOfBytes ba) (leNat bk)))) ∧
  (∀ (c : Curve) (P : Point) (k n : Nat), k < 2 ^ n →
    ptMul c P k =
      ((List.range n).foldl (fun (RA : Point × Point) j =>
        (if k.testBit j then ptAdd c RA.1 RA.2 else RA.1, ptDbl RA.2)) (ptIdentity, P)).1) ∧
  (∀ (c : Curve) (P : Point) (k : Nat), ptMul c P (-(k : Int)) = ptMul c (ptNeg P) k)

/-- PT_EQ writes whether the two cross-products agree, with OK either way (44_ecc_point_add.md R193, R194;
30_encoding.md R98). -/
def Obligations.PointEquality : Prop :=
  ∀ (rd rs1 rs2 : Slot) (s : State) (ba bb : List Byte), (Instr.ptEq rd rs1 rs2).wellFormed = true →
    ba.length = 128 → bb.length = 128 → holdsAt s rs1.toNat ba → holdsAt s rs2.toNat bb →
    let P := ptOfBytes ba
    let Q := ptOfBytes bb
    Writes (.ptEq rd rs1 rs2) s rd
      ((if fp2Mul P.X Q.Z = fp2Mul Q.X P.Z ∧ fp2Mul P.Y Q.Z = fp2Mul Q.Y P.Z then 0x01 else 0x00) :: zeroBytes 31)

/-- PT_ONCURVE writes true exactly when Z has an inverse and the affine point satisfies the curve equation, with OK either
way (44_ecc_point_add.md R195, R196). -/
def Obligations.OnCurveCheck : Prop :=
  ∀ (rd rs1 : Slot) (s : State) (ba : List Byte), (Instr.ptOncurve rd rs1).wellFormed = true → ba.length = 128 →
    holdsAt s rs1.toNat ba →
    ∃ b : Byte, (b = 0x00 ∨ b = 0x01) ∧ Writes (.ptOncurve rd rs1) s rd (b :: zeroBytes 31) ∧
      (b = 0x01 ↔ ∃ zi, Fp2Canonical zi ∧ fp2Mul (ptOfBytes ba).Z zi = fp2One ∧
        let x2 := fp2Sqr (fp2Mul (ptOfBytes ba).X zi)
        let y2 := fp2Sqr (fp2Mul (ptOfBytes ba).Y zi)
        fp2Add (fp2Neg x2) y2 = fp2Add fp2One (fp2Mul (fp2Mul Config.curve.d x2) y2))

/-- `pt_add` is symmetric tuple for tuple, and adding the identity to a canonical tuple with Z = 1 and T = X·Y gives it
back exactly (45_ecc_point_double.md R212; 44_ecc_point_add.md R191). -/
def Obligations.PointAdditionSymmetricWithIdentity : Prop :=
  (∀ (c : Curve) (P Q : Point), ptAdd c P Q = ptAdd c Q P) ∧
  (∀ (c : Curve) (P : Point), PointCanonical P → P.Z = fp2One → P.T = fp2Mul P.X P.Y → ptAdd c P ptIdentity = P)

/-- Every tuple that `pt_add` or `pt_dbl` makes keeps the invariant T = X·Y/Z, said without the division: T·Z = X·Y
(44_ecc_point_add.md R190). -/
def Obligations.GroupLawKeepsTheProductInvariant : Prop :=
  ∀ (c : Curve) (P Q : Point),
    fp2Mul (ptAdd c P Q).T (ptAdd c P Q).Z = fp2Mul (ptAdd c P Q).X (ptAdd c P Q).Y ∧
    fp2Mul (ptDbl P).T (ptDbl P).Z = fp2Mul (ptDbl P).X (ptDbl P).Y

/-- On a tuple that satisfies the curve equation in extended coordinates, Y² − X² = Z² + d·T², doubling and adding the
tuple to itself are equal as points (44_ecc_point_add.md R191, corner cases). -/
def Obligations.DoublingAgreesWithAddition : Prop :=
  ∀ (c : Curve) (P : Point), PointCanonical P →
    fp2Sub (fp2Sqr P.Y) (fp2Sqr P.X) = fp2Add (fp2Sqr P.Z) (fp2Mul c.d (fp2Sqr P.T)) →
    ptEq (ptDbl P) (ptAdd c P P) = true

/-! ## The codec -/

/-- FP2_SIGN writes bit 126 of the real part, or of the imaginary part when the real part is 0 modulo p; PT_CHKENC writes
whether bit 7 of byte 15 is 0 (46_ecc_point_compress.md R230, R231; 47_ecc_point_decompress.md R242, R243). -/
def Obligations.SignAndEncodingValidator : Prop :=
  ∀ (rd rs1 : Slot) (s : State) (ba : List Byte), ba.length = 32 → holdsAt s rs1.toNat ba →
    let a := leNat (ba.take 16) % primeP
    let b := leNat (ba.drop 16) % primeP
    Writes (.fp2Sign rd rs1) s rd
      ((if (if a ≠ 0 then 2 ^ 126 ≤ a else 2 ^ 126 ≤ b) then 0x01 else 0x00) :: zeroBytes 31) ∧
    Writes (.ptChkenc rd rs1) s rd
      ((if (ba.getD 15 0).toNat < 128 then 0x01 else 0x00) :: zeroBytes 31)

/-- The sign of the negation of a nonzero canonical element is the other one (46_ecc_point_compress.md R231). -/
def Obligations.NegationFlipsTheSign : Prop :=
  ∀ x : Fp2, Fp2Canonical x → x ≠ fp2Zero → fp2Sign (fp2Neg x) = !fp2Sign x

/-- PT_ENC completes with DIVZERO and nothing written when Z is zero, and else writes the affine y in 32 bytes with the sign
of the affine x in bit 7 of byte 31 (46_ecc_point_compress.md R232, R233). -/
def Obligations.PointEncoding : Prop :=
  ∀ (rd rs1 : Slot) (s : State) (ba : List Byte), (Instr.ptEnc rd rs1).wellFormed = true → ba.length = 128 →
    holdsAt s rs1.toNat ba →
    let P := ptOfBytes ba
    (P.Z = fp2Zero → CompletesWithout (.ptEnc rd rs1) s .divzero) ∧
    (P.Z ≠ fp2Zero → ∃ zi, Fp2Canonical zi ∧ fp2Mul P.Z zi = fp2One ∧
      Writes (.ptEnc rd rs1) s rd
        (toLE 16 (fp2Mul P.Y zi).re ++
          toLE 16 ((fp2Mul P.Y zi).im + 2 ^ 127 * (if fp2Sign (fp2Mul P.X zi) = true then 1 else 0))))

/-- Every encoding is 32 bytes long and passes the validator (46_ecc_point_compress.md R234). -/
def Obligations.EncodingsPassTheValidator : Prop :=
  ∀ (P : Point) (E : List Byte), ptEncode P = some E → E.length = 32 ∧ encValid E = true

/-- PT_DEC writes the decoded tuple where the decode succeeds, and completes with ABSENT and nothing written where it fails
(47_ecc_point_decompress.md R241). -/
def Obligations.PointDecoding : Prop :=
  ∀ (rd rs1 : Slot) (s : State) (E : List Byte), (Instr.ptDec rd rs1).wellFormed = true → E.length = 32 →
    holdsAt s rs1.toNat E →
    (ptDecode Config.curve E = none → CompletesWithout (.ptDec rd rs1) s .absent) ∧
    (∀ P, ptDecode Config.curve E = some P → Writes (.ptDec rd rs1) s rd (ptBytes P))

/-- When a decode succeeds and what it gives, for E of 32 bytes and y read from E with the sign bit cleared. If d·y² + 1 has an
inverse and (y² − 1) times it has a root, the decode succeeds. If it succeeds, there are those, the result has that y, Z = 1,
T = x·y and x a root of that square, it is on the curve, and x has the stored sign unless x is zero
(47_ecc_point_decompress.md R240). -/
def Obligations.DecodedPointIsOnTheCurve : Prop :=
  ∀ (c : Curve) (E : List Byte), E.length = 32 →
    let y : Fp2 := ⟨leNat (E.take 16) % primeP, leNat (E.drop 16) % 2 ^ 127 % primeP⟩
    let u := fp2Sub (fp2Sqr y) fp2One
    let v := fp2Add (fp2Mul c.d (fp2Sqr y)) fp2One
    (∀ vi x, Fp2Canonical vi → Fp2Canonical x → fp2Mul v vi = fp2One → fp2Sqr x = fp2Mul u vi →
      ∃ P, ptDecode c E = some P) ∧
    (∀ P, ptDecode c E = some P →
      P.Y = y ∧ P.Z = fp2One ∧ P.T = fp2Mul P.X P.Y ∧ Fp2Canonical P.X ∧
      (∃ vi, Fp2Canonical vi ∧ fp2Mul v vi = fp2One ∧ fp2Sqr P.X = fp2Mul u vi) ∧
      fp2Add (fp2Neg (fp2Sqr P.X)) (fp2Sqr P.Y) =
        fp2Add fp2One (fp2Mul (fp2Mul c.d (fp2Sqr P.X)) (fp2Sqr P.Y)) ∧
      (P.X ≠ fp2Zero → (fp2Sign P.X = true ↔ 128 ≤ (E.getD 31 0).toNat)))

/-! ## Seeds, keys and signatures -/

/-- SEED_STRICT and SEED_TRY write the hash of the 55 letters less 'a' for a valid seed. For an invalid one, SEED_STRICT takes
the fault INVALID_SEED with nothing written and SEED_TRY completes with INVALID: with L other than 55 whatever the operand
holds, written or not (L is tested before a byte is read, log entry 11), and else when a byte is no lowercase letter
(48_schnorr_sign.md R250 to R253; FAULT_CMD is the command's encoding, log entry 18). -/
def Obligations.SeedCommands : Prop :=
  ∀ (rd rs1 : Slot) (l : Byte) (s : State), fits .seed rs1 = true →
    let turnedDown : Prop :=
      (∃ t, exec (.seedStrict rd rs1 l) s = .next t ∧ FaultEntered 0x04 (encode (.seedStrict rd rs1 l)) s t) ∧
      CompletesWithout (.seedTry rd rs1 l) s .invalid
    (l.toNat ≠ 55 → turnedDown) ∧
    (∀ S : List Byte, l.toNat = 55 → S.length = 55 → holdsAt s rs1.toNat S →
      ((∀ b, b ∈ S → 0x61 ≤ b.toNat ∧ b.toNat ≤ 0x7A) →
        let subSeed := (Config.hash (S.map fun b => BitVec.ofNat 8 (b.toNat - 0x61)) 32).toList
        Writes (.seedStrict rd rs1 l) s rd subSeed ∧ Writes (.seedTry rd rs1 l) s rd subSeed) ∧
      ((∃ b, b ∈ S ∧ (b.toNat < 0x61 ∨ 0x7A < b.toNat)) → turnedDown))

/-- KEY_PRIV writes the first half of the hash of the subSeed modulo N; KEY_PUB writes the 32-byte encoding of that multiple
of the base point, where there is one (48_schnorr_sign.md R254 to R256; for a tuple with Z = 0, which R254 says never
occurs, the 32 bytes are the model's free value, log entry 12). -/
def Obligations.KeyCommands : Prop :=
  ∀ (rd rs1 : Slot) (s : State) (ss : List Byte), ss.length = 32 → holdsAt s rs1.toNat ss →
    let a := leNat ((Config.hash ss 64).toList.take 32) % Config.curve.n
    Writes (.keyPriv rd rs1) s rd (toLE 32 a) ∧
    (∃ pk, pk.length = 32 ∧ (∀ E, ptEncode (ptMul Config.curve (ptBase Config.curve) a) = some E → pk = E) ∧
      Writes (.keyPub rd rs1) s rd pk)

/-- SIGN writes R ‖ s, with R the encoding of the nonce's multiple of the base point and s = (k − h·a) mod N
(48_schnorr_sign.md R257 to R259; for a tuple with Z = 0 the bytes of R are the model's free value, log entry 12). -/
def Obligations.Signing : Prop :=
  ∀ (rd rs1 rs2 : Slot) (s : State) (ss pk dg : List Byte), (Instr.sign rd rs1 rs2).wellFormed = true →
    ss.length = 32 → pk.length = 32 → dg.length = 32 →
    holdsAt s rs1.toNat (ss ++ pk) → holdsAt s rs2.toNat dg →
    let N := Config.curve.n
    let seedHash := (Config.hash ss 64).toList
    let a := leNat (seedHash.take 32) % N
    let k := leNat ((Config.hash (seedHash.drop 32 ++ dg) 64).toList.take 32) % N
    ∃ R, R.length = 32 ∧ (∀ E, ptEncode (ptMul Config.curve (ptBase Config.curve) k) = some E → R = E) ∧
      let h := leNat ((Config.hash (R ++ pk ++ dg) 64).toList.take 32) % N
      Writes (.sign rd rs1 rs2) s rd (R ++ toLE 32 (((k : Int) - h * a) % (N : Int)).toNat)

/-- VERIFY writes true exactly when both encodings pass the validator, both decode, and s·G + h·P equals R, with s reduced
modulo N and OK either way (49_schnorr_verify.md R270, R271). -/
def Obligations.Verification : Prop :=
  ∀ (rd rs1 rs2 : Slot) (s : State) (pk dg Rb Sb : List Byte), (Instr.verify rd rs1 rs2).wellFormed = true →
    pk.length = 32 → dg.length = 32 → Rb.length = 32 → Sb.length = 32 →
    holdsAt s rs1.toNat (pk ++ dg) → holdsAt s rs2.toNat (Rb ++ Sb) →
    let c := Config.curve
    let h := leNat ((Config.hash (Rb ++ pk ++ dg) 64).toList.take 32) % c.n
    ∃ b : Byte, (b = 0x00 ∨ b = 0x01) ∧ Writes (.verify rd rs1 rs2) s rd (b :: zeroBytes 31) ∧
      (b = 0x01 ↔ (pk.getD 15 0).toNat < 128 ∧ (Rb.getD 15 0).toNat < 128 ∧
        ∃ P R, ptDecode c pk = some P ∧ ptDecode c Rb = some R ∧
          ptEq (ptAdd c (ptMul c (ptBase c) (leNat Sb % c.n : Nat)) (ptMul c P h)) R = true)

/-- For every hash function and curve: bit 7 of byte 15 of the public key or of R set gives false, and replacing s by s + N,
where that still fits in 32 bytes, leaves the result unchanged (49_schnorr_verify.md R273). -/
def Obligations.VerifyTamperingConsequences : Prop :=
  ∀ (H : HashFn) (c : Curve) (pk dg Rb Sb Sb' : List Byte), Rb.length = 32 → Sb.length = 32 → Sb'.length = 32 →
    (128 ≤ (pk.getD 15 0).toNat ∨ 128 ≤ (Rb.getD 15 0).toNat → schnorrVerify H c pk dg (Rb ++ Sb) = false) ∧
    (leNat Sb' = leNat Sb + c.n → schnorrVerify H c pk dg (Rb ++ Sb') = schnorrVerify H c pk dg (Rb ++ Sb))

/-- Only the first 55 bytes of a seed operand matter to SEED_TRY: two states whose operand RAMs agree on those bytes give
the same result bytes, the same code and the same next CP and STATE, or the same stop (48_schnorr_sign.md R250). -/
def Obligations.SeedTailIsNeverRead : Prop :=
  ∀ (rd rs1 : Slot) (l : Byte) (s u : State),
    (∃ m, u = { s with opRam := m } ∧
      ∀ k, k < 55 → m.read (slotAddr rs1.toNat + k) = s.opRam.read (slotAddr rs1.toNat + k)) →
    (∀ t, exec (.seedTry rd rs1 l) s = .next t → ∃ t', exec (.seedTry rd rs1 l) u = .next t' ∧ t'.rc = t.rc ∧
      t'.cp = t.cp ∧ t'.state = t.state ∧
      (t.rc = .ok → ∀ k, k < 32 → t'.opRam.read (slotAddr rd.toNat + k) = t.opRam.read (slotAddr rd.toNat + k))) ∧
    (∀ f, exec (.seedTry rd rs1 l) s = .fault f → exec (.seedTry rd rs1 l) u = .fault f)

/-! ## The host window -/

/-- A host write of CTRL sets the interrupt enables in every STATE; while BUSY, START and CLEAR only set WERR; otherwise
START begins a run from the CP the host left with every outcome cleared, and CLEAR alone returns to IDLE
(10_state.md R23, R27, R28; that the write comes from the queue `inputs`, and that `reply` and `freeCount` stay, is the
model's own, log entries 5 and 6). -/
def Obligations.CtrlWriteActs : Prop :=
  ∀ (s : State) (w : Word) (rest : List HostEvent), s.inputs = .write 0x0000 4 w :: rest →
    ∃ t, step s = .next t ∧ t.inputs = rest ∧ t.ieDone = w.getLsbD 2 ∧ t.ieFault = w.getLsbD 3 ∧ t.cp = s.cp ∧
      t.opRam = s.opRam ∧ t.cmdRam = s.cmdRam ∧ t.reply = s.reply ∧ t.freeCount = s.freeCount ∧
      (if s.state = .busy then
        t = { s with inputs := rest, ieDone := t.ieDone, ieFault := t.ieFault,
                     werr := s.werr || w.getLsbD 0 || w.getLsbD 1 }
      else if w.getLsbD 0 = true then
        t.state = .busy ∧ t.cmdCount = 0 ∧ statusWord t = 1 ∧ t.faultInfo = 0 ∧ t.faultCmd = 0
      else if w.getLsbD 1 = true then
        t.state = .idle ∧ t.cmdCount = s.cmdCount ∧ statusWord t = 0 ∧ t.faultInfo = 0 ∧ t.faultCmd = 0
      else t = { s with inputs := rest, ieDone := t.ieDone, ieFault := t.ieFault })

/-- Host writes that change nothing: while BUSY, a write of CP or of either RAM is ignored and sets WERR
(10_state.md R24, 20_memory.md R58); in every STATE, a write of a read-only register or of a reserved offset is ignored
(10_state.md R25, R26, R29, R30; the queue `inputs` is the model's own, log entry 6). -/
def Obligations.IgnoredHostWrites : Prop :=
  ∀ (s : State) (offset : Nat) (w : Word) (rest : List HostEvent), s.inputs = .write offset 4 w :: rest →
    offset % 4 = 0 → offset < 0x4000 →
    (s.state = .busy →
      offset = 0x0008 ∨ (0x1000 ≤ offset ∧ offset < 0x1400) ∨ 0x2000 ≤ offset →
      step s = .next { s with inputs := rest, werr := true }) ∧
    (offset = 0x0004 ∨ (0x000C ≤ offset ∧ offset < 0x1000) ∨ (0x1400 ≤ offset ∧ offset < 0x2000) →
      step s = .next { s with inputs := rest })

/-- Out of BUSY, a host write of CP sets CP[7:0]; a host write in a RAM stores the four bytes of the word, little-endian, at
the byte its offset names, and every other byte of both RAMs reads as before
(10_state.md R24; 20_memory.md R54, R55, R57; the queue `inputs` is the model's own, log entry 6). -/
def Obligations.HostWritesStore : Prop :=
  ∀ (s : State) (offset : Nat) (w : Word) (rest : List HostEvent), s.inputs = .write offset 4 w :: rest →
    offset % 4 = 0 → s.state ≠ .busy →
    (offset = 0x0008 → ∃ v : BitVec 8, v.toNat = w.toNat % 256 ∧ step s = .next { s with inputs := rest, cp := v }) ∧
    (0x1000 ≤ offset ∧ offset < 0x1400 →
      ∃ m, step s = .next { s with inputs := rest, cmdRam := m } ∧
        ∀ a, m.read a =
          if offset ≤ 0x1000 + a ∧ 0x1000 + a < offset + 4 then
            some (BitVec.ofNat 8 (w.toNat / 256 ^ (0x1000 + a - offset)))
          else s.cmdRam.read a) ∧
    (0x2000 ≤ offset ∧ offset < 0x4000 →
      ∃ m, step s = .next { s with inputs := rest, opRam := m } ∧
        ∀ a, m.read a =
          if offset ≤ 0x2000 + a ∧ 0x2000 + a < offset + 4 then
            some (BitVec.ofNat 8 (w.toNat / 256 ^ (0x2000 + a - offset)))
          else s.opRam.read a)

/-- A host read of any location of the window changes nothing of CORE (20_memory.md R60): only the model's own fields move.
Where the spec gives the word (20_memory.md R52), the reply is that word: the registers, 0 at reserved offsets, and the
stored bytes of a RAM, of the operand RAM only out of BUSY. `inputs`, `reply` and `freeCount` are the model's own (log
entries 5 and 6), and a register reads as it stands at the read (log entry 14). -/
def Obligations.HostReadsReturnTheWindow : Prop :=
  ∀ (s : State) (offset : Nat) (rest : List HostEvent), s.inputs = .read offset 4 :: rest → offset % 4 = 0 →
    offset < 0x4000 →
    ∃ v n, step s = .next { s with inputs := rest, reply := some v, freeCount := n } ∧
      (offset = 0x0000 → v.toNat = 4 * s.ieDone.toNat + 8 * s.ieFault.toNat) ∧
      (offset = 0x0004 → v = statusWord s) ∧
      (offset = 0x0008 → v.toNat = s.cp.toNat) ∧
      (offset = 0x000C → v = s.faultInfo) ∧ (offset = 0x0010 → v = s.faultCmd) ∧ (offset = 0x0014 → v = s.cmdCount) ∧
      ((0x0018 ≤ offset ∧ offset < 0x1000) ∨ (0x1400 ≤ offset ∧ offset < 0x2000) → v = 0) ∧
      (0x1000 ≤ offset ∧ offset < 0x1400 → ∀ bs, bs.length = 4 →
        (∀ k, k < 4 → s.cmdRam.read (offset - 0x1000 + k) = bs[k]?) → v.toNat = leNat bs) ∧
      (0x2000 ≤ offset → s.state ≠ .busy → ∀ bs, bs.length = 4 →
        (∀ k, k < 4 → s.opRam.read (offset - 0x2000 + k) = bs[k]?) → v.toNat = leNat bs)

/-- A host access inside the window that is not 32 bits wide or not 4-byte aligned is refused: the model takes no step
(20_memory.md R53; the access comes from the queue `inputs`, log entry 6, and the refusal's name is log entry 7's). -/
def Obligations.MalformedHostAccessIsRefused : Prop :=
  ∀ (s : State) (offset width : Nat) (w : Word) (rest : List HostEvent), offset < 0x4000 →
    (width ≠ 4 ∨ offset % 4 ≠ 0) →
    (s.inputs = .write offset width w :: rest → step s = .refused .hostAccessForm) ∧
    (s.inputs = .read offset width :: rest → step s = .refused .hostAccessForm)

/-- STATUS reads as its fields at their bit positions (10_state.md R25, with the codes of R22 and 60_exceptions.md R283),
and IRQ is high exactly when an enabled source is pending (60_exceptions.md R300). -/
def Obligations.StatusWordAndIrq : Prop :=
  ∀ s : State,
    (statusWord s).toNat =
      (match s.state with | .idle => 0 | .busy => 1 | .halted => 2 | .faulted => 3) +
      4 * s.donePend.toNat + 8 * s.faultPend.toNat +
      16 * (match s.rc with | .ok => 0 | .absent => 1 | .divzero => 2 | .invalid => 3) +
      256 * s.sAbsent.toNat + 512 * s.sDivzero.toNat + 1024 * s.sInvalid.toNat + 2048 * s.werr.toNat ∧
    (irq s = true ↔ (s.donePend = true ∧ s.ieDone = true) ∨ (s.faultPend = true ∧ s.ieFault = true))

/-- The reset input puts every register at its reset value, whatever the machine was doing, lowers IRQ, and leaves no byte
of either RAM with a value (10_state.md R34, R37; 70_reset_and_hazards.md R320, R321; that no byte has a value then is log
entry 10's, and the queue log entry 6's). -/
def Obligations.ResetInputResetsTheRegisters : Prop :=
  ∀ (s : State) (rest : List HostEvent), s.inputs = .reset :: rest →
    ∃ t, step s = .next t ∧ t.state = .idle ∧ statusWord t = 0 ∧ ctrlWord t = 0 ∧ t.cp = 0 ∧ t.faultInfo = 0 ∧
      t.faultCmd = 0 ∧ t.cmdCount = 0 ∧ irq t = false ∧ (∀ a, t.opRam.read a = none ∧ t.cmdRam.read a = none) ∧
      t.inputs = rest

/-! ## The round trip of the codec -/

/-- Where d is not a square in Fp2 (law (d) of 00_scope.md R10, said in plain modular arithmetic), every tuple of canonical
elements that is on the curve, which has Z ≠ 0, encodes to bytes that decode to the same point (46_ecc_point_compress.md
R234). -/
def Obligations.EncodedPointDecodesToThePoint : Prop :=
  ∀ (c : Curve) (P : Point), Fp2Canonical c.d →
    (¬ ∃ e f : Nat, ((e : Int) * e - f * f) % (primeP : Int) = c.d.re ∧ 2 * e * f % primeP = c.d.im) →
    PointCanonical P → ptOnCurve c P = true →
    ∃ E Q, ptEncode P = some E ∧ ptDecode c E = some Q ∧ ptEq Q P = true
end

