-- ==== Sys2Proof/Laws/Memory.lean ====
section
/-! SUPPORT. What reading and writing a RAM do, and that every write keeps the canonical form. -/

namespace Sys2Proof.Machine

theorem Memory.read_write (m : Memory) (x y : Nat) (v : Byte) :
    (m.write x v).read y = if y = x then some v else m.read y := by
  induction m with
  | nil => simp [Memory.write, Memory.read]
  | cons c m ih =>
    obtain ⟨a, b⟩ := c
    simp only [Memory.write]
    split
    · simp [Memory.read]
    · split
      · subst_vars; simp only [Memory.read]; split <;> rfl
      · simp only [Memory.read, ih]; split
        · rename_i h1 h2 h3; simp [h3, Ne.symm h2]
        · rfl

@[simp] theorem Memory.read_write_same (m : Memory) (x : Nat) (v : Byte) : (m.write x v).read x = some v := by
  simp [Memory.read_write]

theorem Memory.read_write_other (m : Memory) (x y : Nat) (v : Byte) (h : y ≠ x) :
    (m.write x v).read y = m.read y := by
  simp [Memory.read_write, h]

/-- Everything a write of a byte string does, seen through the read of one byte. -/
theorem Memory.read_writeBytes (m : Memory) (a : Nat) (bs : List Byte) (y : Nat) :
    (m.writeBytes a bs).read y = if a ≤ y ∧ y < a + bs.length then bs[y - a]? else m.read y := by
  induction bs generalizing m a with
  | nil =>
    have h : ¬ (a ≤ y ∧ y < a + ([] : List Byte).length) := by simp only [List.length_nil]; omega
    rw [if_neg h]; rfl
  | cons b bs ih =>
    simp only [Memory.writeBytes, ih, List.length_cons, Memory.read_write]
    by_cases h1 : y = a
    · subst h1
      have : ¬ (y + 1 ≤ y) := by omega
      simp [this]
    · by_cases h2 : a + 1 ≤ y ∧ y < a + 1 + bs.length
      · have h3 : a ≤ y ∧ y < a + (bs.length + 1) := by omega
        have h4 : y - a = (y - (a + 1)) + 1 := by omega
        simp [h2, h3, h4]
      · have h3 : ¬ (a ≤ y ∧ y < a + (bs.length + 1)) := by omega
        rw [if_neg h2, if_neg h1, if_neg h3]

theorem Memory.read_writeBytes_outside (m : Memory) (a : Nat) (bs : List Byte) (y : Nat)
    (h : y < a ∨ a + bs.length ≤ y) : (m.writeBytes a bs).read y = m.read y := by
  rw [Memory.read_writeBytes, if_neg (by omega)]

theorem Memory.read_writeBytes_inside (m : Memory) (a : Nat) (bs : List Byte) (k : Nat) (h : k < bs.length) :
    (m.writeBytes a bs).read (a + k) = bs[k]? := by
  rw [Memory.read_writeBytes, if_pos (by omega)]; congr 1; omega

/-- Reading n bytes answers exactly when each was written, and answers those bytes. -/
theorem Memory.readBytes_eq_some (m : Memory) (a n : Nat) (bs : List Byte) :
    m.readBytes a n = some bs ↔ bs.length = n ∧ ∀ k, k < n → m.read (a + k) = bs[k]? := by
  induction n generalizing a bs with
  | zero =>
    constructor
    · intro h; simp [Memory.readBytes] at h; simp [← h]
    · rintro ⟨h, _⟩; simp [Memory.readBytes, List.length_eq_zero_iff.1 h]
  | succ n ih =>
    simp only [Memory.readBytes]
    constructor
    · intro h
      split at h
      · rename_i b bs' hb hbs
        obtain ⟨hl, hr⟩ := (ih _ _).1 hbs
        simp only [Option.some.injEq] at h; subst h
        refine ⟨by simp [hl], fun k hk => ?_⟩
        cases k with
        | zero => simpa using hb
        | succ k => have := hr k (by omega); rw [show a + 1 + k = a + (k + 1) by omega] at this; simpa using this
      · simp at h
    · rintro ⟨hl, hr⟩
      cases bs with
      | nil => simp at hl
      | cons b bs =>
        have h0 := hr 0 (by omega)
        simp at h0
        have h1 : m.readBytes (a + 1) n = some bs := (ih _ _).2 ⟨by simpa using hl, fun k hk => by
          have := hr (k + 1) (by omega); rw [show a + (k + 1) = a + 1 + k by omega] at this; simpa using this⟩
        simp [h0, h1]

theorem Memory.readBytes_eq_none (m : Memory) (a n : Nat) :
    m.readBytes a n = none ↔ ∃ k, k < n ∧ m.read (a + k) = none := by
  induction n generalizing a with
  | zero => simp [Memory.readBytes]
  | succ n ih =>
    simp only [Memory.readBytes]
    constructor
    · intro h
      cases h0 : m.read a with
      | none => exact ⟨0, by omega, by simpa using h0⟩
      | some b =>
        cases h1 : m.readBytes (a + 1) n with
        | none =>
          obtain ⟨k, hk, hr⟩ := (ih _).1 h1
          exact ⟨k + 1, by omega, by rw [← hr]; congr 1; omega⟩
        | some bs => simp [h0, h1] at h
    · rintro ⟨k, hk, hr⟩
      cases k with
      | zero => simp at hr; simp [hr]
      | succ k =>
        have : m.readBytes (a + 1) n = none := (ih _).2 ⟨k, by omega, by rw [← hr]; congr 1; omega⟩
        simp [this]

theorem Memory.risesFrom_mono (m : Memory) (x y : Nat) (h : x ≤ y) (hm : m.risesFrom y = true) :
    m.risesFrom x = true := by
  cases m with
  | nil => rfl
  | cons c m => obtain ⟨a, b⟩ := c; simp [Memory.risesFrom] at hm ⊢; exact ⟨by omega, hm.2⟩

theorem Memory.risesFrom_write (m : Memory) (x a : Nat) (v : Byte) (hx : x < a) (hm : m.risesFrom x = true) :
    (m.write a v).risesFrom x = true := by
  induction m generalizing x with
  | nil => simp [Memory.write, Memory.risesFrom, hx]
  | cons c m ih =>
    obtain ⟨d, b⟩ := c
    simp only [Memory.risesFrom, Bool.and_eq_true, decide_eq_true_eq] at hm
    simp only [Memory.write]
    split
    · simp [Memory.risesFrom, hx, hm.2]; assumption
    · split
      · subst_vars; simp [Memory.risesFrom, hx, hm.2]
      · simp [Memory.risesFrom, hm.1, ih d (by omega) hm.2]

theorem Memory.wf_of_risesFrom (m : Memory) (x : Nat) (h : m.risesFrom x = true) : m.wf = true := by
  cases m with
  | nil => rfl
  | cons c m => obtain ⟨a, b⟩ := c; simp [Memory.risesFrom] at h; exact h.2

/-- A write of one byte keeps the canonical form. -/
theorem Memory.wf_write (m : Memory) (a : Nat) (v : Byte) (h : m.wf = true) : (m.write a v).wf = true := by
  cases m with
  | nil => rfl
  | cons c m =>
    obtain ⟨d, b⟩ := c
    simp only [Memory.wf] at h
    simp only [Memory.write]
    split
    · simp [Memory.wf, Memory.risesFrom, h]; assumption
    · split
      · subst_vars; simpa [Memory.wf] using h
      · simpa [Memory.wf] using Memory.risesFrom_write m d a v (by omega) h

/-- A write of a byte string keeps the canonical form. -/
theorem Memory.wf_writeBytes (m : Memory) (a : Nat) (bs : List Byte) (h : m.wf = true) :
    (m.writeBytes a bs).wf = true := by
  induction bs generalizing m a with
  | nil => exact h
  | cons b bs ih => exact ih _ _ (Memory.wf_write m a b h)

theorem Memory.below_write (m : Memory) (a n : Nat) (v : Byte) (ha : a < n) (h : m.below n = true) :
    (m.write a v).below n = true := by
  induction m with
  | nil => simp [Memory.write, Memory.below, ha]
  | cons c m ih =>
    obtain ⟨d, b⟩ := c
    simp only [Memory.below, List.all_cons, Bool.and_eq_true, decide_eq_true_eq] at h
    have ih' := ih (by simpa [Memory.below] using h.2)
    simp only [Memory.write]
    split
    · simp [Memory.below, ha, h.1]; simpa using h.2
    · split
      · simp [Memory.below, ha]; simpa using h.2
      · simp only [Memory.below, List.all_cons, Bool.and_eq_true, decide_eq_true_eq]
        exact ⟨h.1, by simpa [Memory.below] using ih'⟩

/-- A write inside the RAM lists no address outside it. -/
theorem Memory.below_writeBytes (m : Memory) (a n : Nat) (bs : List Byte) (ha : a + bs.length ≤ n)
    (h : m.below n = true) : (m.writeBytes a bs).below n = true := by
  induction bs generalizing m a with
  | nil => exact h
  | cons b bs ih =>
    simp only [List.length_cons] at ha
    exact ih _ _ (by omega) (Memory.below_write m a n b (by omega) h)

/-- The canonical form is one: two canonical memories that read alike are the same list. -/
theorem Memory.read_none_of_risesFrom (m : Memory) (x y : Nat) (h : m.risesFrom x = true) (hy : y ≤ x) :
    m.read y = none := by
  induction m generalizing x with
  | nil => rfl
  | cons c m ih =>
    obtain ⟨a, b⟩ := c
    simp only [Memory.risesFrom, Bool.and_eq_true, decide_eq_true_eq] at h
    simp only [Memory.read]
    rw [if_neg (by omega), ih a h.2 (by omega)]

@[simp] theorem toLE_length (n v : Nat) : (toLE n v).length = n := by
  induction n generalizing v with
  | zero => rfl
  | succ n ih => simp [toLE, ih]

@[simp] theorem zeroBytes_length (n : Nat) : (zeroBytes n).length = n := by simp [zeroBytes]

/-- A value that fits in n bytes is read back from its little-endian string. -/
theorem leNat_toLE (n v : Nat) : leNat (toLE n v) = v % 256 ^ n := by
  induction n generalizing v with
  | zero => simp [toLE, leNat, Nat.mod_one]
  | succ n ih =>
    have h : leNat (toLE (n + 1) v) = v % 256 + 256 * (v / 256 % 256 ^ n) := by
      simp [toLE, leNat, ih]
    rw [h, Nat.pow_succ, Nat.mul_comm (256 ^ n) 256, Nat.mod_mul]

theorem leNat_lt (bs : List Byte) : leNat bs < 256 ^ bs.length := by
  induction bs with
  | nil => simp [leNat]
  | cons b bs ih =>
    simp only [leNat, List.length_cons, Nat.pow_succ]
    have := b.isLt
    omega

theorem toLE_leNat (bs : List Byte) : toLE bs.length (leNat bs) = bs := by
  induction bs with
  | nil => rfl
  | cons b bs ih =>
    have hb : b.toNat < 256 := b.isLt
    have h1 : (b.toNat + 256 * leNat bs) / 256 = leNat bs := by omega
    have h2 : BitVec.ofNat 8 (b.toNat + 256 * leNat bs) = b := by
      apply BitVec.eq_of_toNat_eq; simp only [BitVec.toNat_ofNat]; omega
    simp [toLE, leNat, h1, h2, ih]

@[simp] theorem wordBytes_length (w : Word) : (wordBytes w).length = 4 := by simp [wordBytes]

/-- A word is read back from its four bytes (20_memory.md R54). -/
@[simp] theorem bytesWord_wordBytes (w : Word) : bytesWord (wordBytes w) = w := by
  have h : w.toNat % 256 ^ 4 = w.toNat := Nat.mod_eq_of_lt (by simpa using w.isLt)
  simp only [bytesWord, wordBytes, leNat_toLE, h, BitVec.ofNat_toNat, BitVec.setWidth_eq]

end Sys2Proof.Machine
end

