-- ==== Sys2Proof/Laws/Encoding.lean ====
section
/-! SUPPORT. The four fields of a packed word, and the rows of the opcode map. -/

namespace Sys2Proof

@[simp] theorem opField_packWord (op rd rs1 rs2 : Byte) : opField (packWord op rd rs1 rs2) = op := by
  apply BitVec.eq_of_getLsbD_eq
  intro k hk
  simp only [opField, packWord, BitVec.getLsbD_extractLsb', BitVec.getLsbD_append]
  simp [hk, show ¬ 24 + k < 8 by omega, show ¬ 24 + k - 8 < 8 by omega, show ¬ 24 + k - 8 - 8 < 8 by omega,
    show 24 + k - 8 - 8 - 8 = k by omega]

@[simp] theorem rdField_packWord (op rd rs1 rs2 : Byte) : rdField (packWord op rd rs1 rs2) = rd := by
  apply BitVec.eq_of_getLsbD_eq
  intro k hk
  simp only [rdField, packWord, BitVec.getLsbD_extractLsb', BitVec.getLsbD_append]
  simp [hk, show ¬ 16 + k < 8 by omega, show ¬ 16 + k - 8 < 8 by omega,
    show 16 + k - 8 - 8 = k by omega]

@[simp] theorem rs1Field_packWord (op rd rs1 rs2 : Byte) : rs1Field (packWord op rd rs1 rs2) = rs1 := by
  apply BitVec.eq_of_getLsbD_eq
  intro k hk
  simp only [rs1Field, packWord, BitVec.getLsbD_extractLsb', BitVec.getLsbD_append]
  simp [hk, show ¬ 8 + k < 8 by omega, show 8 + k - 8 = k by omega]

@[simp] theorem rs2Field_packWord (op rd rs1 rs2 : Byte) : rs2Field (packWord op rd rs1 rs2) = rs2 := by
  apply BitVec.eq_of_getLsbD_eq
  intro k hk
  simp only [rs2Field, packWord, BitVec.getLsbD_extractLsb', BitVec.getLsbD_append]
  simp [hk]

/-- A word is packed from its four fields. -/
theorem packWord_fields (w : Word) : packWord (opField w) (rdField w) (rs1Field w) (rs2Field w) = w := by
  apply BitVec.eq_of_getLsbD_eq
  intro k hk
  simp only [opField, rdField, rs1Field, rs2Field, packWord, BitVec.getLsbD_append, BitVec.getLsbD_extractLsb']
  by_cases h1 : k < 8
  · simp [h1]
  · by_cases h2 : k - 8 < 8
    · simp [h1, h2, show 8 + (k - 8) = k by omega]
    · by_cases h3 : k - 8 - 8 < 8
      · simp [h1, h2, h3, show 16 + (k - 8 - 8) = k by omega]
      · simp [h1, h2, h3, show 24 + (k - 8 - 8 - 8) = k by omega, show k - 8 - 8 - 8 < 8 by omega]

/-- The opcode map has 44 rows (30_encoding.md R84). -/
theorem opcodeMap_length : opcodeMap.length = 44 := rfl

/-- No two rows of the opcode map have the same opcode. -/
theorem opcodeMap_distinct : opcodeMap.Pairwise (fun r r' => r.op ≠ r'.op) := by decide

/-- The decoder reads from a word laid out in bytes what it reads from the word (20_memory.md R54). -/
@[simp] theorem decodeBytes_wordBytes (w : Word) : decodeBytes (Machine.wordBytes w) = decode w := by
  simp [decodeBytes]

end Sys2Proof
end

