-- ==== Sys2Proof/Laws/State.lean ====
section
/-! SUPPORT. One lemma per field per update of the state, so that no proof unfolds a record update. -/

namespace Sys2Proof.Machine

@[simp] theorem setRc_state (rc : Rc) (s : State) : (setRc rc s).state = s.state := rfl
@[simp] theorem setRc_donePend (rc : Rc) (s : State) : (setRc rc s).donePend = s.donePend := rfl
@[simp] theorem setRc_faultPend (rc : Rc) (s : State) : (setRc rc s).faultPend = s.faultPend := rfl
@[simp] theorem setRc_rc (rc : Rc) (s : State) : (setRc rc s).rc = rc := rfl
@[simp] theorem setRc_sAbsent (rc : Rc) (s : State) : (setRc rc s).sAbsent = (s.sAbsent || rc == .absent) := rfl
@[simp] theorem setRc_sDivzero (rc : Rc) (s : State) : (setRc rc s).sDivzero = (s.sDivzero || rc == .divzero) := rfl
@[simp] theorem setRc_sInvalid (rc : Rc) (s : State) : (setRc rc s).sInvalid = (s.sInvalid || rc == .invalid) := rfl
@[simp] theorem setRc_werr (rc : Rc) (s : State) : (setRc rc s).werr = s.werr := rfl
@[simp] theorem setRc_ieDone (rc : Rc) (s : State) : (setRc rc s).ieDone = s.ieDone := rfl
@[simp] theorem setRc_ieFault (rc : Rc) (s : State) : (setRc rc s).ieFault = s.ieFault := rfl
@[simp] theorem setRc_cp (rc : Rc) (s : State) : (setRc rc s).cp = s.cp := rfl
@[simp] theorem setRc_faultInfo (rc : Rc) (s : State) : (setRc rc s).faultInfo = s.faultInfo := rfl
@[simp] theorem setRc_faultCmd (rc : Rc) (s : State) : (setRc rc s).faultCmd = s.faultCmd := rfl
@[simp] theorem setRc_cmdCount (rc : Rc) (s : State) : (setRc rc s).cmdCount = s.cmdCount := rfl
@[simp] theorem setRc_opRam (rc : Rc) (s : State) : (setRc rc s).opRam = s.opRam := rfl
@[simp] theorem setRc_cmdRam (rc : Rc) (s : State) : (setRc rc s).cmdRam = s.cmdRam := rfl
@[simp] theorem setRc_inputs (rc : Rc) (s : State) : (setRc rc s).inputs = s.inputs := rfl
@[simp] theorem setRc_reply (rc : Rc) (s : State) : (setRc rc s).reply = s.reply := rfl
@[simp] theorem setRc_freeCount (rc : Rc) (s : State) : (setRc rc s).freeCount = s.freeCount := rfl

@[simp] theorem countCommand_state (s : State) : (countCommand s).state = s.state := rfl
@[simp] theorem countCommand_donePend (s : State) : (countCommand s).donePend = s.donePend := rfl
@[simp] theorem countCommand_faultPend (s : State) : (countCommand s).faultPend = s.faultPend := rfl
@[simp] theorem countCommand_rc (s : State) : (countCommand s).rc = s.rc := rfl
@[simp] theorem countCommand_sAbsent (s : State) : (countCommand s).sAbsent = s.sAbsent := rfl
@[simp] theorem countCommand_sDivzero (s : State) : (countCommand s).sDivzero = s.sDivzero := rfl
@[simp] theorem countCommand_sInvalid (s : State) : (countCommand s).sInvalid = s.sInvalid := rfl
@[simp] theorem countCommand_werr (s : State) : (countCommand s).werr = s.werr := rfl
@[simp] theorem countCommand_ieDone (s : State) : (countCommand s).ieDone = s.ieDone := rfl
@[simp] theorem countCommand_ieFault (s : State) : (countCommand s).ieFault = s.ieFault := rfl
@[simp] theorem countCommand_cp (s : State) : (countCommand s).cp = s.cp := rfl
@[simp] theorem countCommand_faultInfo (s : State) : (countCommand s).faultInfo = s.faultInfo := rfl
@[simp] theorem countCommand_faultCmd (s : State) : (countCommand s).faultCmd = s.faultCmd := rfl
@[simp] theorem countCommand_cmdCount (s : State) : (countCommand s).cmdCount = s.cmdCount + 1 := rfl
@[simp] theorem countCommand_opRam (s : State) : (countCommand s).opRam = s.opRam := rfl
@[simp] theorem countCommand_cmdRam (s : State) : (countCommand s).cmdRam = s.cmdRam := rfl
@[simp] theorem countCommand_inputs (s : State) : (countCommand s).inputs = s.inputs := rfl
@[simp] theorem countCommand_reply (s : State) : (countCommand s).reply = s.reply := rfl
@[simp] theorem countCommand_freeCount (s : State) : (countCommand s).freeCount = s.freeCount := rfl

@[simp] theorem raiseFault_state (c : Cause) (w : Word) (s : State) : (raiseFault c w s).state = .faulted := rfl
@[simp] theorem raiseFault_donePend (c : Cause) (w : Word) (s : State) : (raiseFault c w s).donePend = s.donePend := rfl
@[simp] theorem raiseFault_faultPend (c : Cause) (w : Word) (s : State) : (raiseFault c w s).faultPend = true := rfl
@[simp] theorem raiseFault_rc (c : Cause) (w : Word) (s : State) : (raiseFault c w s).rc = s.rc := rfl
@[simp] theorem raiseFault_sAbsent (c : Cause) (w : Word) (s : State) : (raiseFault c w s).sAbsent = s.sAbsent := rfl
@[simp] theorem raiseFault_sDivzero (c : Cause) (w : Word) (s : State) : (raiseFault c w s).sDivzero = s.sDivzero := rfl
@[simp] theorem raiseFault_sInvalid (c : Cause) (w : Word) (s : State) : (raiseFault c w s).sInvalid = s.sInvalid := rfl
@[simp] theorem raiseFault_werr (c : Cause) (w : Word) (s : State) : (raiseFault c w s).werr = s.werr := rfl
@[simp] theorem raiseFault_ieDone (c : Cause) (w : Word) (s : State) : (raiseFault c w s).ieDone = s.ieDone := rfl
@[simp] theorem raiseFault_ieFault (c : Cause) (w : Word) (s : State) : (raiseFault c w s).ieFault = s.ieFault := rfl
@[simp] theorem raiseFault_cp (c : Cause) (w : Word) (s : State) : (raiseFault c w s).cp = s.cp := rfl
@[simp] theorem raiseFault_faultInfo (c : Cause) (w : Word) (s : State) : (raiseFault c w s).faultInfo = faultInfoWord s.cp c.code := rfl
@[simp] theorem raiseFault_faultCmd (c : Cause) (w : Word) (s : State) : (raiseFault c w s).faultCmd = w := rfl
@[simp] theorem raiseFault_cmdCount (c : Cause) (w : Word) (s : State) : (raiseFault c w s).cmdCount = s.cmdCount := rfl
@[simp] theorem raiseFault_opRam (c : Cause) (w : Word) (s : State) : (raiseFault c w s).opRam = s.opRam := rfl
@[simp] theorem raiseFault_cmdRam (c : Cause) (w : Word) (s : State) : (raiseFault c w s).cmdRam = s.cmdRam := rfl
@[simp] theorem raiseFault_inputs (c : Cause) (w : Word) (s : State) : (raiseFault c w s).inputs = s.inputs := rfl
@[simp] theorem raiseFault_reply (c : Cause) (w : Word) (s : State) : (raiseFault c w s).reply = s.reply := rfl
@[simp] theorem raiseFault_freeCount (c : Cause) (w : Word) (s : State) : (raiseFault c w s).freeCount = s.freeCount := rfl

@[simp] theorem writeSlots_state (j : Nat) (bs : List Byte) (s : State) : (writeSlots j bs s).state = s.state := rfl
@[simp] theorem writeSlots_donePend (j : Nat) (bs : List Byte) (s : State) : (writeSlots j bs s).donePend = s.donePend := rfl
@[simp] theorem writeSlots_faultPend (j : Nat) (bs : List Byte) (s : State) : (writeSlots j bs s).faultPend = s.faultPend := rfl
@[simp] theorem writeSlots_rc (j : Nat) (bs : List Byte) (s : State) : (writeSlots j bs s).rc = s.rc := rfl
@[simp] theorem writeSlots_sAbsent (j : Nat) (bs : List Byte) (s : State) : (writeSlots j bs s).sAbsent = s.sAbsent := rfl
@[simp] theorem writeSlots_sDivzero (j : Nat) (bs : List Byte) (s : State) : (writeSlots j bs s).sDivzero = s.sDivzero := rfl
@[simp] theorem writeSlots_sInvalid (j : Nat) (bs : List Byte) (s : State) : (writeSlots j bs s).sInvalid = s.sInvalid := rfl
@[simp] theorem writeSlots_werr (j : Nat) (bs : List Byte) (s : State) : (writeSlots j bs s).werr = s.werr := rfl
@[simp] theorem writeSlots_ieDone (j : Nat) (bs : List Byte) (s : State) : (writeSlots j bs s).ieDone = s.ieDone := rfl
@[simp] theorem writeSlots_ieFault (j : Nat) (bs : List Byte) (s : State) : (writeSlots j bs s).ieFault = s.ieFault := rfl
@[simp] theorem writeSlots_cp (j : Nat) (bs : List Byte) (s : State) : (writeSlots j bs s).cp = s.cp := rfl
@[simp] theorem writeSlots_faultInfo (j : Nat) (bs : List Byte) (s : State) : (writeSlots j bs s).faultInfo = s.faultInfo := rfl
@[simp] theorem writeSlots_faultCmd (j : Nat) (bs : List Byte) (s : State) : (writeSlots j bs s).faultCmd = s.faultCmd := rfl
@[simp] theorem writeSlots_cmdCount (j : Nat) (bs : List Byte) (s : State) : (writeSlots j bs s).cmdCount = s.cmdCount := rfl
@[simp] theorem writeSlots_opRam (j : Nat) (bs : List Byte) (s : State) : (writeSlots j bs s).opRam = s.opRam.writeBytes (slotAddr j) bs := rfl
@[simp] theorem writeSlots_cmdRam (j : Nat) (bs : List Byte) (s : State) : (writeSlots j bs s).cmdRam = s.cmdRam := rfl
@[simp] theorem writeSlots_inputs (j : Nat) (bs : List Byte) (s : State) : (writeSlots j bs s).inputs = s.inputs := rfl
@[simp] theorem writeSlots_reply (j : Nat) (bs : List Byte) (s : State) : (writeSlots j bs s).reply = s.reply := rfl
@[simp] theorem writeSlots_freeCount (j : Nat) (bs : List Byte) (s : State) : (writeSlots j bs s).freeCount = s.freeCount := rfl

@[simp] theorem setWerr_state (s : State) : (setWerr s).state = s.state := rfl
@[simp] theorem setWerr_donePend (s : State) : (setWerr s).donePend = s.donePend := rfl
@[simp] theorem setWerr_faultPend (s : State) : (setWerr s).faultPend = s.faultPend := rfl
@[simp] theorem setWerr_rc (s : State) : (setWerr s).rc = s.rc := rfl
@[simp] theorem setWerr_sAbsent (s : State) : (setWerr s).sAbsent = s.sAbsent := rfl
@[simp] theorem setWerr_sDivzero (s : State) : (setWerr s).sDivzero = s.sDivzero := rfl
@[simp] theorem setWerr_sInvalid (s : State) : (setWerr s).sInvalid = s.sInvalid := rfl
@[simp] theorem setWerr_werr (s : State) : (setWerr s).werr = true := rfl
@[simp] theorem setWerr_ieDone (s : State) : (setWerr s).ieDone = s.ieDone := rfl
@[simp] theorem setWerr_ieFault (s : State) : (setWerr s).ieFault = s.ieFault := rfl
@[simp] theorem setWerr_cp (s : State) : (setWerr s).cp = s.cp := rfl
@[simp] theorem setWerr_faultInfo (s : State) : (setWerr s).faultInfo = s.faultInfo := rfl
@[simp] theorem setWerr_faultCmd (s : State) : (setWerr s).faultCmd = s.faultCmd := rfl
@[simp] theorem setWerr_cmdCount (s : State) : (setWerr s).cmdCount = s.cmdCount := rfl
@[simp] theorem setWerr_opRam (s : State) : (setWerr s).opRam = s.opRam := rfl
@[simp] theorem setWerr_cmdRam (s : State) : (setWerr s).cmdRam = s.cmdRam := rfl
@[simp] theorem setWerr_inputs (s : State) : (setWerr s).inputs = s.inputs := rfl
@[simp] theorem setWerr_reply (s : State) : (setWerr s).reply = s.reply := rfl
@[simp] theorem setWerr_freeCount (s : State) : (setWerr s).freeCount = s.freeCount := rfl

@[simp] theorem clearOutcome_state (s : State) : (clearOutcome s).state = s.state := rfl
@[simp] theorem clearOutcome_donePend (s : State) : (clearOutcome s).donePend = false := rfl
@[simp] theorem clearOutcome_faultPend (s : State) : (clearOutcome s).faultPend = false := rfl
@[simp] theorem clearOutcome_rc (s : State) : (clearOutcome s).rc = .ok := rfl
@[simp] theorem clearOutcome_sAbsent (s : State) : (clearOutcome s).sAbsent = false := rfl
@[simp] theorem clearOutcome_sDivzero (s : State) : (clearOutcome s).sDivzero = false := rfl
@[simp] theorem clearOutcome_sInvalid (s : State) : (clearOutcome s).sInvalid = false := rfl
@[simp] theorem clearOutcome_werr (s : State) : (clearOutcome s).werr = false := rfl
@[simp] theorem clearOutcome_ieDone (s : State) : (clearOutcome s).ieDone = s.ieDone := rfl
@[simp] theorem clearOutcome_ieFault (s : State) : (clearOutcome s).ieFault = s.ieFault := rfl
@[simp] theorem clearOutcome_cp (s : State) : (clearOutcome s).cp = s.cp := rfl
@[simp] theorem clearOutcome_faultInfo (s : State) : (clearOutcome s).faultInfo = 0 := rfl
@[simp] theorem clearOutcome_faultCmd (s : State) : (clearOutcome s).faultCmd = 0 := rfl
@[simp] theorem clearOutcome_cmdCount (s : State) : (clearOutcome s).cmdCount = s.cmdCount := rfl
@[simp] theorem clearOutcome_opRam (s : State) : (clearOutcome s).opRam = s.opRam := rfl
@[simp] theorem clearOutcome_cmdRam (s : State) : (clearOutcome s).cmdRam = s.cmdRam := rfl
@[simp] theorem clearOutcome_inputs (s : State) : (clearOutcome s).inputs = s.inputs := rfl
@[simp] theorem clearOutcome_reply (s : State) : (clearOutcome s).reply = s.reply := rfl
@[simp] theorem clearOutcome_freeCount (s : State) : (clearOutcome s).freeCount = s.freeCount := rfl

@[simp] theorem advance_donePend (w : Word) (s : State) : (advance w s).donePend = s.donePend := by
  unfold advance; split <;> rfl
@[simp] theorem advance_rc (w : Word) (s : State) : (advance w s).rc = s.rc := by
  unfold advance; split <;> rfl
@[simp] theorem advance_sAbsent (w : Word) (s : State) : (advance w s).sAbsent = s.sAbsent := by
  unfold advance; split <;> rfl
@[simp] theorem advance_sDivzero (w : Word) (s : State) : (advance w s).sDivzero = s.sDivzero := by
  unfold advance; split <;> rfl
@[simp] theorem advance_sInvalid (w : Word) (s : State) : (advance w s).sInvalid = s.sInvalid := by
  unfold advance; split <;> rfl
@[simp] theorem advance_werr (w : Word) (s : State) : (advance w s).werr = s.werr := by
  unfold advance; split <;> rfl
@[simp] theorem advance_ieDone (w : Word) (s : State) : (advance w s).ieDone = s.ieDone := by
  unfold advance; split <;> rfl
@[simp] theorem advance_ieFault (w : Word) (s : State) : (advance w s).ieFault = s.ieFault := by
  unfold advance; split <;> rfl
@[simp] theorem advance_cmdCount (w : Word) (s : State) : (advance w s).cmdCount = s.cmdCount := by
  unfold advance; split <;> rfl
@[simp] theorem advance_opRam (w : Word) (s : State) : (advance w s).opRam = s.opRam := by
  unfold advance; split <;> rfl
@[simp] theorem advance_cmdRam (w : Word) (s : State) : (advance w s).cmdRam = s.cmdRam := by
  unfold advance; split <;> rfl
@[simp] theorem advance_inputs (w : Word) (s : State) : (advance w s).inputs = s.inputs := by
  unfold advance; split <;> rfl
@[simp] theorem advance_reply (w : Word) (s : State) : (advance w s).reply = s.reply := by
  unfold advance; split <;> rfl
@[simp] theorem advance_freeCount (w : Word) (s : State) : (advance w s).freeCount = s.freeCount := by
  unfold advance; split <;> rfl

@[simp] theorem complete_donePend (w : Word) (rc : Rc) (s : State) : (complete w rc s).donePend = s.donePend := by
  simp [complete]
@[simp] theorem complete_rc (w : Word) (rc : Rc) (s : State) : (complete w rc s).rc = rc := by
  simp [complete]
@[simp] theorem complete_sAbsent (w : Word) (rc : Rc) (s : State) : (complete w rc s).sAbsent = (s.sAbsent || rc == .absent) := by
  simp [complete]
@[simp] theorem complete_sDivzero (w : Word) (rc : Rc) (s : State) : (complete w rc s).sDivzero = (s.sDivzero || rc == .divzero) := by
  simp [complete]
@[simp] theorem complete_sInvalid (w : Word) (rc : Rc) (s : State) : (complete w rc s).sInvalid = (s.sInvalid || rc == .invalid) := by
  simp [complete]
@[simp] theorem complete_werr (w : Word) (rc : Rc) (s : State) : (complete w rc s).werr = s.werr := by
  simp [complete]
@[simp] theorem complete_ieDone (w : Word) (rc : Rc) (s : State) : (complete w rc s).ieDone = s.ieDone := by
  simp [complete]
@[simp] theorem complete_ieFault (w : Word) (rc : Rc) (s : State) : (complete w rc s).ieFault = s.ieFault := by
  simp [complete]
@[simp] theorem complete_cmdCount (w : Word) (rc : Rc) (s : State) : (complete w rc s).cmdCount = s.cmdCount + 1 := by
  simp [complete]
@[simp] theorem complete_opRam (w : Word) (rc : Rc) (s : State) : (complete w rc s).opRam = s.opRam := by
  simp [complete]
@[simp] theorem complete_cmdRam (w : Word) (rc : Rc) (s : State) : (complete w rc s).cmdRam = s.cmdRam := by
  simp [complete]
@[simp] theorem complete_inputs (w : Word) (rc : Rc) (s : State) : (complete w rc s).inputs = s.inputs := by
  simp [complete]
@[simp] theorem complete_reply (w : Word) (rc : Rc) (s : State) : (complete w rc s).reply = s.reply := by
  simp [complete]
@[simp] theorem complete_freeCount (w : Word) (rc : Rc) (s : State) : (complete w rc s).freeCount = s.freeCount := by
  simp [complete]

@[simp] theorem startAction_ieDone (s : State) : (startAction s).ieDone = s.ieDone := by
  unfold startAction; split <;> rfl
@[simp] theorem startAction_ieFault (s : State) : (startAction s).ieFault = s.ieFault := by
  unfold startAction; split <;> rfl
@[simp] theorem startAction_cp (s : State) : (startAction s).cp = s.cp := by
  unfold startAction; split <;> rfl
@[simp] theorem startAction_opRam (s : State) : (startAction s).opRam = s.opRam := by
  unfold startAction; split <;> rfl
@[simp] theorem startAction_cmdRam (s : State) : (startAction s).cmdRam = s.cmdRam := by
  unfold startAction; split <;> rfl
@[simp] theorem startAction_inputs (s : State) : (startAction s).inputs = s.inputs := by
  unfold startAction; split <;> rfl
@[simp] theorem startAction_reply (s : State) : (startAction s).reply = s.reply := by
  unfold startAction; split <;> rfl
@[simp] theorem startAction_freeCount (s : State) : (startAction s).freeCount = s.freeCount := by
  unfold startAction; split <;> rfl

@[simp] theorem clearAction_ieDone (s : State) : (clearAction s).ieDone = s.ieDone := by
  unfold clearAction; split <;> rfl
@[simp] theorem clearAction_ieFault (s : State) : (clearAction s).ieFault = s.ieFault := by
  unfold clearAction; split <;> rfl
@[simp] theorem clearAction_cp (s : State) : (clearAction s).cp = s.cp := by
  unfold clearAction; split <;> rfl
@[simp] theorem clearAction_opRam (s : State) : (clearAction s).opRam = s.opRam := by
  unfold clearAction; split <;> rfl
@[simp] theorem clearAction_cmdRam (s : State) : (clearAction s).cmdRam = s.cmdRam := by
  unfold clearAction; split <;> rfl
@[simp] theorem clearAction_inputs (s : State) : (clearAction s).inputs = s.inputs := by
  unfold clearAction; split <;> rfl
@[simp] theorem clearAction_reply (s : State) : (clearAction s).reply = s.reply := by
  unfold clearAction; split <;> rfl
@[simp] theorem clearAction_freeCount (s : State) : (clearAction s).freeCount = s.freeCount := by
  unfold clearAction; split <;> rfl
@[simp] theorem clearAction_cmdCount (s : State) : (clearAction s).cmdCount = s.cmdCount := by
  unfold clearAction; split <;> rfl

end Sys2Proof.Machine
end

