-- ==== Sys2Proof/Laws/Ops.lean ====
section
/-! SUPPORT. What each shared operation can do, said once. -/

namespace Sys2Proof.Machine

/-- Component-wise equality is equality (00_scope.md R17). -/
theorem fp2Eq_iff (x y : Fp2) : fp2Eq x y = true ↔ x = y := by
  cases x; cases y; simp [fp2Eq]

/-- An engine read answers exactly when the bytes lie in the operand RAM and were all written, and answers them. -/
theorem memRead_eq_ok (s : State) (a n : Nat) (bs : List Byte) :
    memRead s a n = .ok bs ↔ a + n ≤ opRamSize ∧ bs.length = n ∧ ∀ k, k < n → s.opRam.read (a + k) = bs[k]? := by
  unfold memRead
  split
  · rename_i h
    cases hr : s.opRam.readBytes a n with
    | none =>
      simp only [reduceCtorEq, false_iff, not_and]
      intro _ hl hk
      have := (Memory.readBytes_eq_some s.opRam a n bs).2 ⟨hl, hk⟩
      simp [hr] at this
    | some bs' =>
      have hs := fun b => Memory.readBytes_eq_some s.opRam a n b
      simp only [hr, Option.some.injEq] at hs
      simp only [Except.ok.injEq, hs, h, true_and]
  · rename_i h; simp [h]

/-- An engine read of a byte nobody has written is the model fault of 93_implementation_defined.md I1. -/
theorem memRead_unwritten (s : State) (a n : Nat) (ha : a + n ≤ opRamSize)
    (h : ∃ k, k < n ∧ s.opRam.read (a + k) = none) : memRead s a n = .error .unwrittenOperand := by
  simp [memRead, ha, (Memory.readBytes_eq_none s.opRam a n).2 h]

/-- CP after the sequencer moves on: the next index, or 255 still. -/
theorem advance_cases (w : Word) (s : State) :
    (s.cp = 255 ∧ advance w s = raiseFault .cmdOverrun w s) ∨ (s.cp ≠ 255 ∧ advance w s = { s with cp := s.cp + 1 }) := by
  unfold advance
  by_cases h : s.cp = 255
  · exact .inl ⟨h, if_pos h⟩
  · exact .inr ⟨h, if_neg h⟩

/-- Everything the end of a command can do: a model fault, fault entry, a completion without a result, or a completion
with a result written inside the operand RAM. -/
theorem retire_cases (w : Word) (s : State) (e : Except Fault Effect) :
    (∃ f, retire w s e = .fault f) ∨
    (∃ c, e = .ok (.raised c) ∧ retire w s e = .next (raiseFault c w s)) ∨
    (∃ rc, e = .ok (.silent rc) ∧ retire w s e = .next (complete w rc s)) ∨
    (∃ j bs, e = .ok (.wrote j bs) ∧ slotAddr j + bs.length ≤ opRamSize ∧
      retire w s e = .next (complete w .ok (writeSlots j bs s))) := by
  match e with
  | .error f => exact .inl ⟨f, rfl⟩
  | .ok (.raised c) => exact .inr (.inl ⟨c, rfl, rfl⟩)
  | .ok (.silent rc) => exact .inr (.inr (.inl ⟨rc, rfl, rfl⟩))
  | .ok (.wrote j bs) =>
    by_cases h : slotAddr j + bs.length ≤ opRamSize
    · exact .inr (.inr (.inr ⟨j, bs, rfl, h, if_pos h⟩))
    · exact .inl ⟨.noSuchSlot, if_neg h⟩

/-- The end of a command is never a refusal. -/
theorem retire_not_refused (w : Word) (s : State) (e : Except Fault Effect) (r : Refusal) :
    retire w s e ≠ .refused r := by
  rcases retire_cases w s e with ⟨f, h⟩ | ⟨c, -, h⟩ | ⟨rc, -, h⟩ | ⟨j, bs, -, -, h⟩ <;> simp [h]

/-- An absent result completes with its code; a present one is written. -/
theorem wroteOr_cases (rc : Rc) (j : Nat) (r : Option (List Byte)) :
    (r = none ∧ wroteOr rc j r = .silent rc) ∨ (∃ bs, r = some bs ∧ wroteOr rc j r = .wrote j bs) := by
  cases r with
  | none => exact .inl ⟨rfl, rfl⟩
  | some bs => exact .inr ⟨bs, rfl, rfl⟩

/-- HALT apart, every command is the end of a command with its own word, for some outcome of its sources. -/
theorem exec_eq_retire (i : Instr) (s : State) (h : i ≠ .halt) : ∃ e, exec i s = retire (encode i) s e := by
  cases i with
  | halt => exact absurd rfl h
  | _ =>
    simp only [exec, execNop, execMov, execFpMul, execFpSqr, execFp2Mul, execFp2Sqr, execFpRed, execFpAdd,
      execFpSub, execFpNeg, execFpHalf, execFp2Add, execFp2Sub, execFp2Neg, execFp2Half, execFpInv,
      execFpSqrt, execFp2Inv, execFp2Sqrt, execScRed32, execScRed64, execScAdd, execScSub,
      execScMul, execScInv, execPtAdd, execPtNeg, execPtEq, execPtOncurve, execPtLdid, execPtLdb,
      execPtDbl, execPtMul, execFp2Sign, execPtEnc, execPtDec, execPtChkenc, execSeedStrict,
      execSeedTry, execKeyPriv, execKeyPub, execSign, execVerify]
    exact ⟨_, rfl⟩

/-- What a host access can do: act, or be refused with nothing done. -/
theorem hostAccess_cases (offset width : Nat) (s : State) (act : State → State) :
    (offset < windowSize ∧ width = 4 ∧ offset % 4 = 0 ∧ hostAccess offset width s act = .next (act s)) ∨
    (∃ r, hostAccess offset width s act = .refused r) := by
  unfold hostAccess
  split
  · exact .inr ⟨_, rfl⟩
  · split
    · rename_i h1 h2; exact .inl ⟨by omega, h2.1, h2.2, rfl⟩
    · exact .inr ⟨_, rfl⟩

/-- What a host read can do: give a word in `reply`, and, where the word is unspecified, draw the next free value. -/
theorem hostRead_cases (offset : Nat) (s : State) :
    (∃ w, windowWord offset s = some w ∧ hostRead offset s = { s with reply := some w }) ∨
    (windowWord offset s = none ∧
      hostRead offset s = { s with reply := some (Config.freeHostWord s.freeCount), freeCount := s.freeCount + 1 }) := by
  unfold hostRead
  cases h : windowWord offset s with
  | none => exact .inr ⟨rfl, rfl⟩
  | some w => exact .inl ⟨w, rfl, rfl⟩

/-- What a host write can do: act on CTRL, on CP, on four bytes of a RAM, or nothing. -/
theorem hostWrite_cases (offset : Nat) (w : Word) (s : State) :
    (offset = 0x0000 ∧ hostWrite offset w s = writeCtrl w s) ∨
    (offset = 0x0008 ∧ hostWrite offset w s = writeCp w s) ∨
    (0x1000 ≤ offset ∧ offset < 0x1400 ∧ hostWrite offset w s = writeCmdRam (offset - 0x1000) w s) ∨
    (0x2000 ≤ offset ∧ offset < 0x4000 ∧ hostWrite offset w s = writeOpRam (offset - 0x2000) w s) ∨
    hostWrite offset w s = s := by
  unfold hostWrite
  split
  · exact .inl ⟨by assumption, rfl⟩
  · split
    · exact .inr (.inl ⟨by assumption, rfl⟩)
    · split
      · rename_i h; exact .inr (.inr (.inl ⟨h.1, h.2, rfl⟩))
      · split
        · rename_i h; exact .inr (.inr (.inr (.inl ⟨h.1, h.2, rfl⟩)))
        · exact .inr (.inr (.inr (.inr rfl)))

/-- START: refused while BUSY, else a fresh run from the same CP (10_state.md R27). -/
theorem startAction_cases (s : State) :
    (s.state = .busy ∧ startAction s = setWerr s) ∨
    (s.state ≠ .busy ∧ startAction s = { clearOutcome s with cmdCount := 0, state := .busy }) := by
  unfold startAction
  by_cases h : s.state = .busy
  · exact .inl ⟨h, if_pos h⟩
  · exact .inr ⟨h, if_neg h⟩

/-- CLEAR: refused while BUSY, else back to IDLE (10_state.md R28). -/
theorem clearAction_cases (s : State) :
    (s.state = .busy ∧ clearAction s = setWerr s) ∨
    (s.state ≠ .busy ∧ clearAction s = { clearOutcome s with state := .idle }) := by
  unfold clearAction
  by_cases h : s.state = .busy
  · exact .inl ⟨h, if_pos h⟩
  · exact .inr ⟨h, if_neg h⟩

/-- What one engine step can do: a model fault at the fetch, fault entry from a failed decode check, or the command. -/
theorem engineStep_cases (s : State) :
    (∃ f, engineStep s = .fault f ∧ fetch s = .error f) ∨
    (∃ bs e, fetch s = .ok bs ∧ decodeBytes bs = .error e ∧
      engineStep s = .next (raiseFault (decodeCause e) (bytesWord bs) s)) ∨
    (∃ bs i, fetch s = .ok bs ∧ decodeBytes bs = .ok i ∧ engineStep s = exec i s) := by
  unfold engineStep
  cases hf : fetch s with
  | error f => exact .inl ⟨f, rfl, rfl⟩
  | ok bs =>
    cases hd : decodeBytes bs with
    | error e => exact .inr (.inl ⟨bs, e, rfl, hd, by simp [hd]⟩)
    | ok i => exact .inr (.inr ⟨bs, i, rfl, hd, by simp [hd]⟩)

/-- What one step can do: the turn of the next event from outside, a step of the engine, or no step at all. -/
theorem step_cases (s : State) :
    (∃ e rest, s.inputs = e :: rest ∧ step s = eventTurn e { s with inputs := rest }) ∨
    (s.inputs = [] ∧ s.state = .busy ∧ step s = engineStep s) ∨
    (s.inputs = [] ∧ s.state ≠ .busy ∧ step s = .refused .noStep) := by
  unfold step turn
  cases hi : s.inputs with
  | cons e rest => exact .inl ⟨e, rest, rfl, rfl⟩
  | nil =>
    by_cases h : s.state = .busy
    · exact .inr (.inl ⟨rfl, h, by simp [h]⟩)
    · exact .inr (.inr ⟨rfl, h, by simp [h]⟩)

end Sys2Proof.Machine
end

