-- ==== Sys2Proof/Laws/Completion.lean ====
section
/-! SUPPORT. From what the operand RAM holds to what a command reads, and from the end of a command to the terms of
Safety.lean: the lemmas a statement about a command is assembled from. -/

namespace Sys2Proof.Machine

@[simp] theorem fpBytes_length (v : Nat) : (fpBytes v).length = 32 := by simp [fpBytes]
@[simp] theorem scBytes_length (v : Nat) : (scBytes v).length = 32 := by simp [scBytes]
@[simp] theorem fp2ToBytes_length (x : Fp2) : (fp2ToBytes x).length = 32 := by simp [fp2ToBytes]
@[simp] theorem ptBytes_length (P : Point) : (ptBytes P).length = 128 := by simp [ptBytes]
@[simp] theorem boolBytes_length (b : Bool) : (boolBytes b).length = 32 := by simp [boolBytes]

/-- An 8-bit slot index names a slot that exists (20_memory.md R56). -/
theorem slot_in_range (j : Slot) : slotAddr j.toNat + 32 ≤ opRamSize := by
  have := j.isLt; simp only [slotAddr, opRamSize]; omega

/-- An operand that fits lies in the operand RAM. -/
theorem fits_in_range (t : OperandType) (j : Slot) (h : fits t j = true) :
    slotAddr j.toNat + 32 * t.span ≤ opRamSize := by
  have h1 : j.toNat + t.span - 1 ≤ 255 := by simpa [fits] using h
  have h2 := j.isLt
  have h3 : 1 ≤ t.span := by cases t <;> decide
  simp only [slotAddr, opRamSize]; omega

/-- What the operand RAM holds is what the engine reads. -/
theorem readBytes_of_holdsAt (s : State) (j : Nat) (bs : List Byte) (h : holdsAt s j bs)
    (hr : slotAddr j + bs.length ≤ opRamSize) : readBytes s j bs.length = .ok bs :=
  (memRead_eq_ok s (slotAddr j) bs.length bs).2 ⟨hr, rfl, h⟩

theorem holdsAt_take (s : State) (j n : Nat) (bs : List Byte) (h : holdsAt s j bs) : holdsAt s j (bs.take n) := by
  intro k hk
  have hk' : k < n ∧ k < bs.length := by simp at hk; omega
  rw [h k hk'.2, List.getElem?_take_of_lt hk'.1]

theorem holdsAt_drop (s : State) (j m : Nat) (bs : List Byte) (h : holdsAt s j bs) :
    holdsAt s (j + m) (bs.drop (32 * m)) := by
  intro k hk
  have hk' : 32 * m + k < bs.length := by simp at hk; omega
  have := h (32 * m + k) hk'
  rw [show slotAddr j + (32 * m + k) = slotAddr (j + m) + k by simp only [slotAddr]; omega] at this
  rw [this, List.getElem?_drop]

/-- A one-slot Fp operand is read from its low 16 bytes, reduced (30_encoding.md R91). -/
theorem readFp_of_holdsAt (s : State) (j : Slot) (bs : List Byte) (hl : bs.length = 16) (h : holdsAt s j.toNat bs) :
    readFp s j.toNat = .ok (fpReduce (leNat bs)) := by
  have hr := readBytes_of_holdsAt s j.toNat bs h (by have := slot_in_range j; omega)
  rw [hl] at hr
  simp [readFp, hr, bind, Except.bind, pure, Except.pure]

/-- An Fp2 operand is read from a slot, each half reduced (30_encoding.md R93). -/
theorem readFp2_of_holdsAt (s : State) (j : Nat) (bs : List Byte) (hl : bs.length = 32) (h : holdsAt s j bs)
    (hj : j ≤ 255) : readFp2 s j = .ok (fp2OfBytes bs) := by
  have hr := readBytes_of_holdsAt s j bs h (by simp only [slotAddr, opRamSize, hl]; omega)
  rw [hl] at hr
  simp [readFp2, hr, bind, Except.bind, pure, Except.pure]

/-- A point operand is read from four slots (30_encoding.md R96). -/
theorem readPt_of_holdsAt (s : State) (j : Slot) (bs : List Byte) (hl : bs.length = 128) (h : holdsAt s j.toNat bs)
    (hf : fits .pt j = true) : readPt s j.toNat = .ok (ptOfBytes bs) := by
  have hj : j.toNat ≤ 252 := by
    have : j.toNat + 4 - 1 ≤ 255 := by simpa [fits, OperandType.span] using hf
    omega
  have h0 := readFp2_of_holdsAt s j.toNat (bs.take 32) (by simp; omega) (holdsAt_take s _ 32 bs h) (by omega)
  have h1 := readFp2_of_holdsAt s (j.toNat + 1) ((bs.drop 32).take 32) (by simp; omega)
    (holdsAt_take s _ 32 _ (holdsAt_drop s _ 1 bs h)) (by omega)
  have h2 := readFp2_of_holdsAt s (j.toNat + 2) ((bs.drop 64).take 32) (by simp; omega)
    (holdsAt_take s _ 32 _ (holdsAt_drop s _ 2 bs h)) (by omega)
  have h3 := readFp2_of_holdsAt s (j.toNat + 3) ((bs.drop 96).take 32) (by simp; omega)
    (holdsAt_take s _ 32 _ (holdsAt_drop s _ 3 bs h)) (by omega)
  simp [readPt, h0, h1, h2, h3, bind, Except.bind, pure, Except.pure, ptOfBytes]

/-- A Raw operand is the integer of a slot (30_encoding.md R95). -/
theorem readRaw_of_holdsAt (s : State) (j : Slot) (bs : List Byte) (hl : bs.length = 32) (h : holdsAt s j.toNat bs) :
    readRaw s j.toNat = .ok (leNat bs) := by
  have hr := readBytes_of_holdsAt s j.toNat bs h (by have := slot_in_range j; omega)
  rw [hl] at hr
  simp [readRaw, hr, bind, Except.bind, pure, Except.pure]

/-- A scalar operand is the integer of a slot modulo N (30_encoding.md R94). -/
theorem readSc_of_holdsAt (s : State) (j : Slot) (bs : List Byte) (hl : bs.length = 32) (h : holdsAt s j.toNat bs) :
    readSc s j.toNat = .ok (leNat bs % Config.curve.n) := by
  have hr := readBytes_of_holdsAt s j.toNat bs h (by have := slot_in_range j; omega)
  rw [hl] at hr
  simp [readSc, hr, bind, Except.bind, pure, Except.pure]

theorem hostSideKept_complete (w : Word) (rc : Rc) (s : State) : HostSideKept s (complete w rc s) := by
  constructor <;> simp

theorem hostSideKept_raiseFault (c : Cause) (w : Word) (s : State) : HostSideKept s (raiseFault c w s) := by
  constructor <;> rfl

/-- FAULT_INFO is FAULT_CP in bits 15:8 and CAUSE in bits 7:0 (10_state.md R26). -/
theorem faultInfoWord_toNat (cp c : BitVec 8) : (faultInfoWord cp c).toNat = 256 * cp.toNat + c.toNat := by
  have h1 := cp.isLt
  have h2 := c.isLt
  have h3 : (faultInfoWord cp c).toNat = (0 <<< 8 ||| cp.toNat) <<< 8 ||| c.toNat := by
    simp only [faultInfoWord, BitVec.toNat_append]; rfl
  rw [h3, Nat.zero_shiftLeft, Nat.zero_or, ← Nat.shiftLeft_add_eq_or_of_lt h2, Nat.shiftLeft_eq]
  omega

theorem completedAs_complete (w : Word) (rc : Rc) (s : State) : CompletedAs w rc s (complete w rc s) where
  rc := by simp
  sAbsent := by simp only [complete_sAbsent]; cases rc <;> rfl
  sDivzero := by simp only [complete_sDivzero]; cases rc <;> rfl
  sInvalid := by simp only [complete_sInvalid]; cases rc <;> rfl
  cmdCount := by simp
  kept := hostSideKept_complete w rc s
  advanced := by
    unfold Advanced complete
    rcases advance_cases w (countCommand (setRc rc s)) with ⟨h, ha⟩ | ⟨h, ha⟩
    · simp only [countCommand_cp, setRc_cp] at h
      rw [ha, if_pos h]
      refine ⟨rfl, rfl, ?_, rfl, by simpa using h⟩
      rw [raiseFault_faultInfo, countCommand_cp, setRc_cp, h]; decide
    · simp only [countCommand_cp, setRc_cp] at h
      rw [ha, if_neg h]
      refine ⟨?_, rfl, rfl, rfl, rfl⟩
      have h1 : s.cp.toNat ≠ 255 := fun h2 => h (BitVec.eq_of_toNat_eq (by simpa using h2))
      have h2 := s.cp.isLt
      simp only [countCommand_cp, setRc_cp, BitVec.toNat_add]
      simp; omega

/-- A command that ends with a result completes with OK and writes it, and nothing else changes. -/
theorem retire_wrote (w : Word) (s : State) (j : Nat) (bs : List Byte) (h : slotAddr j + bs.length ≤ opRamSize) :
    ∃ t, retire w s (.ok (.wrote j bs)) = .next t ∧ CompletedAs w .ok s t ∧ WroteAt s t j bs := by
  refine ⟨complete w .ok (writeSlots j bs s), if_pos h, ?_, ?_, ?_⟩
  · have c := completedAs_complete w .ok (writeSlots j bs s)
    exact ⟨c.rc, c.sAbsent, c.sDivzero, c.sInvalid, c.cmdCount, c.advanced,
      ⟨c.kept.ieDone, c.kept.ieFault, c.kept.werr, c.kept.donePend, c.kept.cmdRam, c.kept.inputs, c.kept.reply,
        c.kept.freeCount⟩⟩
  · intro k hk
    simp only [complete_opRam, writeSlots_opRam]
    exact Memory.read_writeBytes_inside _ _ _ _ hk
  · intro a ha
    simp only [complete_opRam, writeSlots_opRam]
    exact Memory.read_writeBytes_outside _ _ _ _ ha

/-- A command that ends with a code and no result completes with the code and writes nothing. -/
theorem retire_silent (w : Word) (s : State) (rc : Rc) :
    ∃ t, retire w s (.ok (.silent rc)) = .next t ∧ CompletedAs w rc s t ∧ t.opRam = s.opRam :=
  ⟨complete w rc s, rfl, completedAs_complete w rc s, by simp⟩

/-- Fault entry writes the four fault fields and leaves the rest (60_exceptions.md R290, R292). -/
theorem faultEntered_raiseFault (c : Cause) (w : Word) (s : State) :
    FaultEntered c.code.toNat w s (raiseFault c w s) where
  state := rfl
  faultPend := rfl
  faultInfo := by rw [raiseFault_faultInfo, faultInfoWord_toNat]
  faultCmd := rfl
  cp := rfl
  rc := rfl
  sAbsent := rfl
  sDivzero := rfl
  sInvalid := rfl
  cmdCount := rfl
  opRam := rfl
  kept := hostSideKept_raiseFault c w s

/-- The fetch at CP answers the word the command RAM holds there. -/
theorem fetch_of_commandAt (s : State) (w : Word) (h : commandAt s w) : fetch s = .ok (wordBytes w) := by
  unfold fetch
  rw [(Memory.readBytes_eq_some _ _ _ _).2 ⟨wordBytes_length w, h⟩]

/-- In the state withFetchWord makes, the command at CP is the low `nbits` bits of w. -/
theorem commandAt_withFetchWord (s : State) (nbits w : Nat) :
    commandAt (s.withFetchWord nbits w) (BitVec.ofNat 32 (w % 2 ^ nbits)) := by
  intro k hk
  have h : wordBytes (BitVec.ofNat 32 (w % 2 ^ nbits)) = toLE 4 (w % 2 ^ nbits) := by
    have h1 := toLE_leNat (toLE 4 (w % 2 ^ nbits))
    rw [toLE_length, leNat_toLE] at h1
    simp only [wordBytes, BitVec.toNat_ofNat]
    exact h1
  rw [h]
  exact Memory.read_writeBytes_inside _ _ _ _ (by simpa using hk)

end Sys2Proof.Machine
end

