-- ==== Sys2Proof/Laws/Operands.lean ====
section
/-! SUPPORT. What each operand read can do, said once: every byte it covers was written and it answers a value, or one was
not and it answers the model fault of 93_implementation_defined.md I1. And how long the bytes of an encoding are. -/

namespace Sys2Proof.Machine

/-- The read r covers the n bytes from address a on: all written and r answers, or one unwritten and r is the model
fault. -/
def ReadsOrStops {α : Type} (s : State) (a n : Nat) (r : Except Fault α) : Prop :=
  ((∀ k, k < n → s.opRam.read (a + k) ≠ none) ∧ ∃ v, r = .ok v) ∨
  ((∃ k, k < n ∧ s.opRam.read (a + k) = none) ∧ r = .error .unwrittenOperand)

theorem memRead_cases (s : State) (a n : Nat) (ha : a + n ≤ opRamSize) : ReadsOrStops s a n (memRead s a n) := by
  by_cases h : ∃ k, k < n ∧ s.opRam.read (a + k) = none
  · exact .inr ⟨h, memRead_unwritten s a n ha h⟩
  · have hw : ∀ k, k < n → s.opRam.read (a + k) ≠ none := fun k hk hn => h ⟨k, hk, hn⟩
    cases hr : s.opRam.readBytes a n with
    | none => exact absurd ((Memory.readBytes_eq_none s.opRam a n).1 hr) h
    | some bs => exact .inl ⟨hw, bs, by simp [memRead, ha, hr]⟩

/-- A byte read that answers, answers as many bytes as it was asked for. -/
theorem readBytes_length (s : State) (j n : Nat) (bs : List Byte) (h : readBytes s j n = .ok bs) : bs.length = n :=
  ((memRead_eq_ok s (slotAddr j) n bs).1 h).2.1

/-- A value made from a read covers the same bytes. -/
theorem ReadsOrStops.map {α β : Type} {s : State} {a n : Nat} {r : Except Fault α} (f : α → β)
    (h : ReadsOrStops s a n r) : ReadsOrStops s a n (do let v ← r; return f v) := by
  rcases h with ⟨h, v, rfl⟩ | ⟨h, rfl⟩
  · exact .inl ⟨h, f v, rfl⟩
  · exact .inr ⟨h, rfl⟩

/-- Two reads of neighbouring bytes, one after the other, cover both. -/
theorem ReadsOrStops.append {α β : Type} {s : State} {a m n : Nat} {r : Except Fault α} {q : α → Except Fault β}
    (h : ReadsOrStops s a m r) (h' : ∀ v, ReadsOrStops s (a + m) n (q v)) : ReadsOrStops s a (m + n) (r >>= q) := by
  rcases h with ⟨h, v, rfl⟩ | ⟨⟨k, hk, hn⟩, rfl⟩
  · rcases h' v with ⟨h2, w, hw⟩ | ⟨⟨k, hk, hn⟩, hw⟩
    · refine .inl ⟨fun k hk => ?_, w, hw⟩
      by_cases hm : k < m
      · exact h k hm
      · have := h2 (k - m) (by omega)
        rwa [show a + m + (k - m) = a + k by omega] at this
    · exact .inr ⟨⟨m + k, by omega, by rwa [← Nat.add_assoc]⟩, hw⟩
  · exact .inr ⟨⟨k, by omega, hn⟩, rfl⟩

theorem readBytes_cases (s : State) (j n : Nat) (h : slotAddr j + n ≤ opRamSize) :
    ReadsOrStops s (slotAddr j) n (readBytes s j n) := memRead_cases s (slotAddr j) n h

theorem readFp_cases (s : State) (j : Slot) : ReadsOrStops s (slotAddr j.toNat) 16 (readFp s j.toNat) :=
  (readBytes_cases s j.toNat 16 (by have := slot_in_range j; omega)).map _

theorem readFp2_cases (s : State) (j : Nat) (h : j ≤ 255) : ReadsOrStops s (slotAddr j) 32 (readFp2 s j) :=
  (readBytes_cases s j 32 (by simp only [slotAddr, opRamSize]; omega)).map _

theorem readRaw_cases (s : State) (j : Slot) : ReadsOrStops s (slotAddr j.toNat) 32 (readRaw s j.toNat) :=
  (readBytes_cases s j.toNat 32 (slot_in_range j)).map _

theorem readSc_cases (s : State) (j : Slot) : ReadsOrStops s (slotAddr j.toNat) 32 (readSc s j.toNat) :=
  (readBytes_cases s j.toNat 32 (slot_in_range j)).map _

theorem readWide_cases (s : State) (j : Slot) (h : fits .wide j = true) :
    ReadsOrStops s (slotAddr j.toNat) 64 (readWide s j.toNat) :=
  (readBytes_cases s j.toNat 64 (fits_in_range .wide j h)).map _

theorem readPt_cases (s : State) (j : Slot) (h : fits .pt j = true) :
    ReadsOrStops s (slotAddr j.toNat) 128 (readPt s j.toNat) := by
  have hj : j.toNat ≤ 252 := by
    have : j.toNat + 4 - 1 ≤ 255 := by simpa [fits, OperandType.span] using h
    omega
  have hs : ∀ m, slotAddr (j.toNat + m) = slotAddr j.toNat + 32 * m := fun m => by simp only [slotAddr]; omega
  refine (readFp2_cases s j.toNat (by omega)).append (m := 32) (n := 96) fun x => ?_
  refine ReadsOrStops.append (m := 32) (n := 64) ?_ fun y => ?_
  · simpa [hs] using readFp2_cases s (j.toNat + 1) (by omega)
  refine ReadsOrStops.append (m := 32) (n := 32) ?_ fun z => ?_
  · simpa [hs] using readFp2_cases s (j.toNat + 2) (by omega)
  · simpa [hs] using (readFp2_cases s (j.toNat + 3) (by omega)).map _

/-- A result that fits in the operand RAM, a code and a fault all end the command in a next state. -/
theorem retire_next (w : Word) (s : State) (e : Effect)
    (h : ∀ j bs, e = .wrote j bs → slotAddr j + bs.length ≤ opRamSize) : ∃ t, retire w s (.ok e) = .next t := by
  cases e with
  | wrote j bs => exact ⟨_, if_pos (h j bs rfl)⟩
  | silent rc => exact ⟨_, rfl⟩
  | raised c => exact ⟨_, rfl⟩

/-- The bytes of KEY_PUB and of R are 32, whether the point has an affine form or not. -/
theorem encodeMultiple_length (c : Curve) (k : Nat) : (encodeMultiple c k).length = 32 := by
  unfold encodeMultiple
  split
  · rename_i E h
    unfold ptEncode at h
    cases hp : ptAffine (ptMul c (ptBase c) k) with
    | none => simp [hp, bind, Option.bind] at h
    | some q => simp [hp, bind, Option.bind, setTopBit] at h; subst h; simp
  · simp

end Sys2Proof.Machine
end

