-- ==== Sys2Proof/Laws/PerInstr.lean ====
section
/-! SUPPORT. What holds of every command as syntax, one lemma per constructor of Instr. -/

namespace Sys2Proof.Laws.OneRow

/-- The opcode of the command's word stands in exactly one row of the opcode map (30_encoding.md R84). -/
def Statement (i : Instr) : Prop := (opcodeMap.filter fun r => r.op == opField (encode i)).length = 1

theorem halt : Statement .halt := by
  simp only [Statement, encode, opField_packWord]; decide

theorem nop : Statement .nop := by
  simp only [Statement, encode, opField_packWord]; decide

theorem mov (rd rs1 : Slot) : Statement (.mov rd rs1) := by
  simp only [Statement, encode, opField_packWord]; decide

theorem fpMul (rd rs1 rs2 : Slot) : Statement (.fpMul rd rs1 rs2) := by
  simp only [Statement, encode, opField_packWord]; decide

theorem fpSqr (rd rs1 : Slot) : Statement (.fpSqr rd rs1) := by
  simp only [Statement, encode, opField_packWord]; decide

theorem fp2Mul (rd rs1 rs2 : Slot) : Statement (.fp2Mul rd rs1 rs2) := by
  simp only [Statement, encode, opField_packWord]; decide

theorem fp2Sqr (rd rs1 : Slot) : Statement (.fp2Sqr rd rs1) := by
  simp only [Statement, encode, opField_packWord]; decide

theorem fpRed (rd rs1 : Slot) : Statement (.fpRed rd rs1) := by
  simp only [Statement, encode, opField_packWord]; decide

theorem fpAdd (rd rs1 rs2 : Slot) : Statement (.fpAdd rd rs1 rs2) := by
  simp only [Statement, encode, opField_packWord]; decide

theorem fpSub (rd rs1 rs2 : Slot) : Statement (.fpSub rd rs1 rs2) := by
  simp only [Statement, encode, opField_packWord]; decide

theorem fpNeg (rd rs1 : Slot) : Statement (.fpNeg rd rs1) := by
  simp only [Statement, encode, opField_packWord]; decide

theorem fpHalf (rd rs1 : Slot) : Statement (.fpHalf rd rs1) := by
  simp only [Statement, encode, opField_packWord]; decide

theorem fp2Add (rd rs1 rs2 : Slot) : Statement (.fp2Add rd rs1 rs2) := by
  simp only [Statement, encode, opField_packWord]; decide

theorem fp2Sub (rd rs1 rs2 : Slot) : Statement (.fp2Sub rd rs1 rs2) := by
  simp only [Statement, encode, opField_packWord]; decide

theorem fp2Neg (rd rs1 : Slot) : Statement (.fp2Neg rd rs1) := by
  simp only [Statement, encode, opField_packWord]; decide

theorem fp2Half (rd rs1 : Slot) : Statement (.fp2Half rd rs1) := by
  simp only [Statement, encode, opField_packWord]; decide

theorem fpInv (rd rs1 : Slot) : Statement (.fpInv rd rs1) := by
  simp only [Statement, encode, opField_packWord]; decide

theorem fpSqrt (rd rs1 : Slot) : Statement (.fpSqrt rd rs1) := by
  simp only [Statement, encode, opField_packWord]; decide

theorem fp2Inv (rd rs1 : Slot) : Statement (.fp2Inv rd rs1) := by
  simp only [Statement, encode, opField_packWord]; decide

theorem fp2Sqrt (rd rs1 : Slot) : Statement (.fp2Sqrt rd rs1) := by
  simp only [Statement, encode, opField_packWord]; decide

theorem scRed32 (rd rs1 : Slot) : Statement (.scRed32 rd rs1) := by
  simp only [Statement, encode, opField_packWord]; decide

theorem scRed64 (rd rs1 : Slot) : Statement (.scRed64 rd rs1) := by
  simp only [Statement, encode, opField_packWord]; decide

theorem scAdd (rd rs1 rs2 : Slot) : Statement (.scAdd rd rs1 rs2) := by
  simp only [Statement, encode, opField_packWord]; decide

theorem scSub (rd rs1 rs2 : Slot) : Statement (.scSub rd rs1 rs2) := by
  simp only [Statement, encode, opField_packWord]; decide

theorem scMul (rd rs1 rs2 : Slot) : Statement (.scMul rd rs1 rs2) := by
  simp only [Statement, encode, opField_packWord]; decide

theorem scInv (rd rs1 : Slot) : Statement (.scInv rd rs1) := by
  simp only [Statement, encode, opField_packWord]; decide

theorem ptAdd (rd rs1 rs2 : Slot) : Statement (.ptAdd rd rs1 rs2) := by
  simp only [Statement, encode, opField_packWord]; decide

theorem ptNeg (rd rs1 : Slot) : Statement (.ptNeg rd rs1) := by
  simp only [Statement, encode, opField_packWord]; decide

theorem ptEq (rd rs1 rs2 : Slot) : Statement (.ptEq rd rs1 rs2) := by
  simp only [Statement, encode, opField_packWord]; decide

theorem ptOncurve (rd rs1 : Slot) : Statement (.ptOncurve rd rs1) := by
  simp only [Statement, encode, opField_packWord]; decide

theorem ptLdid (rd : Slot) : Statement (.ptLdid rd) := by
  simp only [Statement, encode, opField_packWord]; decide

theorem ptLdb (rd : Slot) : Statement (.ptLdb rd) := by
  simp only [Statement, encode, opField_packWord]; decide

theorem ptDbl (rd rs1 : Slot) : Statement (.ptDbl rd rs1) := by
  simp only [Statement, encode, opField_packWord]; decide

theorem ptMul (rd rs1 rs2 : Slot) : Statement (.ptMul rd rs1 rs2) := by
  simp only [Statement, encode, opField_packWord]; decide

theorem fp2Sign (rd rs1 : Slot) : Statement (.fp2Sign rd rs1) := by
  simp only [Statement, encode, opField_packWord]; decide

theorem ptEnc (rd rs1 : Slot) : Statement (.ptEnc rd rs1) := by
  simp only [Statement, encode, opField_packWord]; decide

theorem ptDec (rd rs1 : Slot) : Statement (.ptDec rd rs1) := by
  simp only [Statement, encode, opField_packWord]; decide

theorem ptChkenc (rd rs1 : Slot) : Statement (.ptChkenc rd rs1) := by
  simp only [Statement, encode, opField_packWord]; decide

theorem seedStrict (rd rs1 : Slot) (l : Byte) : Statement (.seedStrict rd rs1 l) := by
  simp only [Statement, encode, opField_packWord]; decide

theorem seedTry (rd rs1 : Slot) (l : Byte) : Statement (.seedTry rd rs1 l) := by
  simp only [Statement, encode, opField_packWord]; decide

theorem keyPriv (rd rs1 : Slot) : Statement (.keyPriv rd rs1) := by
  simp only [Statement, encode, opField_packWord]; decide

theorem keyPub (rd rs1 : Slot) : Statement (.keyPub rd rs1) := by
  simp only [Statement, encode, opField_packWord]; decide

theorem sign (rd rs1 rs2 : Slot) : Statement (.sign rd rs1 rs2) := by
  simp only [Statement, encode, opField_packWord]; decide

theorem verify (rd rs1 rs2 : Slot) : Statement (.verify rd rs1 rs2) := by
  simp only [Statement, encode, opField_packWord]; decide

end Sys2Proof.Laws.OneRow
end

