-- ==== Sys2Proof/Tests/Slice0.lean ====
section
/-! SUPPORT. Tests against the spec's own words and vectors (95_test_vectors.md, cited by section), the smoke tests of
WellFormed, and for every statement with hypotheses a concrete state and operands that meet them. -/

namespace Sys2Proof.Tests

set_option Elab.async false

open Sys2Proof.Machine

/-! ## Helpers -/

/-- The bytes from an address on, as cells of a RAM. -/
def cellsFrom (a : Nat) : List Byte → Memory
  | [] => []
  | b :: bs => (a, b) :: cellsFrom (a + 1) bs

/-- The machine right after reset but BUSY, with these bytes in the operand RAM from these slots on, the slots rising. -/
def holding (parts : List (Nat × List Byte)) : State :=
  { State.reset with state := .busy, opRam := parts.flatMap fun c => cellsFrom (slotAddr c.1) c.2 }

/-- The next state of a result, if it has one. -/
def nextOf : Result → Option State
  | .next t => some t
  | .fault _ => none
  | .refused _ => none

theorem next_of_isSome (r : Result) (h : (nextOf r).isSome = true) : ∃ t, r = .next t := by
  cases r with
  | next t => exact ⟨t, rfl⟩
  | fault f => simp [nextOf] at h
  | refused r => simp [nextOf] at h

/-- The slot j of the next state. -/
def slotOf (r : Result) (j : Nat) : Option (List Byte) := (nextOf r).bind fun t => t.opRam.readBytes (slotAddr j) 32

/-- The n bytes from slot j on of the next state. -/
def bytesOf (r : Result) (j n : Nat) : Option (List Byte) := (nextOf r).bind fun t => t.opRam.readBytes (slotAddr j) n

/-- The result code of the next state. -/
def codeOf (r : Result) : Option Rc := (nextOf r).map State.rc

/-- The state after reset with one event from outside pending. -/
def facing (e : HostEvent) : State := { State.reset with inputs := [e] }

/-- Canonical values of 95_test_vectors.md, section 3. -/
def vA : Nat := 0x0123456789ABCDEF0123456789ABCDEF
def vB : Nat := 0x0FEDCBA9876543210FEDCBA987654321

/-- Bytes first, first + 1, … -/
def rising (first n : Nat) : List Byte := (List.range n).map fun k => BitVec.ofNat 8 (first + k)

/-- The bytes of the base point and of its double (95_test_vectors.md, section 4). -/
def baseBytes : List Byte := ptBytes (ptBase Config.curve)

def doubleBytes : List Byte :=
  toLE 16 0x4FA1B01A82D09CC90CA6F6DEC3E636A1 ++ toLE 16 0x19424D35305AE84F728365DF7F405266 ++
  toLE 16 0x65F2516BA0E02CCCF47007B7B1D8A0C6 ++ toLE 16 0x33BB5A78B35F190B3A63A823ED4668A7 ++
  toLE 16 0x12FA9AC4E92E2CAF8CBB4426EBE92949 ++ toLE 16 0x710B1F3406720A0A6008C7981807E885 ++
  toLE 16 0x127B50415B0D80176C56935671F356FE ++ toLE 16 0x58E901C08B6456F20FE60BE5A109ADAE

def sumBytes : List Byte :=
  toLE 16 0x305E4FE57D2F6336F35909213C19C95E ++ toLE 16 0x66BDB2CACFA517B08D7C9A2080BFAD99 ++
  toLE 16 0x1A0DAE945F1FD3330B8FF8484E275F39 ++ toLE 16 0x4C44A5874CA0E6F4C59C57DC12B99758 ++
  toLE 16 0x6D05653B16D1D3507344BBD91416D6B6 ++ toLE 16 0x0EF4E0CBF98DF5F59FF73867E7F8177A ++
  toLE 16 0x6D84AFBEA4F27FE893A96CA98E0CA901 ++ toLE 16 0x2716FE3F749BA90DF019F41A5EF65251

/-- The encoding of the base point (95_test_vectors.md, section 5). -/
def baseEncoding : List Byte :=
  toLE 32 0x6E1C4AF8630E024249A7C344844C8B5C0E3FEE9BA120785AB924A2462BCBB287

/-- The encodings of 5·B and 7·B (95_test_vectors.md, section 5). -/
def fiveEncoding : List Byte :=
  [0x82, 0x20, 0x69, 0x25, 0xC5, 0x55, 0x4B, 0xFF, 0xF0, 0x43, 0xA6, 0xCC, 0xC9, 0x19, 0x74, 0x64, 0xE9, 0xB9, 0x5F, 0xF2,
   0x27, 0x17, 0x1A, 0x3E, 0x09, 0x68, 0x74, 0xE4, 0xF3, 0x81, 0xF5, 0x85]

def sevenEncoding : List Byte :=
  [0xBC, 0xCA, 0x9F, 0x05, 0x89, 0xD3, 0xA9, 0x9C, 0x48, 0x87, 0x2F, 0xBC, 0x12, 0x57, 0xC8, 0x59, 0xC5, 0x1E, 0x3C, 0x79,
   0xC4, 0x68, 0xFF, 0x1F, 0xB5, 0xE2, 0x8C, 0x4B, 0x47, 0x33, 0x9B, 0x2A]

/-! ## Decoding: one word of every row, its fields written from 30_encoding.md R80 and R84 -/

theorem test_decode_halt : decode 0x00000000 = .ok .halt := rfl
theorem test_decode_nop : decode 0x01000000 = .ok .nop := rfl
theorem test_decode_mov : decode 0x02123400 = .ok (.mov 0x12 0x34) := rfl
theorem test_decode_fpMul : decode 0x10123456 = .ok (.fpMul 0x12 0x34 0x56) := rfl
theorem test_decode_fpSqr : decode 0x11123400 = .ok (.fpSqr 0x12 0x34) := rfl
theorem test_decode_fp2Mul : decode 0x12123456 = .ok (.fp2Mul 0x12 0x34 0x56) := rfl
theorem test_decode_fp2Sqr : decode 0x13123400 = .ok (.fp2Sqr 0x12 0x34) := rfl
theorem test_decode_fpRed : decode 0x20123400 = .ok (.fpRed 0x12 0x34) := rfl
theorem test_decode_fpAdd : decode 0x21123456 = .ok (.fpAdd 0x12 0x34 0x56) := rfl
theorem test_decode_fpSub : decode 0x22123456 = .ok (.fpSub 0x12 0x34 0x56) := rfl
theorem test_decode_fpNeg : decode 0x23123400 = .ok (.fpNeg 0x12 0x34) := rfl
theorem test_decode_fpHalf : decode 0x24123400 = .ok (.fpHalf 0x12 0x34) := rfl
theorem test_decode_fp2Add : decode 0x25123456 = .ok (.fp2Add 0x12 0x34 0x56) := rfl
theorem test_decode_fp2Sub : decode 0x26123456 = .ok (.fp2Sub 0x12 0x34 0x56) := rfl
theorem test_decode_fp2Neg : decode 0x27123400 = .ok (.fp2Neg 0x12 0x34) := rfl
theorem test_decode_fp2Half : decode 0x28123400 = .ok (.fp2Half 0x12 0x34) := rfl
theorem test_decode_fpInv : decode 0x30123400 = .ok (.fpInv 0x12 0x34) := rfl
theorem test_decode_fpSqrt : decode 0x31123400 = .ok (.fpSqrt 0x12 0x34) := rfl
theorem test_decode_fp2Inv : decode 0x32123400 = .ok (.fp2Inv 0x12 0x34) := rfl
theorem test_decode_fp2Sqrt : decode 0x33123400 = .ok (.fp2Sqrt 0x12 0x34) := rfl
theorem test_decode_scRed32 : decode 0x38123400 = .ok (.scRed32 0x12 0x34) := rfl
theorem test_decode_scRed64 : decode 0x39123400 = .ok (.scRed64 0x12 0x34) := rfl
theorem test_decode_scAdd : decode 0x3A123456 = .ok (.scAdd 0x12 0x34 0x56) := rfl
theorem test_decode_scSub : decode 0x3B123456 = .ok (.scSub 0x12 0x34 0x56) := rfl
theorem test_decode_scMul : decode 0x3C123456 = .ok (.scMul 0x12 0x34 0x56) := rfl
theorem test_decode_scInv : decode 0x3D123400 = .ok (.scInv 0x12 0x34) := rfl
theorem test_decode_ptAdd : decode 0x40123456 = .ok (.ptAdd 0x12 0x34 0x56) := rfl
theorem test_decode_ptNeg : decode 0x41123400 = .ok (.ptNeg 0x12 0x34) := rfl
theorem test_decode_ptEq : decode 0x42123456 = .ok (.ptEq 0x12 0x34 0x56) := rfl
theorem test_decode_ptOncurve : decode 0x43123400 = .ok (.ptOncurve 0x12 0x34) := rfl
theorem test_decode_ptLdid : decode 0x44120000 = .ok (.ptLdid 0x12) := rfl
theorem test_decode_ptLdb : decode 0x45120000 = .ok (.ptLdb 0x12) := rfl
theorem test_decode_ptDbl : decode 0x50123400 = .ok (.ptDbl 0x12 0x34) := rfl
theorem test_decode_ptMul : decode 0x51123456 = .ok (.ptMul 0x12 0x34 0x56) := rfl
theorem test_decode_fp2Sign : decode 0x60123400 = .ok (.fp2Sign 0x12 0x34) := rfl
theorem test_decode_ptEnc : decode 0x61123400 = .ok (.ptEnc 0x12 0x34) := rfl
theorem test_decode_ptDec : decode 0x70123400 = .ok (.ptDec 0x12 0x34) := rfl
theorem test_decode_ptChkenc : decode 0x71123400 = .ok (.ptChkenc 0x12 0x34) := rfl
theorem test_decode_seedStrict : decode 0x80123456 = .ok (.seedStrict 0x12 0x34 0x56) := rfl
theorem test_decode_seedTry : decode 0x81123456 = .ok (.seedTry 0x12 0x34 0x56) := rfl
theorem test_decode_keyPriv : decode 0x82123400 = .ok (.keyPriv 0x12 0x34) := rfl
theorem test_decode_keyPub : decode 0x83123400 = .ok (.keyPub 0x12 0x34) := rfl
theorem test_decode_sign : decode 0x84123456 = .ok (.sign 0x12 0x34 0x56) := rfl
theorem test_decode_verify : decode 0x90123456 = .ok (.verify 0x12 0x34 0x56) := rfl

/-- 95_test_vectors.md, section 8: legal words at the ends of the slot range. -/
theorem test_decode_range_ends :
    decode 0x45FC0000 = .ok (.ptLdb 252) ∧ decode 0x12FF0203 = .ok (.fp2Mul 255 2 3) ∧
      decode 0x810A0837 = .ok (.seedTry 10 8 55) ∧ decode 0x80040036 = .ok (.seedStrict 4 0 54) := ⟨rfl, rfl, rfl, rfl⟩

/-- 95_test_vectors.md, section 8: opcodes not in the map, one with an operand out of range too. -/
theorem test_decode_illegal_opcode :
    decode 0x03000000 = .error .illegalOpcode ∧ decode 0xFF000000 = .error .illegalOpcode ∧
      decode 0x03FD0000 = .error .illegalOpcode := ⟨rfl, rfl, rfl⟩

/-- 95_test_vectors.md, section 8: nonzero unused fields, the last with an operand out of range too. -/
theorem test_decode_reserved_field :
    decode 0x00000001 = .error .reservedField ∧ decode 0x11020301 = .error .reservedField ∧
      decode 0x44000100 = .error .reservedField ∧ decode 0x45FD0001 = .error .reservedField := ⟨rfl, rfl, rfl, rfl⟩

/-- 95_test_vectors.md, section 8: operands that run past slot 255. -/
theorem test_decode_slot_range :
    decode 0x45FD0000 = .error .slotRange ∧ decode 0x39FFFF00 = .error .slotRange ∧
      decode 0x40FD0000 = .error .slotRange ∧ decode 0x90FF00FF = .error .slotRange := ⟨rfl, rfl, rfl, rfl⟩

/-- The word of P1's first command, as the opcode table numbers its bits, and an illegal one. -/
theorem test_decodeTableWord :
    decodeTableWord 32 0x10040001 = some (.fpMul 4 0 1) ∧ decodeTableWord 32 0x03000000 = none := ⟨rfl, rfl⟩

/-! ## WellFormed refuses an operand that does not fit, for each span and each field -/

theorem test_wellFormed_refuses_rd :
    (Instr.ptAdd 253 0 0).wellFormed = false ∧ (Instr.ptNeg 253 0).wellFormed = false ∧
      (Instr.ptLdid 253).wellFormed = false ∧ (Instr.ptLdb 253).wellFormed = false ∧
      (Instr.ptDbl 255 0).wellFormed = false ∧ (Instr.ptMul 253 0 0).wellFormed = false ∧
      (Instr.ptDec 254 0).wellFormed = false ∧ (Instr.sign 255 0 0).wellFormed = false := by decide

theorem test_wellFormed_refuses_rs1 :
    (Instr.scRed64 0 255).wellFormed = false ∧ (Instr.ptAdd 0 253 0).wellFormed = false ∧
      (Instr.ptNeg 0 253).wellFormed = false ∧ (Instr.ptEq 0 253 0).wellFormed = false ∧
      (Instr.ptOncurve 0 253).wellFormed = false ∧ (Instr.ptDbl 0 253).wellFormed = false ∧
      (Instr.ptMul 0 253 0).wellFormed = false ∧ (Instr.ptEnc 0 254).wellFormed = false ∧
      (Instr.seedStrict 0 255 55).wellFormed = false ∧ (Instr.seedTry 0 255 55).wellFormed = false ∧
      (Instr.sign 0 255 0).wellFormed = false ∧ (Instr.verify 0 255 0).wellFormed = false := by decide

theorem test_wellFormed_refuses_rs2 :
    (Instr.ptAdd 0 0 253).wellFormed = false ∧ (Instr.ptEq 0 0 255).wellFormed = false ∧
      (Instr.verify 0 0 255).wellFormed = false := by decide

theorem test_wellFormed_admits_the_ends :
    (Instr.mov 255 255).wellFormed = true ∧ (Instr.ptAdd 252 252 252).wellFormed = true ∧
      (Instr.scRed64 255 254).wellFormed = true ∧ (Instr.seedTry 255 254 0).wellFormed = true ∧
      (Instr.sign 254 254 255).wellFormed = true ∧ (Instr.verify 255 254 254).wellFormed = true := by decide

/-! ## One step of each command (95_test_vectors.md, sections 3 to 9) -/

/-- Section 8: HALT stops at its own index and counts nothing. -/
theorem test_halt :
    (nextOf (exec .halt { holding [] with cp := 7 })).map (fun t => (t.state, t.donePend, t.cp, t.cmdCount)) =
      some (.halted, true, 7, 0) := by decide +kernel

/-- Section 8: NOP goes on to the next index. -/
theorem test_nop :
    (nextOf (exec .nop { holding [] with cp := 7, rc := .absent })).map (fun t => (t.state, t.rc, t.cp, t.cmdCount)) =
      some (.busy, .ok, 8, 1) := by decide +kernel

/-- Program P6: NOP at index 255 completes and CMD_OVERRUN is raised. -/
theorem test_nop_overrun :
    (nextOf (exec .nop { holding [] with cp := 255 })).map (fun t =>
      (statusWord t, t.cp, t.cmdCount, t.faultInfo, t.faultCmd)) =
      some (0x0000000B, 255, 1, 0x0000FF05, 0x01000000) := by decide +kernel

/-- Section 8: MOV copies a slot unchanged. -/
theorem test_mov : slotOf (exec (.mov 5 1) (holding [(1, rising 0xE0 32)])) 5 = some (rising 0xE0 32) := by decide +kernel

/-- 30_encoding.md R99: a source that is also the destination. -/
theorem test_mov_onto_itself :
    slotOf (exec (.mov 255 255) (holding [(255, rising 0xE0 32)])) 255 = some (rising 0xE0 32) := by decide +kernel

theorem test_fpMul :
    slotOf (exec (.fpMul 1 9 20) (holding [(9, fpBytes vA), (20, fpBytes vB)])) 1 =
      some (fpBytes 0x447D39F21D32A9FA66B2C71B2660403D) := by decide +kernel

/-- The source is also the destination: 2^126 · 2^126 = 2^252 = 2^125 modulo p. -/
theorem test_fpMul_in_place :
    slotOf (exec (.fpMul 1 1 1) (holding [(1, fpBytes (2 ^ 126))])) 1 = some (fpBytes (2 ^ 125)) := by decide +kernel

theorem test_fpSqr :
    slotOf (exec (.fpSqr 1 9) (holding [(9, fpBytes vA)])) 1 =
      some (fpBytes 0x394FA645B6812E4895F6D3B523A7CA16) := by decide +kernel

theorem test_fpSqr_upper_half_not_read :
    slotOf (exec (.fpSqr 1 9) (holding [(9, toLE 32 (2 ^ 64 + 2 ^ 200))])) 1 =
      some (fpBytes 2) := by decide +kernel

theorem test_fp2Mul :
    slotOf (exec (.fp2Mul 1 9 20) (holding [(9, fp2ToBytes ⟨vA, vB⟩), (20, fp2ToBytes ⟨vB, vA⟩)])) 1 =
      some (fp2ToBytes ⟨0, 0x5606AF612D2457DB008A83FE09B81A44⟩) := by decide +kernel

theorem test_fp2Sqr :
    slotOf (exec (.fp2Sqr 1 9) (holding [(9, fp2ToBytes ⟨vA, vB⟩)])) 1 =
      some (fp2ToBytes ⟨0x1C989D2A3FDE04B62B63236C3D9779E8, 0x08FA73E43A6553F4CD658E364CC0807B⟩) := by decide +kernel

theorem test_fpRed :
    slotOf (exec (.fpRed 1 9) (holding [(9, List.replicate 32 0xFF)])) 1 =
      some (fpBytes 3) := by decide +kernel

theorem test_fpRed_of_p :
    slotOf (exec (.fpRed 1 9) (holding [(9, toLE 32 primeP)])) 1 =
      some (fpBytes 0) := by decide +kernel

theorem test_fpAdd :
    slotOf (exec (.fpAdd 1 9 20) (holding [(9, fpBytes vA), (20, fpBytes vB)])) 1 =
      some (fpBytes 0x11111111111111101111111111111110) := by decide +kernel

theorem test_fpAdd_wraps :
    slotOf (exec (.fpAdd 1 9 20) (holding [(9, fpBytes (primeP - 1)), (20, fpBytes 1)])) 1 =
      some (fpBytes 0) := by decide +kernel

theorem test_fpSub :
    slotOf (exec (.fpSub 1 9 20) (holding [(9, fpBytes vA), (20, fpBytes vB)])) 1 =
      some (fpBytes 0x713579BE02468ACDF13579BE02468ACD) := by decide +kernel

theorem test_fpSub_below_zero :
    slotOf (exec (.fpSub 1 9 20) (holding [(9, fpBytes 0), (20, fpBytes 1)])) 1 =
      some (fpBytes 0x7FFFFFFFFFFFFFFFFFFFFFFFFFFFFFFE) := by decide +kernel

theorem test_fpNeg :
    slotOf (exec (.fpNeg 1 9) (holding [(9, fpBytes vA)])) 1 =
      some (fpBytes 0x7EDCBA9876543210FEDCBA9876543210) := by decide +kernel

theorem test_fpNeg_zero :
    slotOf (exec (.fpNeg 1 9) (holding [(9, fpBytes 0)])) 1 =
      some (fpBytes 0) := by decide +kernel

theorem test_fpHalf :
    slotOf (exec (.fpHalf 1 9) (holding [(9, fpBytes vA)])) 1 =
      some (fpBytes 0x4091A2B3C4D5E6F78091A2B3C4D5E6F7) := by decide +kernel

theorem test_fp2Add :
    slotOf (exec (.fp2Add 1 9 20) (holding [(9, fp2ToBytes ⟨primeP - 1, 2⟩), (20, fp2ToBytes ⟨1, primeP - 1⟩)])) 1 =
      some (fp2ToBytes ⟨0, 1⟩) := by decide +kernel

theorem test_fp2Sub :
    slotOf (exec (.fp2Sub 1 9 20) (holding [(9, fp2ToBytes ⟨0, 0⟩), (20, fp2ToBytes ⟨1, 2⟩)])) 1 =
      some (fp2ToBytes ⟨0x7FFFFFFFFFFFFFFFFFFFFFFFFFFFFFFE, 0x7FFFFFFFFFFFFFFFFFFFFFFFFFFFFFFD⟩) := by decide +kernel

theorem test_fp2Neg :
    slotOf (exec (.fp2Neg 1 9) (holding [(9, fp2ToBytes ⟨0, 5⟩)])) 1 =
      some (fp2ToBytes ⟨0, 0x7FFFFFFFFFFFFFFFFFFFFFFFFFFFFFFA⟩) := by decide +kernel

theorem test_fp2Half :
    slotOf (exec (.fp2Half 1 9) (holding [(9, fp2ToBytes ⟨vA, vB⟩)])) 1 =
      some (fp2ToBytes ⟨0x4091A2B3C4D5E6F78091A2B3C4D5E6F7, 0x47F6E5D4C3B2A19087F6E5D4C3B2A190⟩) := by decide +kernel

theorem test_fpInv :
    slotOf (exec (.fpInv 1 9) (holding [(9, fpBytes vA)])) 1 =
      some (fpBytes 0x55B47E9BFDDDDB74AEEB30D9FDDB99B9) := by decide +kernel

theorem test_fpInv_of_p :
    (nextOf (exec (.fpInv 9 1) (holding [(1, toLE 32 primeP), (9, toLE 32 7)]))).map (fun t =>
      (t.rc, t.opRam.readBytes (slotAddr 9) 32)) = some (.divzero, some (toLE 32 7)) := by decide +kernel

theorem test_fpSqrt :
    slotOf (exec (.fpSqrt 1 9) (holding [(9, fpBytes 9)])) 1 =
      some (fpBytes 0x7FFFFFFFFFFFFFFFFFFFFFFFFFFFFFFC) := by decide +kernel

theorem test_fpSqrt_absent :
    (nextOf (exec (.fpSqrt 9 1) (holding [(1, fpBytes vA), (9, toLE 32 7)]))).map (fun t =>
      (t.rc, t.opRam.readBytes (slotAddr 9) 32)) = some (.absent, some (toLE 32 7)) := by decide +kernel

theorem test_fp2Inv :
    slotOf (exec (.fp2Inv 1 9) (holding [(9, fp2ToBytes ⟨vA, vB⟩)])) 1 =
      some (fp2ToBytes ⟨0x323625B94DC9295AEF08249FD521A9E0, 0x04E2E45EA39D823DD4F0D6A111A72895⟩) := by decide +kernel

theorem test_fp2Inv_of_zero :
    (nextOf (exec (.fp2Inv 9 1) (holding [(1, zeroBytes 32), (9, toLE 32 7)]))).map (fun t =>
      (t.rc, t.opRam.readBytes (slotAddr 9) 32)) = some (.divzero, some (toLE 32 7)) := by decide +kernel

theorem test_fp2Sqrt :
    slotOf (exec (.fp2Sqrt 1 9) (holding [(9, fp2ToBytes ⟨3, 0⟩)])) 1 =
      some (fp2ToBytes ⟨0, 0x44CF6FA1D06C8EC1AB1333F2A52F2FEB⟩) := by decide +kernel

theorem test_fp2Sqrt_absent :
    (nextOf (exec (.fp2Sqrt 9 1) (holding [(1, fp2ToBytes ⟨1, 2⟩), (9, toLE 32 7)]))).map (fun t =>
      (t.rc, t.opRam.readBytes (slotAddr 9) 32)) = some (.absent, some (toLE 32 7)) := by decide +kernel

theorem test_scRed32 :
    slotOf (exec (.scRed32 1 9) (holding [(9, rising 0 32)])) 1 =
      some (toLE 32 0x0018E3A3F14E57C9B90BA223BF7A8E7400C7D3297B8DC956A0ABA20BF9056D8E) := by decide +kernel

theorem test_scRed64 :
    slotOf (exec (.scRed64 1 9) (holding [(9, rising 0 64)])) 1 =
      some (toLE 32 0x000606D688B4B39B72FC143C5EFFF91E77655539E1915B918AE56352B01B24A3) := by decide +kernel

theorem test_scAdd :
    slotOf (exec (.scAdd 1 9 20) (holding [(9, rising 0 32), (20, rising 32 32)])) 1 =
      some (toLE 32 0x00281BA6B45EC540A1E3CCE502592822F53E8A6E95531FEBAD3CB4D893F08D79) := by decide +kernel

theorem test_scSub :
    slotOf (exec (.scSub 1 9 20) (holding [(9, zeroBytes 32), (20, toLE 32 1)])) 1 =
      some (toLE 32 0x0029CBC14E5E0A72F05397829CBC14E5DFBD004DFE0F79992FB2540EC7768CE6) := by decide +kernel

theorem test_scMul :
    slotOf (exec (.scMul 1 9 20) (holding [(9, rising 0 32), (20, rising 32 32)])) 1 =
      some (toLE 32 0x002537B334A026B6CDAC8C7E7C4344AF605D5114E2C71D2DE513CD0140BD29A0) := by decide +kernel

theorem test_scInv :
    slotOf (exec (.scInv 1 9) (holding [(9, toLE 32 2)])) 1 =
      some (toLE 32 0x0014E5E0A72F05397829CBC14E5E0A72EFDE8026FF07BCCC97D92A0763BB4674) := by decide +kernel

theorem test_scInv_of_N :
    (nextOf (exec (.scInv 9 1) (holding [(1, toLE 32 Config.curve.n), (9, toLE 32 7)]))).map (fun t =>
      (t.rc, t.opRam.readBytes (slotAddr 9) 32)) = some (.divzero, some (toLE 32 7)) := by decide +kernel

theorem test_ptAdd :
    bytesOf (exec (.ptAdd 0 8 8) (holding [(8, baseBytes)])) 0 128 = some sumBytes := by decide +kernel

/-- Section 4: adding the identity gives the base point back exactly, onto its own slots. -/
theorem test_ptAdd_identity :
    bytesOf (exec (.ptAdd 0 0 4) (holding [(0, baseBytes), (4, ptBytes ptIdentity)])) 0 128 = some baseBytes := by
  decide +kernel

theorem test_ptNeg :
    bytesOf (exec (.ptNeg 1 9) (holding [(9, baseBytes)])) 1 128 =
      some (fp2ToBytes ⟨0x65CB8DDC83D04CFAD79A6D5284C7CC55, 0x61E0AAC0D78755636979604C9F538809⟩ ++
      fp2ToBytes Config.curve.baseY ++ toLE 32 1 ++
      fp2ToBytes ⟨0x4A405E6B804F6EC176B45C9117311BE9, 0x0404BE5C718F895398C3A8B2D693272F⟩) := by decide +kernel

theorem test_ptEq :
    slotOf (exec (.ptEq 1 9 20) (holding [(9, doubleBytes), (20, sumBytes)])) 1 =
      some (boolBytes true) := by decide +kernel

theorem test_ptEq_differs :
    slotOf (exec (.ptEq 1 9 20) (holding [(9, baseBytes), (20, doubleBytes)])) 1 =
      some (boolBytes false) := by decide +kernel

theorem test_ptOncurve :
    slotOf (exec (.ptOncurve 1 9) (holding [(9, baseBytes)])) 1 =
      some (boolBytes true) := by decide +kernel

theorem test_ptOncurve_z_zero :
    slotOf (exec (.ptOncurve 1 9) (holding [(9, zeroBytes 128)])) 1 =
      some (boolBytes false) := by decide +kernel

/-- Section 4: the identity tuple. -/
theorem test_ptLdid :
    bytesOf (exec (.ptLdid 252) (holding [])) 252 128 =
      some (zeroBytes 32 ++ toLE 32 1 ++ toLE 32 1 ++ zeroBytes 32) := by decide +kernel

/-- Section 4: the base point tuple, its T among it. -/
theorem test_ptLdb :
    bytesOf (exec (.ptLdb 252) (holding [])) 252 128 =
      some (toLE 16 0x1A3472237C2FB305286592AD7B3833AA ++ toLE 16 0x1E1F553F2878AA9C96869FB360AC77F6 ++
        toLE 16 0x0E3FEE9BA120785AB924A2462BCBB287 ++ toLE 16 0x6E1C4AF8630E024249A7C344844C8B5C ++ toLE 32 1 ++
        toLE 16 0x35BFA1947FB0913E894BA36EE8CEE416 ++ toLE 16 0x7BFB41A38E7076AC673C574D296CD8D0) := by decide +kernel

theorem test_ptDbl :
    bytesOf (exec (.ptDbl 1 9) (holding [(9, baseBytes)])) 1 128 =
      some (doubleBytes) := by decide +kernel

theorem test_ptMul_by_zero :
    bytesOf (exec (.ptMul 1 9 20) (holding [(9, baseBytes), (20, zeroBytes 32)])) 1 128 =
      some (ptBytes ptIdentity) := by decide +kernel

theorem test_ptMul_by_one :
    bytesOf (exec (.ptMul 1 9 20) (holding [(9, baseBytes), (20, toLE 32 1)])) 1 128 =
      some (baseBytes) := by decide +kernel

theorem test_fp2Sign :
    slotOf (exec (.fp2Sign 1 9) (holding [(9, fp2ToBytes ⟨0, 2 ^ 126⟩)])) 1 =
      some (boolBytes true) := by decide +kernel

theorem test_fp2Sign_real_part_first :
    slotOf (exec (.fp2Sign 1 9) (holding [(9, fp2ToBytes ⟨1, 2 ^ 126⟩)])) 1 =
      some (boolBytes false) := by decide +kernel

theorem test_ptEnc :
    slotOf (exec (.ptEnc 1 9) (holding [(9, doubleBytes)])) 1 =
      some (toLE 32 0x44C04CB98A015452EE7C9525E2919BF82DB3FC78C3D93DFE35A2323D01CB626C) := by decide +kernel

theorem test_ptEnc_z_zero :
    (nextOf (exec (.ptEnc 9 1) (holding [(1, zeroBytes 128), (9, toLE 32 7)]))).map (fun t =>
      (t.rc, t.opRam.readBytes (slotAddr 9) 32)) = some (.divzero, some (toLE 32 7)) := by decide +kernel

theorem test_ptDec :
    bytesOf (exec (.ptDec 1 9) (holding [(9, baseEncoding)])) 1 128 =
      some (baseBytes) := by decide +kernel

theorem test_ptDec_absent :
    (nextOf (exec (.ptDec 9 1) (holding [(1, toLE 32 2), (9, toLE 32 7)]))).map (fun t =>
      (t.rc, t.opRam.readBytes (slotAddr 9) 32)) = some (.absent, some (toLE 32 7)) := by decide +kernel

theorem test_ptChkenc :
    slotOf (exec (.ptChkenc 1 9) (holding [(9, rising 0 15 ++ [0x7F] ++ List.replicate 16 0xFF)])) 1 =
      some (boolBytes true) := by decide +kernel

theorem test_ptChkenc_bit_set :
    slotOf (exec (.ptChkenc 1 9) (holding [(9, zeroBytes 15 ++ [0x80] ++ zeroBytes 16)])) 1 =
      some (boolBytes false) := by decide +kernel

/-- Program P5: a seed of length 54 faults with INVALID_SEED on its own word, with nothing written. -/
theorem test_seedStrict_length_54 :
    (nextOf (exec (.seedStrict 4 0 54)
      { holding [(0, List.replicate 55 0x61), (4, List.replicate 32 0xEE)] with cp := 2 })).map (fun t =>
        (t.state, t.faultInfo, t.faultCmd, t.opRam.readBytes (slotAddr 4) 32)) =
      some (.faulted, 0x00000204, 0x80040036, some (List.replicate 32 0xEE)) := by decide +kernel

/-- 48_schnorr_sign.md R252: with a length other than 55 it faults with any bytes in its slots, here with none written. -/
theorem test_seedStrict_length_first :
    (nextOf (exec (.seedStrict 2 0 54) (holding []))).map State.faultInfo = some 0x00000004 := by decide +kernel

/-- Section 2: an uppercase letter makes the tolerant check report INVALID, with nothing written. -/
theorem test_seedTry_uppercase :
    (nextOf (exec (.seedTry 4 0 55)
      (holding [(0, List.replicate 54 0x61 ++ [0x41]), (4, List.replicate 32 0xEE)]))).map (fun t =>
        (t.rc, t.sInvalid, t.state, t.opRam.readBytes (slotAddr 4) 32)) =
      some (.invalid, true, .busy, some (List.replicate 32 0xEE)) := by decide +kernel

/-- KEY_PRIV completes with OK on any 32 bytes, whatever HASH answers (48_schnorr_sign.md R255). -/
theorem test_keyPriv_completes : codeOf (exec (.keyPriv 9 1) (holding [(1, rising 0 32)])) = some .ok := by decide +kernel

/-- Section 7, vector A: bit 7 of byte 15 of pk set. -/
theorem test_verify_validator :
    slotOf (exec (.verify 9 1 3) (holding [(1, List.replicate 15 0x11 ++ [0x80] ++ List.replicate 48 0x22),
      (3, sevenEncoding ++ toLE 32 1)])) 9 = some (boolBytes false) := by decide +kernel

/-! ### The hash-based functions, with a table of answers for HASH (95_test_vectors.md, section 7, vector A) -/

/-- n bytes of an answer, zero beyond it. -/
def answer (l : List Byte) (n : Nat) : Vector Byte n := Vector.ofFn fun i => l.getD i.val 0

/-- HASH as vector A and program P5 list its answers. -/
def hashA : HashFn := fun m n =>
  if m = rising 0 32 then answer ([5] ++ zeroBytes 31 ++ List.replicate 32 0x11) n
  else if m = List.replicate 32 0x11 ++ List.replicate 32 0xDD then answer [7] n
  else if m = sevenEncoding ++ fiveEncoding ++ List.replicate 32 0xDD then answer [3] n
  else if m = zeroBytes 55 then answer (List.replicate 32 0x77) n
  else answer [] n

def signatureA : List Byte :=
  sevenEncoding ++ toLE 32 0x0029CBC14E5E0A72F05397829CBC14E5DFBD004DFE0F79992FB2540EC7768CDF

/-- Program P5: the subSeed of 55 letters 'a'. -/
theorem test_subseed : seedToSubseed hashA (List.replicate 55 0x61) = List.replicate 32 0x77 := by decide +kernel

theorem test_privOf : privOf hashA Config.curve (rising 0 32) = 5 := by decide +kernel

theorem test_pubOf : pubOf hashA Config.curve (rising 0 32) = fiveEncoding := by decide +kernel

theorem test_sign :
    schnorrSign hashA Config.curve (rising 0 32) fiveEncoding (List.replicate 32 0xDD) = signatureA := by decide +kernel

/-- The last test of `verify` on points of section 5, by hand: 2·B + 1·(5·B) = 7·B, and 3·B + 1·(5·B) is not. -/
theorem test_verifyEquation :
    (match ptDecode Config.curve fiveEncoding, ptDecode Config.curve sevenEncoding with
      | some P, some R => verifyEquation Config.curve P R 2 1 && !verifyEquation Config.curve P R 3 1
      | some _, none => false
      | none, _ => false) = true := by decide +kernel

/-- Section 1: laws (b) and (d) of 00_scope.md R10 hold of the default parameters. -/
theorem test_curve_laws :
    onCurveAffine Config.curve Config.curve.baseX Config.curve.baseY = true ∧ fp2Sqrt Config.curve.d = none := by
  decide +kernel

/-! ## The sequencer and the host window -/

/-- Program P3: an illegal word faults at its own index. -/
theorem test_illegal_word_faults :
    (nextOf (step ({ State.reset with cp := 2 }.withFetchWord 32 0x03000000))).map (fun t =>
      (statusWord t, t.cp, t.faultInfo, t.faultCmd, irq t)) =
      some (0x0000000B, 2, 0x00000201, 0x03000000, false) := by decide +kernel

/-- A word placed where the step fetches it is the command the step runs. -/
theorem test_withFetchWord :
    (nextOf (step (State.reset.withFetchWord 32 0x45000000))).map (fun t =>
      (t.rc, t.cp, t.cmdCount, Memory.readBytes t.opRam 0 128)) =
      some (.ok, 1, 1, some baseBytes) := by decide +kernel

/-- 93_implementation_defined.md I1: a source nobody has written stops the model. -/
theorem test_unwritten_operand :
    (match step (State.reset.withFetchWord 32 0x10020001) with
      | .fault .unwrittenOperand => true
      | .fault _ => false
      | .next _ => false
      | .refused _ => false) = true := by decide +kernel

/-- 70_reset_and_hazards.md R323: START begins a run, with the enables written beside it. -/
theorem test_start :
    (nextOf (step (facing (.write 0x0000 4 0x0000000D)))).map (fun t => (t.state, t.ieDone, t.ieFault, ctrlWord t)) =
      some (.busy, true, true, 0x0000000C) := by decide +kernel

/-- 10_state.md R27: START while BUSY is refused and sets WERR. -/
theorem test_start_while_busy :
    (nextOf (step { facing (.write 0x0000 4 1) with state := .busy, cmdCount := 3 })).map (fun t =>
      (t.state, t.werr, t.cmdCount)) = some (.busy, true, 3) := by decide +kernel

/-- 10_state.md R28: CLEAR returns to IDLE with the outcome cleared. -/
theorem test_clear :
    (nextOf (step { facing (.write 0x0000 4 2) with state := .faulted, faultPend := true, faultInfo := 0x0201,
                                                    faultCmd := 0x03000000, sAbsent := true })).map (fun t =>
      (statusWord t, t.faultInfo, t.faultCmd)) = some (0, 0, 0) := by decide +kernel

/-- 60_exceptions.md R300: IRQ while done and enabled, and not without the enable. -/
theorem test_irq :
    irq { State.reset with donePend := true, ieDone := true } = true ∧
      irq { State.reset with donePend := true, ieFault := true } = false := by decide

/-- 20_memory.md R54: a host word lands little-endian in slot 1, and reads back. -/
theorem test_host_word_round_trip :
    ((nextOf (step (facing (.write 0x2020 4 0xDDCCBBAA)))).bind (fun t => t.opRam.readBytes (slotAddr 1) 4) =
      some [0xAA, 0xBB, 0xCC, 0xDD]) ∧
    ((nextOf (step { facing (.read 0x2020 4) with opRam := [(32, 0xAA), (33, 0xBB), (34, 0xCC), (35, 0xDD)] })).map
      State.reply = some (some 0xDDCCBBAA)) := by decide +kernel

/-- 20_memory.md R52: reserved offsets read 0, and FAULT_INFO reads as it stands. -/
theorem test_host_reads :
    (nextOf (step (facing (.read 0x0018 4)))).map State.reply = some (some 0) ∧
      (nextOf (step { facing (.read 0x000C 4) with faultInfo := 0x0204 })).map State.reply = some (some 0x0204) := by
  decide +kernel

/-- 70_reset_and_hazards.md R320: reset from BUSY. -/
theorem test_reset_input :
    (nextOf (step { facing .reset with state := .busy, cp := 9, werr := true, opRam := [(0, 1)] })).map (fun t =>
      (t.state, t.cp, t.werr, t.opRam)) = some (.idle, 0, false, []) := by decide +kernel

/-! ## Witnesses: for every statement of Certificates/Slice0/Obligations.lean that has hypotheses, a state and operands
that meet them together, at the ends of the ranges its clauses name -/

/-- What the operand RAM holds is decidable, so that a concrete state can be checked. -/
theorem holdsAt_of_check (s : State) (j : Nat) (bs : List Byte)
    (h : s.opRam.readBytes (slotAddr j) bs.length = some bs) : holdsAt s j bs :=
  ((Memory.readBytes_eq_some s.opRam (slotAddr j) bs.length bs).1 h).2

theorem commandAt_of_check (s : State) (w : Word) (h : s.cmdRam.readBytes (cmdAddr s.cp.toNat) 4 = some (wordBytes w)) :
    commandAt s w :=
  ((Memory.readBytes_eq_some s.cmdRam (cmdAddr s.cp.toNat) 4 (wordBytes w)).1 h).2

/-- The machine at index 255, about to fetch NOP. -/
def atTheEnd : State := { State.reset with cp := 255 }.withFetchWord 32 0x01000000

theorem witness_EncodeThenDecodeGivesTheCommand :
    (Instr.verify 255 254 254).wellFormed = true ∧ (Instr.ptMul 252 252 255).wellFormed = true ∧
      (Instr.seedTry 255 254 0).wellFormed = true := by decide

theorem witness_LegalWordsAreEncodings :
    decode 0x45FC0000 = .ok (.ptLdb 252) ∧ decode 0x84FEFEFF = .ok (.sign 254 254 255) := ⟨rfl, rfl⟩

/-- Each side of each of the three equivalences, at the ends of the ranges they name. -/
theorem witness_DecodeChecksInOrder :
    decode 0x91000000 = .error .illegalOpcode ∧ decode 0x0F000000 = .error .illegalOpcode ∧
      decode 0x44000001 = .error .reservedField ∧ decode 0x83000001 = .error .reservedField ∧
      decode 0x51FD0000 = .error .slotRange ∧ decode 0x84FF0000 = .error .slotRange ∧
      decode 0x51FCFCFF = .ok (.ptMul 252 252 255) := ⟨rfl, rfl, rfl, rfl, rfl, rfl, rfl⟩

theorem witness_StepRunsTheDecodedCommand :
    atTheEnd.state = .busy ∧ commandAt atTheEnd 0x01000000 ∧ decode 0x01000000 = .ok .nop ∧ atTheEnd.inputs = [] ∧
      ({ atTheEnd with inputs := [.wait] } : State).inputs = .wait :: [] ∧
      commandAt { atTheEnd with inputs := [.wait] } 0x01000000 :=
  ⟨rfl, commandAt_of_check _ _ (by decide +kernel), rfl, rfl, rfl, commandAt_of_check _ _ (by decide +kernel)⟩

/-- Words that fail each check, with nothing pending; and, since the command RAM is the same, during a `wait`. -/
theorem witness_DecodeFailureEntersItsFault :
    (State.reset.withFetchWord 32 0x03FD0000).state = .busy ∧ (State.reset.withFetchWord 32 0x03FD0000).inputs = [] ∧
      commandAt (State.reset.withFetchWord 32 0x03FD0000) 0x03FD0000 ∧ decode 0x03FD0000 = .error .illegalOpcode ∧
      commandAt (State.reset.withFetchWord 32 0x45FD0001) 0x45FD0001 ∧ decode 0x45FD0001 = .error .reservedField ∧
      commandAt (State.reset.withFetchWord 32 0x45FD0000) 0x45FD0000 ∧ decode 0x45FD0000 = .error .slotRange ∧
      ({ State.reset.withFetchWord 32 0x45FD0000 with inputs := [.wait] } : State).inputs = .wait :: [] ∧
      commandAt { State.reset.withFetchWord 32 0x45FD0000 with inputs := [.wait] } 0x45FD0000 :=
  ⟨rfl, rfl, commandAt_of_check _ _ (by decide +kernel), rfl, commandAt_of_check _ _ (by decide +kernel), rfl,
    commandAt_of_check _ _ (by decide +kernel), rfl, rfl, commandAt_of_check _ _ (by decide +kernel)⟩

theorem witness_NoStepWithoutBusyOrWrittenCommand :
    State.reset.inputs = [] ∧ State.reset.state ≠ .busy ∧ (facing .wait).inputs = .wait :: [] ∧
      (facing .wait).state ≠ .busy ∧ (holding []).inputs = [] ∧ (holding []).state = .busy ∧
      (∃ k, k < 4 ∧ (holding []).cmdRam.read (4 * (holding []).cp.toNat + k) = none) ∧
      ({ holding [] with inputs := [.wait] } : State).inputs = .wait :: [] :=
  ⟨rfl, by decide, rfl, by decide, rfl, rfl, ⟨3, by decide, rfl⟩, rfl⟩

theorem witness_EveryRunEnds :
    (holding []).state = .busy ∧ (holding []).inputs = [] ∧ atTheEnd.state = .busy ∧ atTheEnd.inputs = [] ∧
      256 - atTheEnd.cp.toNat = 1 := by decide +kernel

theorem witness_StepKeepsMemoryCanonical : MemoryCanonical atTheEnd ∧ ∃ t, step atTheEnd = .next t :=
  ⟨by unfold MemoryCanonical; decide +kernel, next_of_isSome _ (by decide +kernel)⟩

theorem witness_StepKeepsStatusConsistent : StatusConsistent atTheEnd ∧ ∃ t, step atTheEnd = .next t :=
  ⟨by unfold StatusConsistent; decide +kernel, next_of_isSome _ (by decide +kernel)⟩

/-- With CMD_COUNT at CP, the most a run can have. -/
theorem witness_StepKeepsCountBounded :
    CountBounded { atTheEnd with cmdCount := 255 } ∧ ∃ t, step { atTheEnd with cmdCount := 255 } = .next t :=
  ⟨by unfold CountBounded; decide +kernel, next_of_isSome _ (by decide +kernel)⟩

theorem witness_CommandsKeepTheHostSide :
    ∃ t, exec .nop { holding [] with sAbsent := true, sDivzero := true, sInvalid := true } = .next t :=
  next_of_isSome _ (by decide +kernel)

/-- The last byte before and the first byte after the destination of MOV s5, s1. -/
theorem witness_CommandsWriteOnlyTheirDestination :
    (∃ t, exec (.mov 5 1) (holding [(1, rising 0 32)]) = .next t) ∧ ¬ inDestination (.mov 5 1) 159 ∧
      ¬ inDestination (.mov 5 1) 192 ∧ ¬ inDestination .nop 0 :=
  ⟨next_of_isSome _ (by decide +kernel), by simp [inDestination, destination, slotAddr],
    by simp [inDestination, destination, slotAddr], by simp [inDestination, destination]⟩

theorem witness_CommandsCompleteWithTheirCodes :
    (∃ t, exec (.fpInv 9 1) (holding [(1, zeroBytes 32)]) = .next t ∧ t.rc ≠ .ok) ∧
      (∃ t, exec (.seedStrict 9 1 54) (holding [(1, zeroBytes 64)]) = .next t ∧ t.state = .faulted) ∧
      ∃ t, exec .halt (holding []) = .next t := by
  refine ⟨?_, ?_, ⟨_, rfl⟩⟩
  · obtain ⟨t, h⟩ := next_of_isSome (exec (.fpInv 9 1) (holding [(1, zeroBytes 32)])) (by decide +kernel)
    refine ⟨t, h, ?_⟩
    have : codeOf (exec (.fpInv 9 1) (holding [(1, zeroBytes 32)])) = some .divzero := by decide +kernel
    simp only [h, codeOf, nextOf, Option.map_some, Option.some.injEq] at this
    simp [this]
  · obtain ⟨t, h⟩ := next_of_isSome (exec (.seedStrict 9 1 54) (holding [(1, zeroBytes 64)])) (by decide +kernel)
    refine ⟨t, h, ?_⟩
    have : (nextOf (exec (.seedStrict 9 1 54) (holding [(1, zeroBytes 64)]))).map State.state = some .faulted := by
      decide +kernel
    simpa only [h, nextOf, Option.map_some, Option.some.injEq] using this

/-- The last byte of a source missing, at the highest slot its operand fits in, for each number of bytes that sources cover;
and a state in which every source byte is written. -/
theorem witness_UnwrittenSourceStopsTheModel :
    ((Instr.fpSqr 0 255).wellFormed = true ∧ (255, 16) ∈ sources (.fpSqr 0 255) ∧
      (holding [(255, rising 0 15)]).opRam.read (slotAddr (255 : Slot).toNat + 15) = none) ∧
    ((Instr.fp2Mul 0 1 255).wellFormed = true ∧ (255, 32) ∈ sources (.fp2Mul 0 1 255) ∧
      (holding [(255, rising 0 31)]).opRam.read (slotAddr (255 : Slot).toNat + 31) = none) ∧
    ((Instr.seedTry 0 254 55).wellFormed = true ∧ (254, 55) ∈ sources (.seedTry 0 254 55) ∧
      (holding [(254, rising 0 54)]).opRam.read (slotAddr (254 : Slot).toNat + 54) = none) ∧
    ((Instr.verify 0 0 254).wellFormed = true ∧ (254, 64) ∈ sources (.verify 0 0 254) ∧
      (holding [(254, rising 0 63)]).opRam.read (slotAddr (254 : Slot).toNat + 63) = none) ∧
    ((Instr.ptEq 0 0 252).wellFormed = true ∧ (252, 128) ∈ sources (.ptEq 0 0 252) ∧
      (holding [(252, rising 0 127)]).opRam.read (slotAddr (252 : Slot).toNat + 127) = none) ∧
    (∀ p, p ∈ sources (.fpMul 255 1 5) → ∀ k, k < p.2 →
      (holding [(1, rising 0 16), (5, rising 0 16)]).opRam.read (slotAddr p.1.toNat + k) ≠ none) := by decide +kernel

/-- Slots 1 and 5 hold field elements and scalars, one of them above both moduli; slots 20 to 23 hold the base point and
slots 30 to 33 its double. -/
def operands : State :=
  holding [(1, List.replicate 32 0xFF), (5, rising 0x40 32 ++ rising 0x60 32), (20, baseBytes), (30, doubleBytes)]

theorem operands_holds_1 : holdsAt operands 1 (List.replicate 32 0xFF) := holdsAt_of_check _ _ _ (by decide +kernel)

theorem operands_holds_5 : holdsAt operands 5 (rising 0x40 32) := holdsAt_of_check _ _ _ (by decide +kernel)

theorem operands_holds_wide : holdsAt operands 5 (rising 0x40 32 ++ rising 0x60 32) :=
  holdsAt_of_check _ _ _ (by decide +kernel)

theorem operands_holds_base : holdsAt operands 20 baseBytes := holdsAt_of_check _ _ _ (by decide +kernel)

theorem operands_holds_double : holdsAt operands 30 doubleBytes := holdsAt_of_check _ _ _ (by decide +kernel)

theorem operands_holds_16 : holdsAt operands 1 (List.replicate 16 0xFF) ∧ holdsAt operands 5 (rising 0x40 16) :=
  ⟨holdsAt_of_check _ _ _ (by decide +kernel), holdsAt_of_check _ _ _ (by decide +kernel)⟩

theorem witness_NopAndMovComplete : (rising 0 32).length = 32 ∧ holdsAt (holding [(255, rising 0 32)]) 255 (rising 0 32) :=
  ⟨by decide +kernel, holdsAt_of_check _ _ _ (by decide +kernel)⟩

theorem witness_SquareAndMultiplyIsThePower : primeP - 1 < primeP ∧ 0 < primeP := by decide

theorem witness_FpProductsAndReduction :
    (List.replicate 16 (0xFF : Byte)).length = 16 ∧ (rising 0x40 16).length = 16 ∧
      (List.replicate 32 (0xFF : Byte)).length = 32 ∧ holdsAt operands 1 (List.replicate 16 0xFF) ∧
      holdsAt operands 5 (rising 0x40 16) ∧ holdsAt operands 1 (List.replicate 32 0xFF) :=
  ⟨by decide, by decide +kernel, by decide, operands_holds_16.1, operands_holds_16.2, operands_holds_1⟩

theorem witness_FpAdditiveOperations :
    (List.replicate 16 (0xFF : Byte)).length = 16 ∧ (rising 0x40 16).length = 16 ∧
      holdsAt operands 1 (List.replicate 16 0xFF) ∧ holdsAt operands 5 (rising 0x40 16) :=
  ⟨by decide, by decide +kernel, operands_holds_16.1, operands_holds_16.2⟩

theorem witness_Fp2Products :
    (List.replicate 32 (0xFF : Byte)).length = 32 ∧ (rising 0x40 32).length = 32 ∧
      holdsAt operands 1 (List.replicate 32 0xFF) ∧ holdsAt operands 5 (rising 0x40 32) :=
  ⟨by decide, by decide +kernel, operands_holds_1, operands_holds_5⟩

theorem witness_Fp2AdditiveOperations :
    (List.replicate 32 (0xFF : Byte)).length = 32 ∧ (rising 0x40 32).length = 32 ∧
      holdsAt operands 1 (List.replicate 32 0xFF) ∧ holdsAt operands 5 (rising 0x40 32) :=
  ⟨by decide, by decide +kernel, operands_holds_1, operands_holds_5⟩

/-- 0 as the bytes of p, and p + 1 as the smallest value above it that has an inverse. -/
theorem witness_FpInverse :
    (toLE 16 primeP).length = 16 ∧ holdsAt (holding [(1, toLE 16 primeP)]) 1 (toLE 16 primeP) ∧
      leNat (toLE 16 primeP) % primeP = 0 ∧ (toLE 16 (primeP + 1)).length = 16 ∧
      holdsAt (holding [(1, toLE 16 (primeP + 1))]) 1 (toLE 16 (primeP + 1)) ∧
      leNat (toLE 16 (primeP + 1)) % primeP ≠ 0 :=
  ⟨by decide +kernel, holdsAt_of_check _ _ _ (by decide +kernel), by decide +kernel, by decide +kernel,
    holdsAt_of_check _ _ _ (by decide +kernel), by decide +kernel⟩

/-- 3 is not a square modulo p (program P1). -/
theorem three_is_not_a_square : ¬ ∃ x : Nat, x * x % primeP = 3 % primeP := by
  rintro ⟨x, hx⟩
  refine ZMod.nonsquare_of_jacobiSym_eq_neg_one (a := 3) (b := primeP) (by unfold primeP; norm_num) ⟨(x : ZMod primeP), ?_⟩
  have h : ((x * x : Nat) : ZMod primeP) = ((3 : Nat) : ZMod primeP) := (ZMod.natCast_eq_natCast_iff' _ _ _).2 hx
  push_cast at h ⊢
  exact h.symm

/-- An element whose norm is not a square modulo p has no square root (43_modexp_engine.md R167 (a)). -/
theorem no_root_of_norm (a b : Nat) (h : jacobiSym (a * a + b * b : Nat) primeP = -1) :
    ¬ ∃ e f : Nat, ((e : Int) * e - f * f) % (primeP : Int) = a % primeP ∧ 2 * e * f % primeP = b % primeP := by
  rintro ⟨e, f, h1, h2⟩
  apply ZMod.nonsquare_of_jacobiSym_eq_neg_one h
  have e1 : (e : ZMod primeP) * e - f * f = a := by
    have : (((e : Int) * e - f * f : Int) : ZMod primeP) = ((a : Int) : ZMod primeP) :=
      (ZMod.intCast_eq_intCast_iff' _ _ _).2 h1
    push_cast at this; exact this
  have e2 : 2 * (e : ZMod primeP) * f = b := by
    have : ((2 * e * f : Nat) : ZMod primeP) = (b : ZMod primeP) := (ZMod.natCast_eq_natCast_iff' _ _ _).2 h2
    push_cast at this; exact this
  refine ⟨(e : ZMod primeP) * e + f * f, ?_⟩
  push_cast
  rw [← e1, ← e2]; ring

theorem witness_FpSquareRoot :
    (toLE 16 9).length = 16 ∧ holdsAt (holding [(1, toLE 16 9)]) 1 (toLE 16 9) ∧
      (∃ x, x * x % primeP = leNat (toLE 16 9) % primeP) ∧
      holdsAt (holding [(1, toLE 16 3)]) 1 (toLE 16 3) ∧ ¬ ∃ x, x * x % primeP = leNat (toLE 16 3) % primeP :=
  ⟨by decide +kernel, holdsAt_of_check _ _ _ (by decide +kernel), ⟨3, by decide +kernel⟩,
    holdsAt_of_check _ _ _ (by decide +kernel), by
      rw [show leNat (toLE 16 3) = 3 by decide +kernel]; exact three_is_not_a_square⟩

/-- (p, p), which reads as zero, and 1 + i. -/
theorem witness_Fp2Inverse :
    (toLE 16 primeP ++ toLE 16 primeP).length = 32 ∧
      holdsAt (holding [(1, toLE 16 primeP ++ toLE 16 primeP)]) 1 (toLE 16 primeP ++ toLE 16 primeP) ∧
      leNat ((toLE 16 primeP ++ toLE 16 primeP).take 16) % primeP = 0 ∧
      leNat ((toLE 16 primeP ++ toLE 16 primeP).drop 16) % primeP = 0 ∧
      holdsAt (holding [(1, toLE 16 1 ++ toLE 16 1)]) 1 (toLE 16 1 ++ toLE 16 1) ∧
      ¬ (leNat ((toLE 16 1 ++ toLE 16 1).take 16) % primeP = 0 ∧ leNat ((toLE 16 1 ++ toLE 16 1).drop 16) % primeP = 0) :=
  ⟨by decide +kernel, holdsAt_of_check _ _ _ (by decide +kernel), by decide +kernel, by decide +kernel,
    holdsAt_of_check _ _ _ (by decide +kernel), by decide +kernel⟩

/-- 1 + 2i has no square root (section 2): its norm is 5. -/
theorem one_plus_two_i_has_no_root :
    ¬ ∃ c d : Nat, ((c : Int) * c - d * d) % (primeP : Int) = (1 : Nat) % primeP ∧ 2 * c * d % primeP = 2 % primeP :=
  no_root_of_norm 1 2 (by unfold primeP; norm_num)

/-- CURVE_D is not a square in Fp2 (section 1, law (d)). -/
theorem curve_d_has_no_root :
    ¬ ∃ e f : Nat, ((e : Int) * e - f * f) % (primeP : Int) = Config.curve.d.re ∧
      2 * e * f % primeP = Config.curve.d.im := by
  have h := no_root_of_norm Config.curve.d.re Config.curve.d.im (by unfold primeP Config.curve; norm_num)
  rwa [Nat.mod_eq_of_lt (by decide +kernel : Config.curve.d.im < primeP),
    Int.emod_eq_of_lt (by decide +kernel) (by decide +kernel)] at h

theorem witness_Fp2SquareRoot :
    (toLE 16 0 ++ toLE 16 2).length = 32 ∧
      holdsAt (holding [(1, toLE 16 0 ++ toLE 16 2)]) 1 (toLE 16 0 ++ toLE 16 2) ∧
      (∃ c d : Nat, ((c : Int) * c - d * d) % (primeP : Int) = leNat ((toLE 16 0 ++ toLE 16 2).take 16) % primeP ∧
        2 * c * d % primeP = leNat ((toLE 16 0 ++ toLE 16 2).drop 16) % primeP) ∧
      holdsAt (holding [(1, toLE 16 1 ++ toLE 16 2)]) 1 (toLE 16 1 ++ toLE 16 2) ∧
      ¬ ∃ c d : Nat, ((c : Int) * c - d * d) % (primeP : Int) = leNat ((toLE 16 1 ++ toLE 16 2).take 16) % primeP ∧
        2 * c * d % primeP = leNat ((toLE 16 1 ++ toLE 16 2).drop 16) % primeP :=
  ⟨by decide +kernel, holdsAt_of_check _ _ _ (by decide +kernel), ⟨1, 1, by decide +kernel, by decide +kernel⟩,
    holdsAt_of_check _ _ _ (by decide +kernel), by
      rw [show leNat ((toLE 16 1 ++ toLE 16 2).take 16) = 1 by decide +kernel,
        show leNat ((toLE 16 1 ++ toLE 16 2).drop 16) = 2 by decide +kernel]
      exact one_plus_two_i_has_no_root⟩

theorem witness_ScalarReductionAndArithmetic :
    (List.replicate 32 (0xFF : Byte)).length = 32 ∧ (rising 0x40 32).length = 32 ∧
      (rising 0x40 32 ++ rising 0x60 32).length = 64 ∧ holdsAt operands 1 (List.replicate 32 0xFF) ∧
      fits .wide 5 = true ∧ holdsAt operands 5 (rising 0x40 32 ++ rising 0x60 32) ∧ holdsAt operands 5 (rising 0x40 32) :=
  ⟨by decide, by decide +kernel, by decide +kernel, operands_holds_1, by decide, operands_holds_wide, operands_holds_5⟩

/-- The bytes of N, and of N + 1. -/
theorem witness_ScalarInverse :
    (toLE 32 Config.curve.n).length = 32 ∧
      holdsAt (holding [(1, toLE 32 Config.curve.n)]) 1 (toLE 32 Config.curve.n) ∧
      leNat (toLE 32 Config.curve.n) % Config.curve.n = 0 ∧
      holdsAt (holding [(1, toLE 32 (Config.curve.n + 1))]) 1 (toLE 32 (Config.curve.n + 1)) ∧
      leNat (toLE 32 (Config.curve.n + 1)) % Config.curve.n ≠ 0 :=
  ⟨by decide +kernel, holdsAt_of_check _ _ _ (by decide +kernel), by decide +kernel,
    holdsAt_of_check _ _ _ (by decide +kernel), by decide +kernel⟩

theorem witness_PointAddition :
    (Instr.ptAdd 252 20 30).wellFormed = true ∧ baseBytes.length = 128 ∧ doubleBytes.length = 128 ∧
      holdsAt operands 20 baseBytes ∧ holdsAt operands 30 doubleBytes :=
  ⟨by decide, by decide +kernel, by decide +kernel, operands_holds_base, operands_holds_double⟩

theorem witness_PointDoublingAndNegation :
    (Instr.ptDbl 252 20).wellFormed = true ∧ baseBytes.length = 128 ∧ holdsAt operands 20 baseBytes :=
  ⟨by decide, by decide +kernel, operands_holds_base⟩

theorem witness_ConstantPoints : fits .pt 252 = true ∧ fits .pt 0 = true := by decide

theorem witness_ScalarMultiplication :
    (Instr.ptMul 252 20 1).wellFormed = true ∧ baseBytes.length = 128 ∧ (List.replicate 32 (0xFF : Byte)).length = 32 ∧
      holdsAt operands 20 baseBytes ∧ holdsAt operands 1 (List.replicate 32 0xFF) ∧ 2 ^ 256 - 1 < 2 ^ 256 :=
  ⟨by decide, by decide +kernel, by decide, operands_holds_base, operands_holds_1, by decide⟩

theorem witness_PointEquality :
    (Instr.ptEq 255 20 30).wellFormed = true ∧ baseBytes.length = 128 ∧ doubleBytes.length = 128 ∧
      holdsAt operands 20 baseBytes ∧ holdsAt operands 30 doubleBytes :=
  ⟨by decide, by decide +kernel, by decide +kernel, operands_holds_base, operands_holds_double⟩

theorem witness_OnCurveCheck :
    (Instr.ptOncurve 255 20).wellFormed = true ∧ baseBytes.length = 128 ∧ holdsAt operands 20 baseBytes :=
  ⟨by decide, by decide +kernel, operands_holds_base⟩

theorem base_canonical : PointCanonical (ptBase Config.curve) := by
  unfold PointCanonical Fp2Canonical; decide +kernel

theorem witness_PointAdditionSymmetricWithIdentity :
    PointCanonical (ptBase Config.curve) ∧ (ptBase Config.curve).Z = fp2One ∧
      (ptBase Config.curve).T = fp2Mul (ptBase Config.curve).X (ptBase Config.curve).Y := ⟨base_canonical, rfl, rfl⟩

theorem witness_DoublingAgreesWithAddition :
    PointCanonical (ptBase Config.curve) ∧
      fp2Sub (fp2Sqr (ptBase Config.curve).Y) (fp2Sqr (ptBase Config.curve).X) =
        fp2Add (fp2Sqr (ptBase Config.curve).Z) (fp2Mul Config.curve.d (fp2Sqr (ptBase Config.curve).T)) := by
  refine ⟨base_canonical, ?_⟩
  have h : fp2Eq (fp2Sub (fp2Sqr (ptBase Config.curve).Y) (fp2Sqr (ptBase Config.curve).X))
      (fp2Add (fp2Sqr (ptBase Config.curve).Z) (fp2Mul Config.curve.d (fp2Sqr (ptBase Config.curve).T))) = true := by
    decide +kernel
  exact (fp2Eq_iff _ _).1 h

/-- A real part that is 0 as the bytes of p, with bit 126 of the imaginary part set; and bit 7 of byte 15 clear. -/
theorem witness_SignAndEncodingValidator :
    (toLE 16 primeP ++ toLE 16 (2 ^ 126)).length = 32 ∧
      holdsAt (holding [(1, toLE 16 primeP ++ toLE 16 (2 ^ 126))]) 1 (toLE 16 primeP ++ toLE 16 (2 ^ 126)) :=
  ⟨by decide +kernel, holdsAt_of_check _ _ _ (by decide +kernel)⟩

theorem witness_NegationFlipsTheSign : Fp2Canonical ⟨0, primeP - 1⟩ ∧ (⟨0, primeP - 1⟩ : Fp2) ≠ fp2Zero := by
  unfold Fp2Canonical; decide

theorem witness_PointEncoding :
    (Instr.ptEnc 255 252).wellFormed = true ∧ (zeroBytes 128).length = 128 ∧
      holdsAt (holding [(252, zeroBytes 128)]) 252 (zeroBytes 128) ∧ (ptOfBytes (zeroBytes 128)).Z = fp2Zero ∧
      baseBytes.length = 128 ∧ holdsAt operands 20 baseBytes ∧ (ptOfBytes baseBytes).Z ≠ fp2Zero :=
  ⟨by decide, by decide +kernel, holdsAt_of_check _ _ _ (by decide +kernel), by decide +kernel, by decide +kernel,
    operands_holds_base, by decide +kernel⟩

theorem witness_EncodingsPassTheValidator : ptEncode (ptBase Config.curve) = some baseEncoding := by decide +kernel

theorem witness_PointDecoding :
    (Instr.ptDec 252 255).wellFormed = true ∧ (toLE 32 2).length = 32 ∧
      holdsAt (holding [(255, toLE 32 2)]) 255 (toLE 32 2) ∧ ptDecode Config.curve (toLE 32 2) = none ∧
      baseEncoding.length = 32 ∧ holdsAt (holding [(255, baseEncoding)]) 255 baseEncoding ∧
      ptDecode Config.curve baseEncoding = some (ptBase Config.curve) :=
  ⟨by decide, by decide +kernel, holdsAt_of_check _ _ _ (by decide +kernel), by decide +kernel, by decide +kernel,
    holdsAt_of_check _ _ _ (by decide +kernel), by decide +kernel⟩

/-- The encoding of the base point: the inverse and the root that its decode needs, and the decode itself. -/
theorem witness_DecodedPointIsOnTheCurve :
    baseEncoding.length = 32 ∧
      Fp2Canonical ⟨142061769540266203420813775688923618490, 96531338578037128488458476049415029241⟩ ∧
      Fp2Canonical Config.curve.baseX ∧
      leNat (baseEncoding.take 16) % primeP = Config.curve.baseY.re ∧
      leNat (baseEncoding.drop 16) % 2 ^ 127 % primeP = Config.curve.baseY.im ∧
      fp2Eq (fp2Mul (fp2Add (fp2Mul Config.curve.d (fp2Sqr Config.curve.baseY)) fp2One)
        ⟨142061769540266203420813775688923618490, 96531338578037128488458476049415029241⟩) fp2One = true ∧
      fp2Eq (fp2Sqr Config.curve.baseX) (fp2Mul (fp2Sub (fp2Sqr Config.curve.baseY) fp2One)
        ⟨142061769540266203420813775688923618490, 96531338578037128488458476049415029241⟩) = true ∧
      ptDecode Config.curve baseEncoding = some (ptBase Config.curve) ∧ (ptBase Config.curve).X ≠ fp2Zero := by
  unfold Fp2Canonical; decide +kernel

theorem witness_EncodedPointDecodesToThePoint :
    Fp2Canonical Config.curve.d ∧
      (¬ ∃ e f : Nat, ((e : Int) * e - f * f) % (primeP : Int) = Config.curve.d.re ∧
        2 * e * f % primeP = Config.curve.d.im) ∧
      PointCanonical (ptBase Config.curve) ∧ ptOnCurve Config.curve (ptBase Config.curve) = true :=
  ⟨by unfold Fp2Canonical; decide +kernel, curve_d_has_no_root, base_canonical, by decide +kernel⟩

/-- 55 letters at the last slot a seed fits in; the lengths 54 and 56 there; and the bytes next to 'a' and to 'z'. -/
theorem witness_SeedCommands :
    fits .seed 254 = true ∧ (54 : Byte).toNat ≠ 55 ∧ (56 : Byte).toNat ≠ 55 ∧ (55 : Byte).toNat = 55 ∧
      (List.replicate 55 (0x7A : Byte)).length = 55 ∧
      holdsAt (holding [(254, List.replicate 55 0x7A)]) 254 (List.replicate 55 0x7A) ∧
      (∀ b, b ∈ List.replicate 55 (0x7A : Byte) → 0x61 ≤ b.toNat ∧ b.toNat ≤ 0x7A) ∧
      holdsAt (holding [(254, List.replicate 54 0x61 ++ [0x60])]) 254 (List.replicate 54 0x61 ++ [0x60]) ∧
      (∃ b, b ∈ List.replicate 54 (0x61 : Byte) ++ [0x60] ∧ (b.toNat < 0x61 ∨ 0x7A < b.toNat)) ∧
      (∃ b, b ∈ List.replicate 54 (0x61 : Byte) ++ [0x7B] ∧ (b.toNat < 0x61 ∨ 0x7A < b.toNat)) :=
  ⟨by decide, by decide, by decide, by decide, by decide, holdsAt_of_check _ _ _ (by decide +kernel), by decide +kernel,
    holdsAt_of_check _ _ _ (by decide +kernel), ⟨0x60, by decide +kernel, by decide⟩, ⟨0x7B, by decide +kernel, by decide⟩⟩

theorem witness_KeyCommands : (rising 0 32).length = 32 ∧ holdsAt (holding [(255, rising 0 32)]) 255 (rising 0 32) :=
  ⟨by decide +kernel, holdsAt_of_check _ _ _ (by decide +kernel)⟩

theorem witness_Signing :
    (Instr.sign 254 5 1).wellFormed = true ∧ (rising 0x40 32).length = 32 ∧ (rising 0x60 32).length = 32 ∧
      (List.replicate 32 (0xFF : Byte)).length = 32 ∧ holdsAt operands 5 (rising 0x40 32 ++ rising 0x60 32) ∧
      holdsAt operands 1 (List.replicate 32 0xFF) :=
  ⟨by decide, by decide +kernel, by decide +kernel, by decide, operands_holds_wide, operands_holds_1⟩

theorem witness_Verification :
    (Instr.verify 255 5 5).wellFormed = true ∧ (rising 0x40 32).length = 32 ∧ (rising 0x60 32).length = 32 ∧
      holdsAt operands 5 (rising 0x40 32 ++ rising 0x60 32) :=
  ⟨by decide, by decide +kernel, by decide +kernel, operands_holds_wide⟩

theorem witness_VerifyTamperingConsequences :
    sevenEncoding.length = 32 ∧ (toLE 32 1).length = 32 ∧ (toLE 32 (1 + Config.curve.n)).length = 32 ∧
      128 ≤ ((zeroBytes 15 ++ [0x80] ++ zeroBytes 16 : List Byte).getD 15 0).toNat ∧
      leNat (toLE 32 (1 + Config.curve.n)) = leNat (toLE 32 1) + Config.curve.n := by decide +kernel

/-- Two states whose operand RAMs differ at byte 55 of the seed only; a seed that is valid completes with OK. -/
theorem witness_SeedTailIsNeverRead :
    (∃ m, ({ holding [(8, List.replicate 55 0x61 ++ [1])] with opRam := m } : State) =
        holding [(8, List.replicate 55 0x61 ++ [2])] ∧
      ∀ k, k < 55 → m.read (slotAddr (8 : Slot).toNat + k) =
        (holding [(8, List.replicate 55 0x61 ++ [1])]).opRam.read (slotAddr (8 : Slot).toNat + k)) ∧
    (∃ t, exec (.seedTry 10 8 55) (holding [(8, List.replicate 55 0x61 ++ [1])]) = .next t ∧ t.rc = .ok) ∧
    exec (.seedTry 10 8 55) State.reset = .fault .unwrittenOperand := by
  refine ⟨⟨(holding [(8, List.replicate 55 0x61 ++ [2])]).opRam, rfl, by decide +kernel⟩, ?_, by rfl⟩
  have hr : readBytes (holding [(8, List.replicate 55 0x61 ++ [1])]) (8 : Slot).toNat 55 =
      .ok (List.replicate 55 0x61) := by
    have := readBytes_of_holdsAt (holding [(8, List.replicate 55 0x61 ++ [1])]) (8 : Slot).toNat (List.replicate 55 0x61)
      (holdsAt_of_check _ _ _ (by decide +kernel)) (by decide +kernel)
    simpa using this
  have hv : seedValid (List.replicate 55 0x61) 55 = true := by decide +kernel
  obtain ⟨t, ht, hc, -⟩ := retire_wrote (encode (.seedTry 10 8 55)) (holding [(8, List.replicate 55 0x61 ++ [1])])
    (10 : Slot).toNat (seedToSubseed Config.hash (List.replicate 55 0x61))
    (by simp [seedToSubseed, slotAddr, opRamSize])
  refine ⟨t, ?_, hc.rc⟩
  change execSeedTry 10 8 55 _ = _
  unfold execSeedTry
  rw [hr]
  simpa only [show (55 : Byte).toNat = 55 from rfl, bind, Except.bind, pure, Except.pure, hv, if_true] using ht

theorem witness_CtrlWriteActs :
    (facing (.write 0x0000 4 0x0000000F)).inputs = .write 0x0000 4 0x0000000F :: [] ∧
      (facing (.write 0x0000 4 0x0000000F)).state ≠ .busy ∧
      ({ facing (.write 0x0000 4 2) with state := .busy } : State).inputs = .write 0x0000 4 2 :: [] := by decide +kernel

/-- The first and the last offset of each range the clauses name. -/
theorem witness_IgnoredHostWrites :
    ∀ offset ∈ [0x0004, 0x0008, 0x000C, 0x0FFC, 0x1000, 0x13FC, 0x1400, 0x1FFC, 0x2000, 0x3FFC],
      (facing (.write offset 4 1)).inputs = .write offset 4 1 :: [] ∧ offset % 4 = 0 ∧ offset < 0x4000 ∧
      ({ facing (.write offset 4 1) with state := .busy } : State).state = .busy := by decide +kernel

theorem witness_HostWritesStore :
    ∀ offset ∈ [0x0008, 0x1000, 0x13FC, 0x2000, 0x3FFC],
      (facing (.write offset 4 1)).inputs = .write offset 4 1 :: [] ∧ offset % 4 = 0 ∧
      (facing (.write offset 4 1)).state ≠ .busy := by decide +kernel

theorem witness_HostReadsReturnTheWindow :
    (∀ offset ∈ [0x0000, 0x0004, 0x0008, 0x000C, 0x0010, 0x0014, 0x0018, 0x0FFC, 0x1000, 0x13FC, 0x1400, 0x1FFC, 0x2000, 0x3FFC],
      (facing (.read offset 4)).inputs = .read offset 4 :: [] ∧ offset % 4 = 0 ∧ offset < 0x4000) ∧
    (∀ k, k < 4 → ({ facing (.read 0x13FC 4) with cmdRam := cellsFrom 1020 [1, 2, 3, 4] } : State).cmdRam.read
      (0x13FC - 0x1000 + k) = ([1, 2, 3, 4] : List Byte)[k]?) ∧
    (∀ k, k < 4 → ({ facing (.read 0x3FFC 4) with opRam := cellsFrom 8188 [1, 2, 3, 4] } : State).opRam.read
      (0x3FFC - 0x2000 + k) = ([1, 2, 3, 4] : List Byte)[k]?) := by decide +kernel

theorem witness_MalformedHostAccessIsRefused :
    (facing (.write 0x2000 2 1)).inputs = .write 0x2000 2 1 :: [] ∧ (2 ≠ 4 ∨ 0x2000 % 4 ≠ 0) ∧
      (facing (.read 0x3FFF 4)).inputs = .read 0x3FFF 4 :: [] ∧ (4 ≠ 4 ∨ 0x3FFF % 4 ≠ 0) ∧ 0x3FFF < 0x4000 := by
  decide +kernel

theorem witness_ResetInputResetsTheRegisters :
    ({ facing .reset with state := .busy, donePend := true } : State).inputs = .reset :: [] := rfl


end Sys2Proof.Tests
end

section
/-! PROOFS: the turns of a step, host writes, host reads and the reset input (10_state.md R22 to R37; 20_memory.md R52
to R60). -/

namespace Sys2Proof.Machine

/-! ## The step, once per kind of turn -/

theorem step_of_event {s : State} {e : HostEvent} {rest : List HostEvent} (h : s.inputs = e :: rest) :
    step s = eventTurn e { s with inputs := rest } := by
  simp [step, turn, h]

theorem step_of_no_event {s : State} (h : s.inputs = []) :
    step s = if s.state = .busy then engineStep s else .refused .noStep := by
  simp [step, turn, h]

theorem step_of_wait {s : State} {rest : List HostEvent} (h : s.inputs = .wait :: rest) :
    step s = if s.state = .busy then engineStep { s with inputs := rest } else .next { s with inputs := rest } :=
  step_of_event h

/-- An aligned 32-bit access inside the window takes effect (20_memory.md R52, R53). -/
theorem hostAccess_of_aligned {offset : Nat} (hw : offset < 0x4000) (ha : offset % 4 = 0) (s : State)
    (act : State → State) : hostAccess offset 4 s act = .next (act s) := by
  have hin : ¬ windowSize ≤ offset := Nat.not_le.2 hw
  simp [hostAccess, hin, ha]

theorem step_of_write {s : State} {offset : Nat} {w : Word} {rest : List HostEvent}
    (h : s.inputs = .write offset 4 w :: rest) (ha : offset % 4 = 0) (hw : offset < 0x4000) :
    step s = .next (hostWrite offset w { s with inputs := rest }) :=
  (step_of_event h).trans (hostAccess_of_aligned hw ha _ _)

theorem step_of_read {s : State} {offset : Nat} {rest : List HostEvent}
    (h : s.inputs = .read offset 4 :: rest) (ha : offset % 4 = 0) (hw : offset < 0x4000) :
    step s = .next (hostRead offset { s with inputs := rest }) :=
  (step_of_event h).trans (hostAccess_of_aligned hw ha _ _)

/-! ## No step (O7) -/

/-- A fetch of a word with an unwritten byte stops the engine (10_state.md R34). -/
theorem engineStep_of_unwritten {s : State} (h : ∃ k, k < 4 ∧ s.cmdRam.read (4 * s.cp.toNat + k) = none) :
    engineStep s = .fault .unwrittenCommand := by
  have hbytes : s.cmdRam.readBytes (cmdAddr s.cp.toNat) 4 = none := (Memory.readBytes_eq_none _ _ _).2 h
  have hfetch : fetch s = .error .unwrittenCommand := by simp [fetch, hbytes]
  simp [engineStep, hfetch]

/-- Settles O7, by the two kinds of turn in which the engine may step. -/
theorem noStepWithoutBusyOrWrittenCommand : Obligations.NoStepWithoutBusyOrWrittenCommand := by
  unfold Obligations.NoStepWithoutBusyOrWrittenCommand
  refine ⟨fun s hs => ⟨fun h => ?_, fun rest h => ?_⟩, fun s hs hu => ⟨fun h => ?_, fun rest h => ?_⟩⟩
  · rw [step_of_no_event h, if_neg hs]
  · rw [step_of_wait h, if_neg hs]
  · rw [step_of_no_event h, if_pos hs, engineStep_of_unwritten hu]
  · rw [step_of_wait h, if_pos hs]
    exact engineStep_of_unwritten hu

/-! ## STATUS as a number (O57) -/

/-- A word put together from two fields is the high one shifted past the low one. -/
theorem toNat_append_eq_add {m n : Nat} (x : BitVec m) (y : BitVec n) :
    (x ++ y).toNat = x.toNat * 2 ^ n + y.toNat := by
  rw [BitVec.toNat_append, ← Nat.shiftLeft_add_eq_or_of_lt y.isLt, Nat.shiftLeft_eq]

@[simp] theorem flagBit_toNat (b : Bool) : (flagBit b).toNat = b.toNat := by cases b <;> rfl

theorem EngineState.code_toNat (e : EngineState) :
    e.code.toNat = match e with | .idle => 0 | .busy => 1 | .halted => 2 | .faulted => 3 := by cases e <;> rfl

theorem Rc.code_toNat (rc : Rc) :
    rc.code.toNat = match rc with | .ok => 0 | .absent => 1 | .divzero => 2 | .invalid => 3 := by cases rc <;> rfl

/-- The fields of STATUS at their places (10_state.md R25). -/
theorem statusWord_toNat (s : State) : (statusWord s).toNat = s.state.code.toNat + 4 * s.donePend.toNat +
    8 * s.faultPend.toNat + 16 * s.rc.code.toNat + 256 * s.sAbsent.toNat + 512 * s.sDivzero.toNat +
    1024 * s.sInvalid.toNat + 2048 * s.werr.toNat := by
  simp only [statusWord, toNat_append_eq_add, flagBit_toNat, BitVec.ofNat_eq_ofNat, BitVec.toNat_zero]
  omega

/-- The enables of CTRL at their places; the strobes read as 0 (10_state.md R23). -/
theorem ctrlWord_toNat (s : State) : (ctrlWord s).toNat = 4 * s.ieDone.toNat + 8 * s.ieFault.toNat := by
  simp only [ctrlWord, toNat_append_eq_add, flagBit_toNat, BitVec.ofNat_eq_ofNat, BitVec.toNat_zero]
  omega

/-- Settles O57: STATUS by its fields, IRQ by its two sources. -/
theorem statusWordAndIrq : Obligations.StatusWordAndIrq := by
  unfold Obligations.StatusWordAndIrq
  intro s
  refine ⟨?_, ?_⟩
  · have hfields := statusWord_toNat s
    rw [EngineState.code_toNat, Rc.code_toNat] at hfields
    exact hfields
  · simp only [irq, Bool.or_eq_true, Bool.and_eq_true]

/-! ## The reset state and the reset input (O12, O58) -/

/-- Settles O12: both RAMs are empty, no fault or result is recorded, and nothing is counted. -/
theorem resetMeetsTheInvariants : Obligations.ResetMeetsTheInvariants := by
  unfold Obligations.ResetMeetsTheInvariants
  have hmem : MemoryCanonical State.reset := ⟨rfl, rfl, rfl, rfl⟩
  have hstatus : StatusConsistent State.reset := by simp [StatusConsistent, State.reset]
  have hcount : CountBounded State.reset := by simp [CountBounded, State.reset]
  exact ⟨hmem, hstatus, hcount⟩

/-- Settles O58: the reset input is taken whatever the machine was doing, and every register is a constant after it. -/
theorem resetInputResetsTheRegisters : Obligations.ResetInputResetsTheRegisters := by
  unfold Obligations.ResetInputResetsTheRegisters
  intro s rest h
  have hstep : step s = .next (resetInput { s with inputs := rest }) := step_of_event h
  exact ⟨_, hstep, rfl, BitVec.eq_of_toNat_eq (statusWord_toNat _), BitVec.eq_of_toNat_eq (ctrlWord_toNat _), rfl, rfl,
    rfl, rfl, rfl, fun _ => ⟨rfl, rfl⟩, rfl⟩

/-! ## Host writes of CTRL (O52) -/

/-- In every STATE a write of CTRL sets the enables, and leaves CP, both RAMs and the model's own fields as they are. -/
theorem writeCtrl_frame (w : Word) (s : State) :
    (writeCtrl w s).inputs = s.inputs ∧ (writeCtrl w s).ieDone = w.getLsbD 2 ∧
      (writeCtrl w s).ieFault = w.getLsbD 3 ∧ (writeCtrl w s).cp = s.cp ∧ (writeCtrl w s).opRam = s.opRam ∧
      (writeCtrl w s).cmdRam = s.cmdRam ∧ (writeCtrl w s).reply = s.reply ∧
      (writeCtrl w s).freeCount = s.freeCount := by
  unfold writeCtrl
  dsimp only
  split <;> split <;> simp

/-- While BUSY, START and CLEAR only set WERR (10_state.md R23, R27, R28). -/
theorem writeCtrl_of_busy {s : State} (h : s.state = .busy) (w : Word) :
    writeCtrl w s = { s with ieDone := w.getLsbD 2, ieFault := w.getLsbD 3,
                             werr := s.werr || w.getLsbD 0 || w.getLsbD 1 } := by
  cases h0 : w.getLsbD 0 <;> cases h1 : w.getLsbD 1 <;>
    simp [-BitVec.getLsbD_eq_getElem, writeCtrl, startAction, clearAction, setWerr, h, h0, h1]

/-- Out of BUSY, START begins a run whether or not CLEAR is written with it (10_state.md R23, R27). -/
theorem writeCtrl_of_start {s : State} (h : s.state ≠ .busy) {w : Word} (h0 : w.getLsbD 0 = true) :
    writeCtrl w s = { clearOutcome s with ieDone := w.getLsbD 2, ieFault := w.getLsbD 3, cmdCount := 0,
                                          state := .busy } := by
  cases h1 : w.getLsbD 1 <;>
    simp [-BitVec.getLsbD_eq_getElem, writeCtrl, startAction, clearAction, clearOutcome, h, h0, h1]

/-- Out of BUSY, CLEAR alone returns to IDLE (10_state.md R28). -/
theorem writeCtrl_of_clear {s : State} (h : s.state ≠ .busy) {w : Word} (h0 : ¬ w.getLsbD 0 = true)
    (h1 : w.getLsbD 1 = true) :
    writeCtrl w s = { clearOutcome s with ieDone := w.getLsbD 2, ieFault := w.getLsbD 3, state := .idle } := by
  simp [-BitVec.getLsbD_eq_getElem, writeCtrl, clearAction, clearOutcome, h, h0, h1]

/-- A write of CTRL with neither START nor CLEAR sets the enables alone. -/
theorem writeCtrl_of_enables (s : State) {w : Word} (h0 : ¬ w.getLsbD 0 = true) (h1 : ¬ w.getLsbD 1 = true) :
    writeCtrl w s = { s with ieDone := w.getLsbD 2, ieFault := w.getLsbD 3 } := by
  simp only [writeCtrl, h0, h1, if_false, Bool.false_eq_true]

/-- Settles O52: the frame of the write, and then BUSY or not, and which of START and CLEAR is written. -/
theorem ctrlWriteActs : Obligations.CtrlWriteActs := by
  unfold Obligations.CtrlWriteActs
  intro s w rest h
  have hstep : step s = .next (writeCtrl w { s with inputs := rest }) := step_of_write h rfl (by decide)
  obtain ⟨hin, hdone, hfault, hcp, hop, hcmd, hreply, hfree⟩ := writeCtrl_frame w { s with inputs := rest }
  refine ⟨_, hstep, hin, hdone, hfault, hcp, hop, hcmd, hreply, hfree, ?_⟩
  by_cases hb : s.state = .busy
  · rw [if_pos hb, writeCtrl_of_busy (s := { s with inputs := rest }) hb]
  · rw [if_neg hb]
    by_cases h0 : w.getLsbD 0 = true
    · rw [if_pos h0, writeCtrl_of_start (s := { s with inputs := rest }) hb h0]
      exact ⟨rfl, rfl, BitVec.eq_of_toNat_eq (statusWord_toNat _), rfl, rfl⟩
    · rw [if_neg h0]
      by_cases h1 : w.getLsbD 1 = true
      · rw [if_pos h1, writeCtrl_of_clear (s := { s with inputs := rest }) hb h0 h1]
        exact ⟨rfl, rfl, BitVec.eq_of_toNat_eq (statusWord_toNat _), rfl, rfl⟩
      · rw [if_neg h1, writeCtrl_of_enables _ h0 h1]

/-! ## Host writes of CP and of the RAMs (O53, O54) -/

theorem hostWrite_cp (w : Word) (s : State) : hostWrite 0x0008 w s = writeCp w s := rfl

theorem hostWrite_cmdRam {offset : Nat} (h : 0x1000 ≤ offset ∧ offset < 0x1400) (w : Word) (s : State) :
    hostWrite offset w s = writeCmdRam (offset - 0x1000) w s := by
  rw [hostWrite, if_neg (by omega), if_neg (by omega), if_pos h]

theorem hostWrite_opRam {offset : Nat} (h : 0x2000 ≤ offset ∧ offset < 0x4000) (w : Word) (s : State) :
    hostWrite offset w s = writeOpRam (offset - 0x2000) w s := by
  rw [hostWrite, if_neg (by omega), if_neg (by omega), if_neg (by omega), if_pos h]

/-- Read-only registers and reserved offsets ignore a write (10_state.md R25, R26, R29, R30). -/
theorem hostWrite_ignored {offset : Nat}
    (h : offset = 0x0004 ∨ (0x000C ≤ offset ∧ offset < 0x1000) ∨ (0x1400 ≤ offset ∧ offset < 0x2000)) (w : Word)
    (s : State) : hostWrite offset w s = s := by
  rw [hostWrite, if_neg (by omega), if_neg (by omega), if_neg (by omega), if_neg (by omega)]

/-- While BUSY, a write of CP or of a RAM only sets WERR (10_state.md R24, 20_memory.md R58). -/
theorem hostWrite_of_busy {s : State} (hb : s.state = .busy) {offset : Nat} (hw : offset < 0x4000)
    (h : offset = 0x0008 ∨ (0x1000 ≤ offset ∧ offset < 0x1400) ∨ 0x2000 ≤ offset) (w : Word) :
    hostWrite offset w s = setWerr s := by
  rcases h with rfl | h | h
  · rw [hostWrite_cp, writeCp, if_pos hb]
  · rw [hostWrite_cmdRam h, writeCmdRam, if_pos hb]
  · rw [hostWrite_opRam ⟨h, hw⟩, writeOpRam, if_pos hb]

/-- Settles O53: refused while BUSY, and ignored always. -/
theorem ignoredHostWrites : Obligations.IgnoredHostWrites := by
  unfold Obligations.IgnoredHostWrites
  intro s offset w rest h ha hw
  rw [step_of_write h ha hw]
  refine ⟨fun hb ho => ?_, fun ho => ?_⟩
  · rw [hostWrite_of_busy (s := { s with inputs := rest }) hb hw ho]
    rfl
  · rw [hostWrite_ignored ho]

theorem toLE_getElem? {n k : Nat} (hk : k < n) (v : Nat) : (toLE n v)[k]? = some (BitVec.ofNat 8 (v / 256 ^ k)) := by
  induction n generalizing k v with
  | zero => omega
  | succ n ih =>
    cases k with
    | zero => simp [toLE]
    | succ k => simp [toLE, ih (Nat.lt_of_succ_lt_succ hk), Nat.div_div_eq_div_mul, Nat.pow_succ, Nat.mul_comm]

/-- What a RAM at window offset `base` reads after a host write of a word: the four bytes of the word from the offset on,
little-endian, and elsewhere what it read before (20_memory.md R54, R55, R57). -/
theorem read_after_hostWord (m : Memory) {base offset : Nat} (hbase : base ≤ offset) (w : Word) (a : Nat) :
    (m.writeBytes (offset - base) (wordBytes w)).read a =
      if offset ≤ base + a ∧ base + a < offset + 4 then some (BitVec.ofNat 8 (w.toNat / 256 ^ (base + a - offset)))
      else m.read a := by
  rw [Memory.read_writeBytes, wordBytes_length]
  by_cases h : offset ≤ base + a ∧ base + a < offset + 4
  · have hin : offset - base ≤ a ∧ a < offset - base + 4 := by omega
    have hk : a - (offset - base) = base + a - offset := by omega
    rw [if_pos h, if_pos hin, hk, wordBytes, toLE_getElem? (by omega)]
  · have hout : ¬ (offset - base ≤ a ∧ a < offset - base + 4) := by omega
    rw [if_neg h, if_neg hout]

/-- Settles O54: CP, then each RAM through `read_after_hostWord`. -/
theorem hostWritesStore : Obligations.HostWritesStore := by
  unfold Obligations.HostWritesStore
  intro s offset w rest h ha hb
  refine ⟨fun ho => ?_, fun ho => ?_, fun ho => ?_⟩
  · subst ho
    refine ⟨w.extractLsb' 0 8, by simp, ?_⟩
    rw [step_of_write h ha (by decide), hostWrite_cp, writeCp, if_neg hb]
  · refine ⟨s.cmdRam.writeBytes (offset - 0x1000) (wordBytes w), ?_, read_after_hostWord _ ho.1 w⟩
    rw [step_of_write h ha (by omega), hostWrite_cmdRam ho, writeCmdRam, if_neg hb]
  · refine ⟨s.opRam.writeBytes (offset - 0x2000) (wordBytes w), ?_, read_after_hostWord _ ho.1 w⟩
    rw [step_of_write h ha ho.2, hostWrite_opRam ho, writeOpRam, if_neg hb]

/-! ## Host reads (O55) -/

/-- A host read moves `reply` and `freeCount` alone, and gives the window's word where there is one (20_memory.md R52,
R60). -/
theorem hostRead_eq (offset : Nat) (s : State) :
    ∃ v n, hostRead offset s = { s with reply := some v, freeCount := n } ∧ ∀ u, windowWord offset s = some u → v = u := by
  rcases hostRead_cases offset s with ⟨v, hv, hr⟩ | ⟨hn, hr⟩
  · exact ⟨v, s.freeCount, hr, fun u hu => Option.some.inj (hv.symm.trans hu)⟩
  · exact ⟨_, _, hr, fun u hu => by rw [hn] at hu; cases hu⟩

/-- From the last register on, the window holds the two RAMs and reads 0 elsewhere (20_memory.md R52). -/
theorem windowWord_past_registers {offset : Nat} (h : 0x0018 ≤ offset) (s : State) :
    windowWord offset s =
      if 0x1000 ≤ offset ∧ offset < 0x1400 then ramWord s.cmdRam (offset - 0x1000)
      else if 0x2000 ≤ offset ∧ offset < 0x4000 then
        if s.state = .busy then none else ramWord s.opRam (offset - 0x2000)
      else some 0 := by
  rw [windowWord, if_neg (by omega), if_neg (by omega), if_neg (by omega), if_neg (by omega), if_neg (by omega),
    if_neg (by omega)]

theorem windowWord_reserved {offset : Nat}
    (h : (0x0018 ≤ offset ∧ offset < 0x1000) ∨ (0x1400 ≤ offset ∧ offset < 0x2000)) (s : State) :
    windowWord offset s = some 0 := by
  rw [windowWord_past_registers (by omega), if_neg (by omega), if_neg (by omega)]

theorem windowWord_cmdRam {offset : Nat} (h : 0x1000 ≤ offset ∧ offset < 0x1400) (s : State) :
    windowWord offset s = ramWord s.cmdRam (offset - 0x1000) := by
  rw [windowWord_past_registers (by omega), if_pos h]

/-- The operand RAM is in the window out of BUSY alone (20_memory.md R59). -/
theorem windowWord_opRam {s : State} (hb : s.state ≠ .busy) {offset : Nat} (h : 0x2000 ≤ offset ∧ offset < 0x4000) :
    windowWord offset s = ramWord s.opRam (offset - 0x2000) := by
  rw [windowWord_past_registers (by omega), if_neg (by omega), if_pos h, if_neg hb]

theorem ramWord_of_read {m : Memory} {a : Nat} {bs : List Byte} (hl : bs.length = 4)
    (h : ∀ k, k < 4 → m.read (a + k) = bs[k]?) : ramWord m a = some (bytesWord bs) := by
  rw [ramWord, (Memory.readBytes_eq_some m a 4 bs).2 ⟨hl, h⟩, Option.map_some]

theorem bytesWord_toNat {bs : List Byte} (hl : bs.length = 4) : (bytesWord bs).toNat = leNat bs := by
  have hlt := leNat_lt bs
  rw [hl] at hlt
  exact (BitVec.toNat_ofNat _ _).trans (Nat.mod_eq_of_lt hlt)

/-- Settles O55: the reply is the window's word, range by range. -/
theorem hostReadsReturnTheWindow : Obligations.HostReadsReturnTheWindow := by
  unfold Obligations.HostReadsReturnTheWindow
  intro s offset rest h ha hw
  obtain ⟨v, n, hread, hv⟩ := hostRead_eq offset { s with inputs := rest }
  refine ⟨v, n, by rw [step_of_read h ha hw, hread], ?ctrl, ?status, ?cp, ?faultInfo, ?faultCmd, ?cmdCount, ?reserved,
    ?cmdRam, ?opRam⟩
  case ctrl =>
    rintro rfl
    rw [hv _ rfl, ctrlWord_toNat]
  case cp =>
    rintro rfl
    rw [hv _ rfl, BitVec.toNat_setWidth]
    exact Nat.mod_eq_of_lt (by have := s.cp.isLt; omega)
  case status | faultInfo | faultCmd | cmdCount =>
    rintro rfl
    exact hv _ rfl
  case reserved => exact fun ho => hv _ (windowWord_reserved ho _)
  case cmdRam =>
    intro ho bs hl hbs
    rw [hv _ ((windowWord_cmdRam ho _).trans (ramWord_of_read hl hbs)), bytesWord_toNat hl]
  case opRam =>
    intro ho hb bs hl hbs
    rw [hv _ ((windowWord_opRam hb ⟨ho, hw⟩).trans (ramWord_of_read hl hbs)), bytesWord_toNat hl]

end Sys2Proof.Machine
end

section
/-! PROOFS: every step keeps CMD_COUNT at most 256, and at most CP during a run (10_state.md R29, 40_control.md R114). -/

namespace Sys2Proof.Machine

/-- A change that keeps CMD_COUNT, and does not enter a run or move CP within one, keeps the bound. -/
theorem CountBounded.of_kept {s t : State} (h : CountBounded s) (hcount : t.cmdCount = s.cmdCount)
    (hrun : t.state = .busy → s.state = .busy ∧ t.cp = s.cp) : CountBounded t := by
  obtain ⟨hmax, hcp⟩ := h
  refine ⟨hcount ▸ hmax, fun hb => ?_⟩
  obtain ⟨hsb, hcpEq⟩ := hrun hb
  rw [hcount, hcpEq]
  exact hcp hsb

theorem CountBounded.of_count_zero {t : State} (h : t.cmdCount = 0) : CountBounded t := by
  simp [CountBounded, h]

theorem CountBounded.raiseFault {s : State} (h : CountBounded s) (c : Cause) (w : Word) :
    CountBounded (raiseFault c w s) :=
  h.of_kept rfl (by simp)

/-- A command that completes during a run counts once, and CP moves on once or the run ends (40_control.md R113). -/
theorem CountBounded.complete {s : State} (h : CountBounded s) (hb : s.state = .busy) (w : Word) (rc : Rc) :
    CountBounded (complete w rc s) := by
  have hcp := h.2 hb
  have hcpLt := s.cp.isLt
  have hcount : (s.cmdCount + 1).toNat = s.cmdCount.toNat + 1 := by bv_omega
  refine ⟨by rw [complete_cmdCount, hcount]; omega, fun hrun => ?_⟩
  rw [complete_cmdCount, hcount]
  rcases advance_cases w (countCommand (setRc rc s)) with ⟨-, hadv⟩ | ⟨hne, hadv⟩
  · rw [Machine.complete, hadv] at hrun
    simp at hrun
  · rw [countCommand_cp, setRc_cp] at hne
    have hnext : (s.cp + 1).toNat = s.cp.toNat + 1 := by bv_omega
    rw [Machine.complete, hadv]
    calc s.cmdCount.toNat + 1 ≤ s.cp.toNat + 1 := Nat.succ_le_succ hcp
      _ = (s.cp + 1).toNat := hnext.symm

theorem CountBounded.writeSlots {s : State} (h : CountBounded s) (j : Nat) (bs : List Byte) :
    CountBounded (writeSlots j bs s) :=
  h.of_kept rfl fun hb => ⟨hb, rfl⟩

/-- A command run by a BUSY engine keeps the bound: HALT ends the run, and any other ends as `retire` says. -/
theorem CountBounded.exec {s t : State} (h : CountBounded s) (hb : s.state = .busy) {i : Instr}
    (hx : exec i s = .next t) : CountBounded t := by
  by_cases hi : i = .halt
  · subst hi
    cases hx
    exact h.of_kept rfl (by simp)
  · obtain ⟨e, he⟩ := exec_eq_retire i s hi
    rw [he] at hx
    rcases retire_cases (encode i) s e with ⟨f, hr⟩ | ⟨c, -, hr⟩ | ⟨rc, -, hr⟩ | ⟨j, bs, -, -, hr⟩ <;>
      rw [hr] at hx <;> cases hx
    · exact h.raiseFault c _
    · exact h.complete hb _ rc
    · exact (h.writeSlots j bs).complete hb _ .ok

theorem CountBounded.engineStep {s t : State} (h : CountBounded s) (hb : s.state = .busy)
    (hx : engineStep s = .next t) : CountBounded t := by
  rcases engineStep_cases s with ⟨f, hr, -⟩ | ⟨bs, e, -, -, hr⟩ | ⟨bs, i, -, -, hr⟩ <;> rw [hr] at hx
  · cases hx
  · cases hx
    exact h.raiseFault _ _
  · exact h.exec hb hx

theorem CountBounded.setWerr {s : State} (h : CountBounded s) : CountBounded (setWerr s) :=
  h.of_kept rfl fun hb => ⟨hb, rfl⟩

/-- START begins a run with nothing counted, and while BUSY it leaves the run alone (10_state.md R27). -/
theorem CountBounded.startAction {s : State} (h : CountBounded s) : CountBounded (startAction s) := by
  rcases startAction_cases s with ⟨-, ha⟩ | ⟨-, ha⟩ <;> rw [ha]
  · exact h.setWerr
  · exact .of_count_zero rfl

/-- CLEAR begins no run, and while BUSY it leaves the run alone (10_state.md R28). -/
theorem CountBounded.clearAction {s : State} (h : CountBounded s) : CountBounded (clearAction s) := by
  rcases clearAction_cases s with ⟨-, ha⟩ | ⟨-, ha⟩ <;> rw [ha]
  · exact h.setWerr
  · exact h.of_kept rfl (by simp)

theorem CountBounded.writeCtrl {s : State} (h : CountBounded s) (w : Word) : CountBounded (writeCtrl w s) := by
  have henables : CountBounded { s with ieDone := w.getLsbD 2, ieFault := w.getLsbD 3 } :=
    h.of_kept rfl fun hb => ⟨hb, rfl⟩
  have hclear : CountBounded (if w.getLsbD 1 then
      Machine.clearAction { s with ieDone := w.getLsbD 2, ieFault := w.getLsbD 3 }
      else { s with ieDone := w.getLsbD 2, ieFault := w.getLsbD 3 }) := by
    split
    · exact henables.clearAction
    · exact henables
  unfold Machine.writeCtrl
  dsimp only
  split
  · exact hclear.startAction
  · exact hclear

/-- A host write keeps the bound: CP can move only out of BUSY (10_state.md R24). -/
theorem CountBounded.hostWrite {s : State} (h : CountBounded s) (offset : Nat) (w : Word) :
    CountBounded (hostWrite offset w s) := by
  rcases hostWrite_cases offset w s with ⟨-, ha⟩ | ⟨-, ha⟩ | ⟨-, -, ha⟩ | ⟨-, -, ha⟩ | ha <;> rw [ha]
  · exact h.writeCtrl w
  · unfold writeCp
    split
    · exact h.setWerr
    · exact h.of_kept rfl fun hb => absurd hb ‹_›
  · unfold writeCmdRam
    split
    · exact h.setWerr
    · exact h.of_kept rfl fun hb => ⟨hb, rfl⟩
  · unfold writeOpRam
    split
    · exact h.setWerr
    · exact h.of_kept rfl fun hb => ⟨hb, rfl⟩
  · exact h

theorem CountBounded.hostRead {s : State} (h : CountBounded s) (offset : Nat) : CountBounded (hostRead offset s) := by
  rcases hostRead_cases offset s with ⟨w, -, ha⟩ | ⟨-, ha⟩ <;> rw [ha] <;> exact h.of_kept rfl fun hb => ⟨hb, rfl⟩

/-- A host access that takes effect answers the state its action gives. -/
theorem eq_of_hostAccess_next {offset width : Nat} {s t : State} {act : State → State}
    (h : hostAccess offset width s act = .next t) : t = act s := by
  rcases hostAccess_cases offset width s act with ⟨-, -, -, ha⟩ | ⟨r, ha⟩ <;> rw [ha] at h <;> cases h
  rfl

theorem CountBounded.eventTurn {s t : State} (h : CountBounded s) {e : HostEvent} (hx : eventTurn e s = .next t) :
    CountBounded t := by
  cases e with
  | write offset width data => exact eq_of_hostAccess_next hx ▸ h.hostWrite offset data
  | read offset width => exact eq_of_hostAccess_next hx ▸ h.hostRead offset
  | reset =>
    cases hx
    exact .of_count_zero rfl
  | wait =>
    by_cases hb : s.state = .busy
    · exact h.engineStep hb (by simpa [Machine.eventTurn, hb] using hx)
    · have ht : s = t := by simpa [Machine.eventTurn, hb] using hx
      exact ht ▸ h

/-- Settles O11: the bound is carried through each of the turns a step can take, the engine's among them. -/
theorem stepKeepsCountBounded : Obligations.StepKeepsCountBounded := by
  unfold Obligations.StepKeepsCountBounded
  intro s t h hx
  rcases step_cases s with ⟨e, rest, -, hr⟩ | ⟨-, hb, hr⟩ | ⟨-, -, hr⟩ <;> rw [hr] at hx
  · have hqueue : CountBounded { s with inputs := rest } := h.of_kept rfl fun hb => ⟨hb, rfl⟩
    exact hqueue.eventTurn hx
  · exact h.engineStep hb hx
  · cases hx

end Sys2Proof.Machine
end

section
/-! PROOFS: a command with an unwritten source byte stops the model, and one with every source byte written answers a
next state (10_state.md R34, 93_implementation_defined.md I1). -/

namespace Sys2Proof.Machine

/-! ## What the end of a command's reads can be -/

/-- Some byte of these sources (first slot, byte count) was never written. -/
def SomeUnwritten (s : State) (ps : List (Slot × Nat)) : Prop :=
  ∃ p, p ∈ ps ∧ ∃ k, k < p.2 ∧ s.opRam.read (slotAddr p.1.toNat + k) = none

/-- Every byte of these sources was written. -/
def AllWritten (s : State) (ps : List (Slot × Nat)) : Prop :=
  ∀ p, p ∈ ps → ∀ k, k < p.2 → s.opRam.read (slotAddr p.1.toNat + k) ≠ none

theorem AllWritten.not_someUnwritten {s : State} {ps : List (Slot × Nat)} (h : AllWritten s ps) :
    ¬ SomeUnwritten s ps := fun ⟨p, hp, k, hk, hn⟩ => h p hp k hk hn

/-- The result of an effect, if it writes one, lies in the operand RAM. -/
def Effect.InRange (e : Effect) : Prop := ∀ j bs, e = .wrote j bs → slotAddr j + bs.length ≤ opRamSize

theorem Effect.inRange_silent (rc : Rc) : (Effect.silent rc).InRange := fun _ _ h => nomatch h

theorem Effect.inRange_raised (c : Cause) : (Effect.raised c).InRange := fun _ _ h => nomatch h

/-- A result as long as its operand type says, from a first slot that fits, lies in the operand RAM. -/
theorem Effect.inRange_wrote {t : OperandType} {rd : Slot} {bs : List Byte} (hf : fits t rd = true)
    (hl : bs.length = 32 * t.span) : (Effect.wrote rd.toNat bs).InRange := by
  intro j bs' h
  cases h
  rw [hl]
  exact fits_in_range t rd hf

theorem Effect.inRange_wroteOr {t : OperandType} {rd : Slot} {r : Option (List Byte)} (rc : Rc) (hf : fits t rd = true)
    (hl : ∀ bs, r = some bs → bs.length = 32 * t.span) : (wroteOr rc rd.toNat r).InRange := by
  rcases wroteOr_cases rc rd.toNat r with ⟨-, h⟩ | ⟨bs, hr, h⟩ <;> rw [h]
  · exact inRange_silent rc
  · exact inRange_wrote hf (hl bs hr)

/-- The reads of a command cover these sources: all written and they come to an effect that fits, or one byte unwritten
and they stop with the model fault. -/
def Covers (s : State) (ps : List (Slot × Nat)) (r : Except Fault Effect) : Prop :=
  (AllWritten s ps ∧ ∃ e, r = .ok e ∧ e.InRange) ∨ (SomeUnwritten s ps ∧ r = .error .unwrittenOperand)

theorem Covers.done {s : State} {e : Effect} (h : e.InRange) : Covers s [] (.ok e) :=
  .inl ⟨fun _ hp => absurd hp List.not_mem_nil, e, rfl, h⟩

/-- One more operand read in front covers one more source. -/
theorem Covers.read {α : Type} {s : State} {j : Slot} {n : Nat} {ps : List (Slot × Nat)} {r : Except Fault α}
    {q : α → Except Fault Effect} (h : ReadsOrStops s (slotAddr j.toNat) n r)
    (hq : ∀ v, r = .ok v → Covers s ps (q v)) : Covers s ((j, n) :: ps) (r >>= q) := by
  rcases h with ⟨hw, v, rfl⟩ | ⟨hn, rfl⟩
  · rcases hq v rfl with ⟨hws, he⟩ | ⟨⟨p, hp, hn⟩, he⟩
    · refine .inl ⟨fun p hp => ?_, he⟩
      rcases List.mem_cons.1 hp with rfl | hp
      · exact hw
      · exact hws p hp
    · exact .inr ⟨⟨p, List.mem_cons_of_mem _ hp, hn⟩, he⟩
  · exact .inr ⟨⟨(j, n), List.mem_cons_self, hn⟩, rfl⟩

/-- The one operand is read, and the outcome fits. -/
theorem Covers.unary {α : Type} {s : State} {j : Slot} {n : Nat} {r : Except Fault α} {f : α → Effect}
    (h : ReadsOrStops s (slotAddr j.toNat) n r) (hf : ∀ v, (f v).InRange) :
    Covers s [(j, n)] (do let v ← r; return f v) :=
  .read h fun v _ => .done (hf v)

/-- The two operands are read, and the outcome fits. -/
theorem Covers.binary {α β : Type} {s : State} {j k : Slot} {m n : Nat} {r : Except Fault α} {r' : Except Fault β}
    {f : α → β → Effect} (h : ReadsOrStops s (slotAddr j.toNat) m r) (h' : ReadsOrStops s (slotAddr k.toNat) n r')
    (hf : ∀ v w, (f v w).InRange) : Covers s [(j, m), (k, n)] (do let v ← r; let w ← r'; return f v w) :=
  .read h fun v _ => .unary h' (hf v)

/-- What O16 says of one command in one state. -/
def StopsOrAnswers (i : Instr) (s : State) : Prop :=
  (SomeUnwritten s (sources i) → exec i s = .fault .unwrittenOperand) ∧
    (AllWritten s (sources i) → ∃ t, exec i s = .next t)

/-- A command whose reads cover its sources stops on an unwritten one and else answers. -/
theorem Covers.stopsOrAnswers {i : Instr} {s : State} {r : Except Fault Effect} (h : Covers s (sources i) r)
    (hx : exec i s = retire (encode i) s r) : StopsOrAnswers i s := by
  unfold StopsOrAnswers
  rw [hx]
  rcases h with ⟨hw, e, rfl, he⟩ | ⟨hn, rfl⟩
  · exact ⟨fun hn => absurd hn hw.not_someUnwritten, fun _ => retire_next _ s e he⟩
  · exact ⟨fun _ => rfl, fun hw => absurd hn hw.not_someUnwritten⟩

/-! ## Lengths of results, and reads of two slots as one source -/

theorem setTopBit_length (bs : List Byte) (bit : Bool) : (setTopBit bs bit).length = bs.length := by
  simp [setTopBit]; omega

theorem ptEncode_length {P : Point} {E : List Byte} (h : ptEncode P = some E) : E.length = 32 := by
  unfold ptEncode at h
  cases hp : ptAffine P with
  | none => simp [hp] at h
  | some q =>
    obtain ⟨x, y⟩ := q
    have hE : setTopBit (fp2ToBytes y) (fp2Sign x) = E := by simpa [hp] using h
    rw [← hE, setTopBit_length, fp2ToBytes_length]

theorem schnorrSign_length (H : HashFn) (c : Curve) (ss pk dg : List Byte) :
    (schnorrSign H c ss pk dg).length = 64 := by
  simp [schnorrSign, encodeMultiple_length]

theorem seedToSubseed_length (H : HashFn) (S : List Byte) : (seedToSubseed H S).length = 32 := by
  simp [seedToSubseed]

theorem length_of_map_eq_some {α : Type} {f : α → List Byte} {n : Nat} (hf : ∀ a, (f a).length = n) (r : Option α) :
    ∀ bs, r.map f = some bs → bs.length = n := by
  intro bs h
  obtain ⟨a, -, rfl⟩ := Option.map_eq_some_iff.1 h
  exact hf a

theorem readSlot_cases (s : State) (j : Slot) : ReadsOrStops s (slotAddr j.toNat) 32 (readBytes s j.toNat 32) :=
  readBytes_cases s j.toNat 32 (slot_in_range j)

theorem readFp2_slot_cases (s : State) (j : Slot) : ReadsOrStops s (slotAddr j.toNat) 32 (readFp2 s j.toNat) :=
  readFp2_cases s j.toNat (by have := j.isLt; omega)

/-- The 55 bytes of a seed lie in its two slots. -/
theorem readSeed_cases (s : State) (j : Slot) (h : fits .seed j = true) :
    ReadsOrStops s (slotAddr j.toNat) 55 (readBytes s j.toNat 55) := by
  have := fits_in_range .seed j h
  exact readBytes_cases s j.toNat 55 (by simp only [OperandType.span] at this; omega)

/-- A Pair read slot by slot covers the 64 bytes of both (30_encoding.md R97). -/
theorem readPair_cases (s : State) (j : Slot) (h : fits .pair j = true) :
    ReadsOrStops s (slotAddr j.toNat) 64
      (do let lo ← readBytes s j.toNat 32; let hi ← readBytes s (j.toNat + 1) 32; return (lo, hi)) := by
  have hend := fits_in_range .pair j h
  have hnext : slotAddr (j.toNat + 1) = slotAddr j.toNat + 32 := by simp only [slotAddr]; omega
  refine (readSlot_cases s j).append (n := 32) fun lo => ReadsOrStops.map _ ?_
  rw [← hnext]
  exact readBytes_cases s (j.toNat + 1) 32 (by simp only [OperandType.span] at hend; omega)

/-! ## The 44 commands -/

/-- A one-slot operand fits whatever its index. -/
theorem fits_raw (j : Slot) : fits .raw j = true := by
  have hj : j.toNat + OperandType.raw.span - 1 ≤ 255 := Nat.le_of_lt_succ j.isLt
  exact decide_eq_true hj

theorem Effect.inRange_slot {rd : Slot} {bs : List Byte} (hl : bs.length = 32) : (Effect.wrote rd.toNat bs).InRange :=
  inRange_wrote (t := .raw) (fits_raw rd) hl

theorem Effect.inRange_slotOr {rd : Slot} {r : Option (List Byte)} (rc : Rc) (hl : ∀ bs, r = some bs → bs.length = 32) :
    (wroteOr rc rd.toNat r).InRange :=
  inRange_wroteOr (t := .raw) rc (fits_raw rd) hl

/-- The seed commands read nothing when L is not 55 (48_schnorr_sign.md R250, log entry 11). -/
theorem Covers.seed {s : State} {rd rs1 : Slot} {l : Byte} {e : Effect} (hf : fits .seed rs1 = true) (he : e.InRange) :
    Covers s (if l.toNat = 55 then [(rs1, 55)] else [])
      (if l.toNat = 55 then do
        let S ← readBytes s rs1.toNat 55
        if seedValid S l.toNat then return .wrote rd.toNat (seedToSubseed Config.hash S) else return e
      else return e) := by
  by_cases hl : l.toNat = 55
  · rw [if_pos hl, if_pos hl]
    refine .read (readSeed_cases s rs1 hf) fun S _ => ?_
    split
    · exact .done (Effect.inRange_slot (seedToSubseed_length _ S))
    · exact .done he
  · rw [if_neg hl, if_neg hl]
    exact .done he

/-- Every well-formed command reads the bytes `sources` names and no other, and its outcome fits. -/
theorem stopsOrAnswers (i : Instr) (s : State) (hwf : i.wellFormed = true) : StopsOrAnswers i s := by
  open Effect in
  cases i with
  | halt => exact ⟨fun ⟨_, hp, _⟩ => absurd hp List.not_mem_nil, fun _ => ⟨_, rfl⟩⟩
  | nop => exact (Covers.done (inRange_silent .ok)).stopsOrAnswers rfl
  | mov rd a =>
    exact (Covers.read (readSlot_cases s a) fun b hb =>
      .done (inRange_slot (readBytes_length s _ _ b hb))).stopsOrAnswers rfl
  | fpMul rd a b | fpAdd rd a b | fpSub rd a b =>
    exact (Covers.binary (readFp_cases s a) (readFp_cases s b) fun _ _ =>
      inRange_slot (fpBytes_length _)).stopsOrAnswers rfl
  | fpSqr rd a | fpNeg rd a | fpHalf rd a =>
    exact (Covers.unary (readFp_cases s a) fun _ => inRange_slot (fpBytes_length _)).stopsOrAnswers rfl
  | fpInv rd a | fpSqrt rd a =>
    exact (Covers.unary (readFp_cases s a) fun _ =>
      inRange_slotOr _ (length_of_map_eq_some fpBytes_length _)).stopsOrAnswers rfl
  | fpRed rd a =>
    exact (Covers.unary (readRaw_cases s a) fun _ => inRange_slot (fpBytes_length _)).stopsOrAnswers rfl
  | fp2Mul rd a b | fp2Add rd a b | fp2Sub rd a b =>
    exact (Covers.binary (readFp2_slot_cases s a) (readFp2_slot_cases s b) fun _ _ =>
      inRange_slot (fp2ToBytes_length _)).stopsOrAnswers rfl
  | fp2Sqr rd a | fp2Neg rd a | fp2Half rd a =>
    exact (Covers.unary (readFp2_slot_cases s a) fun _ => inRange_slot (fp2ToBytes_length _)).stopsOrAnswers rfl
  | fp2Inv rd a | fp2Sqrt rd a =>
    exact (Covers.unary (readFp2_slot_cases s a) fun _ =>
      inRange_slotOr _ (length_of_map_eq_some fp2ToBytes_length _)).stopsOrAnswers rfl
  | fp2Sign rd a =>
    exact (Covers.unary (readFp2_slot_cases s a) fun _ => inRange_slot (boolBytes_length _)).stopsOrAnswers rfl
  | scRed32 rd a =>
    exact (Covers.unary (readRaw_cases s a) fun _ => inRange_slot (scBytes_length _)).stopsOrAnswers rfl
  | scRed64 rd a =>
    obtain ⟨-, ha⟩ := (Bool.and_eq_true _ _).mp hwf
    exact (Covers.unary (readWide_cases s a ha) fun _ => inRange_slot (scBytes_length _)).stopsOrAnswers rfl
  | scAdd rd a b | scSub rd a b | scMul rd a b =>
    exact (Covers.binary (readSc_cases s a) (readSc_cases s b) fun _ _ =>
      inRange_slot (scBytes_length _)).stopsOrAnswers rfl
  | scInv rd a =>
    exact (Covers.unary (readSc_cases s a) fun _ =>
      inRange_slotOr _ (length_of_map_eq_some scBytes_length _)).stopsOrAnswers rfl
  | ptLdid rd =>
    exact (Covers.done (inRange_wrote (t := .pt) hwf (ptBytes_length ptIdentity))).stopsOrAnswers
      (by simp only [exec, execPtLdid])
  | ptLdb rd =>
    exact (Covers.done (inRange_wrote (t := .pt) hwf (ptBytes_length (ptBase Config.curve)))).stopsOrAnswers
      (by simp only [exec, execPtLdb])
  | ptAdd rd a b =>
    simp only [Instr.wellFormed, Bool.and_eq_true] at hwf
    obtain ⟨⟨hrd, ha⟩, hb⟩ := hwf
    exact (Covers.binary (readPt_cases s a ha) (readPt_cases s b hb) fun _ _ =>
      inRange_wrote hrd (ptBytes_length _)).stopsOrAnswers rfl
  | ptMul rd a b =>
    simp only [Instr.wellFormed, Bool.and_eq_true] at hwf
    obtain ⟨⟨hrd, ha⟩, -⟩ := hwf
    exact (Covers.binary (readPt_cases s a ha) (readRaw_cases s b) fun _ _ =>
      inRange_wrote hrd (ptBytes_length _)).stopsOrAnswers rfl
  | ptNeg rd a | ptDbl rd a =>
    obtain ⟨hrd, ha⟩ := (Bool.and_eq_true _ _).mp hwf
    exact (Covers.unary (readPt_cases s a ha) fun _ => inRange_wrote hrd (ptBytes_length _)).stopsOrAnswers rfl
  | ptEq rd a b =>
    simp only [Instr.wellFormed, Bool.and_eq_true] at hwf
    obtain ⟨⟨-, ha⟩, hb⟩ := hwf
    exact (Covers.binary (readPt_cases s a ha) (readPt_cases s b hb) fun _ _ =>
      inRange_slot (boolBytes_length _)).stopsOrAnswers rfl
  | ptOncurve rd a =>
    obtain ⟨-, ha⟩ := (Bool.and_eq_true _ _).mp hwf
    exact (Covers.unary (readPt_cases s a ha) fun _ => inRange_slot (boolBytes_length _)).stopsOrAnswers rfl
  | ptEnc rd a =>
    obtain ⟨-, ha⟩ := (Bool.and_eq_true _ _).mp hwf
    exact (Covers.unary (readPt_cases s a ha) fun _ => inRange_slotOr _ fun _ => ptEncode_length).stopsOrAnswers rfl
  | ptDec rd a =>
    obtain ⟨hrd, -⟩ := (Bool.and_eq_true _ _).mp hwf
    exact (Covers.unary (readSlot_cases s a) fun _ =>
      inRange_wroteOr _ hrd (length_of_map_eq_some ptBytes_length _)).stopsOrAnswers rfl
  | ptChkenc rd a =>
    exact (Covers.unary (readSlot_cases s a) fun _ => inRange_slot (boolBytes_length _)).stopsOrAnswers rfl
  | seedStrict rd a l =>
    obtain ⟨-, ha⟩ := (Bool.and_eq_true _ _).mp hwf
    exact (Covers.seed ha (inRange_raised .invalidSeed)).stopsOrAnswers rfl
  | seedTry rd a l =>
    obtain ⟨-, ha⟩ := (Bool.and_eq_true _ _).mp hwf
    exact (Covers.seed ha (inRange_silent .invalid)).stopsOrAnswers rfl
  | keyPriv rd a =>
    exact (Covers.unary (readSlot_cases s a) fun _ => inRange_slot (scBytes_length _)).stopsOrAnswers rfl
  | keyPub rd a =>
    exact (Covers.unary (readSlot_cases s a) fun _ => inRange_slot (encodeMultiple_length _ _)).stopsOrAnswers rfl
  | sign rd a b =>
    simp only [Instr.wellFormed, Bool.and_eq_true] at hwf
    obtain ⟨⟨hrd, ha⟩, -⟩ := hwf
    refine (Covers.binary (readPair_cases s a ha) (readSlot_cases s b) fun keys dg =>
      inRange_wrote hrd (schnorrSign_length Config.hash Config.curve keys.1 keys.2 dg)).stopsOrAnswers ?_
    simp only [exec, execSign, bind_assoc, pure_bind]
  | verify rd a b =>
    simp only [Instr.wellFormed, Bool.and_eq_true] at hwf
    obtain ⟨⟨-, ha⟩, hb⟩ := hwf
    refine (Covers.binary (readPair_cases s a ha) (readBytes_cases s b.toNat 64 (fits_in_range .pair b hb))
      fun signed sig => inRange_slot (rd := rd)
        (boolBytes_length (schnorrVerify Config.hash Config.curve signed.1 signed.2 sig))).stopsOrAnswers ?_
    simp only [exec, execVerify, bind_assoc, pure_bind]

/-- Settles O16, by `stopsOrAnswers` for the command. -/
theorem unwrittenSourceStopsTheModel : Obligations.UnwrittenSourceStopsTheModel := by
  unfold Obligations.UnwrittenSourceStopsTheModel
  exact stopsOrAnswers

end Sys2Proof.Machine
end

section
/-! PROOFS: what the answer of a command and of a step tells, and from it the two RAMs and the host's side: which accesses
are refused, what every step keeps of both RAMs, and what no command changes (20_memory.md R51 to R65). -/

namespace Sys2Proof.Machine

/-! ## A command and a step, read from their answers -/

/-- The next state of a command other than HALT: fault entry, or completion with at most a result written in range. -/
theorem exec_next_cases {i : Instr} {s t : State} (hi : i ≠ .halt) (h : exec i s = .next t) :
    (∃ c, t = raiseFault c (encode i) s) ∨
    (∃ rc, t = complete (encode i) rc s) ∨
    (∃ j bs, slotAddr j + bs.length ≤ opRamSize ∧ t = complete (encode i) .ok (writeSlots j bs s)) := by
  obtain ⟨e, he⟩ := exec_eq_retire i s hi
  rw [he] at h
  rcases retire_cases (encode i) s e with ⟨f, hr⟩ | ⟨c, -, hr⟩ | ⟨rc, -, hr⟩ | ⟨j, bs, -, hin, hr⟩ <;>
    rw [hr] at h <;> cases h
  · exact .inl ⟨c, rfl⟩
  · exact .inr (.inl ⟨rc, rfl⟩)
  · exact .inr (.inr ⟨j, bs, hin, rfl⟩)

/-- HALT writes STATE and DONE_PEND alone (40_control.md R110). -/
theorem exec_halt_next {s t : State} (h : exec .halt s = .next t) : t = { s with state := .halted, donePend := true } := by
  cases h
  rfl

/-- During a `wait` only the engine may step. -/
theorem eventTurn_wait (s : State) : eventTurn .wait s = if s.state = .busy then engineStep s else .next s := rfl

/-- A predicate kept by the advance of the queue, by the engine, by the host's aligned accesses inside the window and by
the reset input is kept by every step (20_memory.md R60). -/
theorem step_keeps {P : State → Prop} (queue : ∀ s rest, P s → P { s with inputs := rest })
    (engine : ∀ s t, P s → engineStep s = .next t → P t)
    (write : ∀ s offset w, offset < windowSize → offset % 4 = 0 → P s → P (hostWrite offset w s))
    (read : ∀ s offset, P s → P (hostRead offset s)) (reset : ∀ s, P (resetInput s)) {s t : State} (h : P s)
    (hx : step s = .next t) : P t := by
  rcases step_cases s with ⟨e, rest, -, hr⟩ | ⟨-, -, hr⟩ | ⟨-, -, hr⟩ <;> rw [hr] at hx
  · have hs := queue s rest h
    cases e with
    | write offset width data =>
      rcases hostAccess_cases offset width _ (hostWrite offset data) with ⟨hw, -, ha, hr⟩ | ⟨r, hr⟩ <;>
        cases hr.symm.trans hx
      exact write _ offset data hw ha hs
    | read offset width =>
      cases eq_of_hostAccess_next hx
      exact read _ offset hs
    | reset =>
      cases hx
      exact reset _
    | wait =>
      rw [eventTurn_wait] at hx
      split at hx
      · exact engine _ t hs hx
      · cases hx
        exact hs
  · exact engine s t h hx
  · cases hx

/-! ## A host access of another form (O56) -/

theorem hostAccess_of_malformed {offset width : Nat} (hw : offset < 0x4000) (hform : width ≠ 4 ∨ offset % 4 ≠ 0)
    (s : State) (act : State → State) : hostAccess offset width s act = .refused .hostAccessForm := by
  have hin : ¬ windowSize ≤ offset := Nat.not_le.2 hw
  have hne : ¬ (width = 4 ∧ offset % 4 = 0) := by omega
  rw [hostAccess, if_neg hin, if_neg hne]

/-- Settles O56: a write and a read are both a `hostAccess`, which checks the form before it acts. -/
theorem malformedHostAccessIsRefused : Obligations.MalformedHostAccessIsRefused := by
  unfold Obligations.MalformedHostAccessIsRefused
  intro s offset width w rest hw hform
  exact ⟨fun h => (step_of_event h).trans (hostAccess_of_malformed hw hform _ _),
    fun h => (step_of_event h).trans (hostAccess_of_malformed hw hform _ _)⟩

/-! ## Both RAMs stay canonical (O9) -/

theorem MemoryCanonical.of_rams_eq {s t : State} (h : MemoryCanonical s) (hop : t.opRam = s.opRam)
    (hcmd : t.cmdRam = s.cmdRam) : MemoryCanonical t := by
  rwa [MemoryCanonical, hop, hcmd]

/-- Bytes written inside the operand RAM, the command RAM untouched. -/
theorem MemoryCanonical.of_opRam_written {s t : State} (h : MemoryCanonical s) {a : Nat} {bs : List Byte}
    (hin : a + bs.length ≤ opRamSize) (hop : t.opRam = s.opRam.writeBytes a bs) (hcmd : t.cmdRam = s.cmdRam) :
    MemoryCanonical t := by
  obtain ⟨hopWf, hopBelow, hcmdWf, hcmdBelow⟩ := h
  rw [MemoryCanonical, hop, hcmd]
  exact ⟨Memory.wf_writeBytes _ a bs hopWf, Memory.below_writeBytes _ a _ bs hin hopBelow, hcmdWf, hcmdBelow⟩

/-- Bytes written inside the command RAM, the operand RAM untouched. -/
theorem MemoryCanonical.of_cmdRam_written {s t : State} (h : MemoryCanonical s) {a : Nat} {bs : List Byte}
    (hin : a + bs.length ≤ cmdRamSize) (hcmd : t.cmdRam = s.cmdRam.writeBytes a bs) (hop : t.opRam = s.opRam) :
    MemoryCanonical t := by
  obtain ⟨hopWf, hopBelow, hcmdWf, hcmdBelow⟩ := h
  rw [MemoryCanonical, hop, hcmd]
  exact ⟨hopWf, hopBelow, Memory.wf_writeBytes _ a bs hcmdWf, Memory.below_writeBytes _ a _ bs hin hcmdBelow⟩

/-- A command writes at most its result, which `retire` holds to the operand RAM (20_memory.md R56). -/
theorem MemoryCanonical.exec {s t : State} (h : MemoryCanonical s) {i : Instr} (hx : exec i s = .next t) :
    MemoryCanonical t := by
  by_cases hi : i = .halt
  · subst hi
    cases exec_halt_next hx
    exact h.of_rams_eq rfl rfl
  · rcases exec_next_cases hi hx with ⟨c, rfl⟩ | ⟨rc, rfl⟩ | ⟨j, bs, hin, rfl⟩
    · exact h.of_rams_eq rfl rfl
    · exact h.of_rams_eq (by simp) (by simp)
    · exact h.of_opRam_written hin (by simp) (by simp)

theorem MemoryCanonical.engineStep {s t : State} (h : MemoryCanonical s) (hx : engineStep s = .next t) :
    MemoryCanonical t := by
  rcases engineStep_cases s with ⟨f, hr, -⟩ | ⟨bs, e, -, -, hr⟩ | ⟨bs, i, -, -, hr⟩ <;> rw [hr] at hx
  · cases hx
  · cases hx
    exact h.of_rams_eq rfl rfl
  · exact h.exec hx

/-- An aligned word in the window's part for a RAM ends inside that RAM (20_memory.md R51, R52, R53). -/
theorem MemoryCanonical.hostWrite {s : State} (h : MemoryCanonical s) {offset : Nat} (ha : offset % 4 = 0) (w : Word) :
    MemoryCanonical (hostWrite offset w s) := by
  rcases hostWrite_cases offset w s with ⟨-, hr⟩ | ⟨-, hr⟩ | ⟨hlo, hhi, hr⟩ | ⟨hlo, hhi, hr⟩ | hr <;> rw [hr]
  · obtain ⟨-, -, -, -, hop, hcmd, -, -⟩ := writeCtrl_frame w s
    exact h.of_rams_eq hop hcmd
  · unfold writeCp
    split <;> exact h.of_rams_eq rfl rfl
  · have hin : offset - 0x1000 + (wordBytes w).length ≤ cmdRamSize := by
      simp only [wordBytes_length, cmdRamSize]; omega
    unfold writeCmdRam
    split
    · exact h.of_rams_eq rfl rfl
    · exact h.of_cmdRam_written hin rfl rfl
  · have hin : offset - 0x2000 + (wordBytes w).length ≤ opRamSize := by
      simp only [wordBytes_length, opRamSize]; omega
    unfold writeOpRam
    split
    · exact h.of_rams_eq rfl rfl
    · exact h.of_opRam_written hin rfl rfl
  · exact h

theorem MemoryCanonical.hostRead {s : State} (h : MemoryCanonical s) (offset : Nat) :
    MemoryCanonical (hostRead offset s) := by
  obtain ⟨v, n, hr, -⟩ := hostRead_eq offset s
  rw [hr]
  exact h.of_rams_eq rfl rfl

/-- Settles O9, by `step_keeps`: of all turns, only a result and a host word are written in a RAM, and both lie inside. -/
theorem stepKeepsMemoryCanonical : Obligations.StepKeepsMemoryCanonical := by
  unfold Obligations.StepKeepsMemoryCanonical
  intro s t
  refine step_keeps ?queue ?engine ?write ?read ?reset
  case queue => exact fun s rest h => h.of_rams_eq rfl rfl
  case engine => exact fun s t h hx => h.engineStep hx
  case write => exact fun s offset w _ ha h => h.hostWrite ha w
  case read => exact fun s offset h => h.hostRead offset
  case reset => exact fun s => ⟨rfl, rfl, rfl, rfl⟩

/-! ## What no command changes (O13) -/

theorem HostSideKept.trans {s t u : State} (h : HostSideKept s t) (h' : HostSideKept t u) : HostSideKept s u where
  ieDone := h'.ieDone.trans h.ieDone
  ieFault := h'.ieFault.trans h.ieFault
  werr := h'.werr.trans h.werr
  donePend := h'.donePend.trans h.donePend
  cmdRam := h'.cmdRam.trans h.cmdRam
  inputs := h'.inputs.trans h.inputs
  reply := h'.reply.trans h.reply
  freeCount := h'.freeCount.trans h.freeCount

theorem hostSideKept_writeSlots (j : Nat) (bs : List Byte) (s : State) : HostSideKept s (writeSlots j bs s) := by
  constructor <;> rfl

/-- A sticky bit that was set stays set (10_state.md R25). -/
structure StickyKept (s t : State) : Prop where
  sAbsent : s.sAbsent = true → t.sAbsent = true
  sDivzero : s.sDivzero = true → t.sDivzero = true
  sInvalid : s.sInvalid = true → t.sInvalid = true

/-- A completion sets at most the sticky bit of its code. -/
theorem stickyKept_complete (w : Word) (rc : Rc) (s : State) : StickyKept s (complete w rc s) := by
  constructor <;> intro h <;> simp [h]

/-- HALT apart, every command keeps the host's side and the sticky bits. -/
theorem exec_keeps_hostSide {i : Instr} {s t : State} (hi : i ≠ .halt) (h : exec i s = .next t) :
    HostSideKept s t ∧ StickyKept s t := by
  rcases exec_next_cases hi h with ⟨c, rfl⟩ | ⟨rc, rfl⟩ | ⟨j, bs, -, rfl⟩
  · exact ⟨hostSideKept_raiseFault c _ s, ⟨id, id, id⟩⟩
  · exact ⟨hostSideKept_complete _ rc s, stickyKept_complete _ rc s⟩
  · have hsticky := stickyKept_complete (encode i) .ok (writeSlots j bs s)
    exact ⟨(hostSideKept_writeSlots j bs s).trans (hostSideKept_complete _ .ok _),
      ⟨hsticky.sAbsent, hsticky.sDivzero, hsticky.sInvalid⟩⟩

/-- Settles O13: HALT by its own two writes, every other command by `exec_keeps_hostSide`. -/
theorem commandsKeepTheHostSide : Obligations.CommandsKeepTheHostSide := by
  unfold Obligations.CommandsKeepTheHostSide
  intro i s t h
  by_cases hi : i = .halt
  · subst hi
    cases exec_halt_next h
    exact ⟨rfl, rfl, rfl, rfl, rfl, rfl, rfl, absurd rfl, id, id, id⟩
  · obtain ⟨kept, sticky⟩ := exec_keeps_hostSide hi h
    exact ⟨kept.cmdRam, kept.ieDone, kept.ieFault, kept.werr, kept.inputs, kept.reply, kept.freeCount,
      fun _ => kept.donePend, sticky.sAbsent, sticky.sDivzero, sticky.sInvalid⟩

end Sys2Proof.Machine
end

section
/-! PROOFS: the opcode map read by rows, the round trips of encoder and decoder, and the three decode checks as numbers
(30_encoding.md R80 to R88; 60_exceptions.md R291). -/

namespace Sys2Proof

/-! ## One row of the opcode map -/

/-- The row of an opcode, if the map has one (30_encoding.md R84). -/
def rowAt (op : Byte) : Option OpRow := opcodeMap.find? fun r => r.op == op

theorem rowAt_eq_some {op : Byte} {r : OpRow} (h : rowAt op = some r) : r ∈ opcodeMap ∧ r.op = op :=
  ⟨List.mem_of_find?_eq_some h, by simpa using List.find?_some h⟩

/-- Check 2 of 30_encoding.md R83 passes: every field the row does not use is zero. -/
def OpRow.unusedZero (r : OpRow) (rd rs1 rs2 : Byte) : Bool :=
  !(reservedBroken r.rd rd || reservedBroken r.rs1 rs1 || reservedBroken r.rs2 rs2)

/-- Check 3 of 30_encoding.md R83 passes: every slot operand of the row ends at or before slot 255. -/
def OpRow.inRange (r : OpRow) (rd rs1 rs2 : Byte) : Bool :=
  !(rangeBroken r.rd rd || rangeBroken r.rs1 rs1 || rangeBroken r.rs2 rs2)

theorem decode_of_no_row {w : Word} (h : rowAt (opField w) = none) : decode w = .error .illegalOpcode := by
  unfold rowAt at h
  simp only [decode, h]

/-- What the decoder answers on an opcode the map has: the command, unless a check on the fields fails. -/
theorem decode_of_row {w : Word} {r : OpRow} (h : rowAt (opField w) = some r) :
    decode w = if r.unusedZero (rdField w) (rs1Field w) (rs2Field w) then
        if r.inRange (rdField w) (rs1Field w) (rs2Field w) then .ok (r.build (rdField w) (rs1Field w) (rs2Field w))
        else .error .slotRange
      else .error .reservedField := by
  unfold rowAt at h
  simp only [decode, h, OpRow.unusedZero, OpRow.inRange, Bool.not_eq_true', ← Bool.not_eq_true, ite_not]

/-- A word decodes to a command exactly when its opcode has a row, both checks on the fields pass, and the row builds that
command from them. -/
theorem decode_eq_ok {w : Word} {i : Instr} :
    decode w = .ok i ↔ ∃ r, rowAt (opField w) = some r ∧
      r.unusedZero (rdField w) (rs1Field w) (rs2Field w) = true ∧
      r.inRange (rdField w) (rs1Field w) (rs2Field w) = true ∧
      r.build (rdField w) (rs1Field w) (rs2Field w) = i := by
  cases h : rowAt (opField w) with
  | none => simp [decode_of_no_row h]
  | some r =>
    rw [decode_of_row h]
    split_ifs with hunused hrange
    · simp [hunused, hrange]
    · simp [hrange]
    · simp [hunused]

/-! ## The round trips (O1, O2) -/

/-- The row and its command agree with the encoder and with the operand types of `wellFormed`. -/
def OpRow.Agrees (r : OpRow) : Prop :=
  ∀ rd rs1 rs2 : Byte, r.unusedZero rd rs1 rs2 = true →
    encode (r.build rd rs1 rs2) = packWord r.op rd rs1 rs2 ∧
      (r.build rd rs1 rs2).wellFormed = r.inRange rd rs1 rs2

/-- Every row of the opcode map agrees with the encoder (30_encoding.md R84). Row by row: a field the row does not use is
zero, as in the encoder's word, and its operands are the ones `wellFormed` checks. -/
theorem agrees_of_mem {r : OpRow} (h : r ∈ opcodeMap) : r.Agrees := by
  revert r
  simp only [opcodeMap, controlRows, fieldMulRows, reduceRows, modexpRows, pointAddRows, pointDoubleRows, codecRows,
    schnorrRows, List.forall_mem_append, List.forall_mem_cons, List.not_mem_nil, false_imp_iff, implies_true, and_true,
    OpRow.Agrees, OpRow.unusedZero, OpRow.inRange, reservedBroken, rangeBroken]
  and_intros
  all_goals simp +contextual [encode, Instr.wellFormed, and_assoc]

/-- Every command is built by the row of its own opcode, with zero in the fields the row does not use. -/
theorem exists_row (i : Instr) : ∃ op rd rs1 rs2 r, encode i = packWord op rd rs1 rs2 ∧ rowAt op = some r ∧
    r.build rd rs1 rs2 = i ∧ r.unusedZero rd rs1 rs2 = true := by
  cases i with
  | halt | nop => exact ⟨_, 0, 0, 0, _, rfl, rfl, rfl, rfl⟩
  | ptLdid rd | ptLdb rd => exact ⟨_, rd, 0, 0, _, rfl, rfl, rfl, rfl⟩
  | fpMul rd a b | fpAdd rd a b | fpSub rd a b | fp2Mul rd a b | fp2Add rd a b | fp2Sub rd a b | scAdd rd a b
  | scSub rd a b | scMul rd a b | ptAdd rd a b | ptEq rd a b | ptMul rd a b | seedStrict rd a b | seedTry rd a b
  | sign rd a b | verify rd a b => exact ⟨_, rd, a, b, _, rfl, rfl, rfl, rfl⟩
  | mov rd a | fpSqr rd a | fp2Sqr rd a | fpRed rd a | fpNeg rd a | fpHalf rd a | fp2Neg rd a | fp2Half rd a
  | fpInv rd a | fpSqrt rd a | fp2Inv rd a | fp2Sqrt rd a | scRed32 rd a | scRed64 rd a | scInv rd a | ptNeg rd a
  | ptOncurve rd a | ptDbl rd a | fp2Sign rd a | ptEnc rd a | ptDec rd a | ptChkenc rd a | keyPriv rd a | keyPub rd a =>
    exact ⟨_, rd, a, 0, _, rfl, rfl, rfl, rfl⟩

/-- Settles O1: the decoder finds the row that built the command, and both checks on its fields pass. -/
theorem encodeThenDecodeGivesTheCommand : Obligations.EncodeThenDecodeGivesTheCommand := by
  unfold Obligations.EncodeThenDecodeGivesTheCommand
  intro i hwf
  obtain ⟨op, rd, rs1, rs2, r, henc, hrow, rfl, hunused⟩ := exists_row i
  obtain ⟨hmem, -⟩ := rowAt_eq_some hrow
  obtain ⟨-, hrange⟩ := agrees_of_mem hmem rd rs1 rs2 hunused
  rw [henc, decode_eq_ok]
  simp only [opField_packWord, rdField_packWord, rs1Field_packWord, rs2Field_packWord]
  exact ⟨r, hrow, hunused, hrange ▸ hwf, rfl⟩

/-- Settles O2: the row that the decoder found agrees with the encoder, and a word is its four fields. -/
theorem legalWordsAreEncodings : Obligations.LegalWordsAreEncodings := by
  unfold Obligations.LegalWordsAreEncodings
  intro w i h
  obtain ⟨r, hrow, hunused, hrange, rfl⟩ := decode_eq_ok.1 h
  obtain ⟨hmem, hop⟩ := rowAt_eq_some hrow
  obtain ⟨henc, hwf⟩ := agrees_of_mem hmem _ _ _ hunused
  exact ⟨by rw [henc, hop, packWord_fields], hwf.trans hrange⟩

/-! ## The three checks as numbers (O3) -/

/-- How many slots a field of this role covers: 0 where it names no slot. -/
def Role.span : Role → Nat
  | .operand t => t.span
  | .unused | .imm8 => 0

theorem reservedBroken_iff (role : Role) (field : Byte) :
    reservedBroken role field = true ↔ role = .unused ∧ field.toNat ≠ 0 := by
  have hzero : field ≠ 0 ↔ field.toNat ≠ 0 := not_congr BitVec.toNat_inj.symm
  cases role with
  | unused => simpa [reservedBroken] using hzero
  | operand t | imm8 => simp [reservedBroken]

/-- An operand runs past slot 255 from the last three slots if it covers four, and from slot 255 if it covers two. -/
theorem rangeBroken_iff (role : Role) (field : Byte) :
    rangeBroken role field = true ↔
      (role.span = 4 ∧ 252 < field.toNat) ∨ (role.span = 2 ∧ field.toNat = 255) := by
  have hlt := field.isLt
  cases role with
  | unused | imm8 => simp [rangeBroken, Role.span]
  | operand t => cases t <;> simp [rangeBroken, fits, Role.span, OperandType.span] <;> omega

theorem OpRow.unusedZero_eq_false (r : OpRow) (rd rs1 rs2 : Byte) :
    r.unusedZero rd rs1 rs2 = false ↔
      (r.rd = .unused ∧ rd.toNat ≠ 0) ∨ (r.rs1 = .unused ∧ rs1.toNat ≠ 0) ∨ (r.rs2 = .unused ∧ rs2.toNat ≠ 0) := by
  simp only [OpRow.unusedZero, Bool.not_eq_false', Bool.or_eq_true, reservedBroken_iff, or_assoc]

theorem OpRow.inRange_eq_false (r : OpRow) (rd rs1 rs2 : Byte) :
    r.inRange rd rs1 rs2 = false ↔
      (r.rd.span = 4 ∧ 252 < rd.toNat) ∨ (r.rs1.span = 4 ∧ 252 < rs1.toNat) ∨ (r.rs2.span = 4 ∧ 252 < rs2.toNat) ∨
      (r.rd.span = 2 ∧ rd.toNat = 255) ∨ (r.rs1.span = 2 ∧ rs1.toNat = 255) ∨ (r.rs2.span = 2 ∧ rs2.toNat = 255) := by
  simp only [OpRow.inRange, Bool.not_eq_false', Bool.or_eq_true, rangeBroken_iff]
  exact iff_of_eq (by ac_rfl)

/-- A row leaves fields unused from the last one on (30_encoding.md R84). -/
theorem unused_trailing : ∀ r ∈ opcodeMap,
    (r.rd = .unused → r.rs1 = .unused) ∧ (r.rs1 = .unused → r.rs2 = .unused) := by decide

/-- The opcodes of the rows with a property, as numbers, in the order of the map. -/
def opcodesWith (p : OpRow → Bool) : List Nat := (opcodeMap.filter p).map fun r => r.op.toNat

theorem mem_opcodesWith_of_row {op : Byte} {r : OpRow} (h : rowAt op = some r) (p : OpRow → Bool) :
    op.toNat ∈ opcodesWith p ↔ p r = true := by
  obtain ⟨hmem, rfl⟩ := rowAt_eq_some h
  simp only [opcodesWith, List.mem_map, List.mem_filter, BitVec.toNat_inj]
  constructor
  · rintro ⟨r', ⟨hmem', hp⟩, hop⟩
    have hsame : r' = r := List.inj_on_of_nodup_map (List.pairwise_map.2 opcodeMap_distinct) hmem' hmem hop
    exact hsame ▸ hp
  · exact fun hp => ⟨r, ⟨hmem, hp⟩, rfl⟩

theorem not_mem_opcodesWith_of_no_row {op : Byte} (h : rowAt op = none) (p : OpRow → Bool) :
    op.toNat ∉ opcodesWith p := by
  simp only [opcodesWith, List.mem_map, List.mem_filter, BitVec.toNat_inj]
  rintro ⟨r, ⟨hmem, -⟩, hop⟩
  have hne := List.find?_eq_none.1 h r hmem
  exact hne (beq_iff_eq.2 hop)

theorem decode_illegalOpcode_iff (w : Word) :
    decode w = .error .illegalOpcode ↔ (opField w).toNat ∉ opcodesWith fun _ => true := by
  cases h : rowAt (opField w) with
  | none => simp [decode_of_no_row h, not_mem_opcodesWith_of_no_row h]
  | some r =>
    rw [decode_of_row h, mem_opcodesWith_of_row h]
    split_ifs <;> simp

theorem decode_reservedField_of_row {w : Word} {r : OpRow} (h : rowAt (opField w) = some r) :
    decode w = .error .reservedField ↔ r.unusedZero (rdField w) (rs1Field w) (rs2Field w) = false := by
  rw [decode_of_row h]
  split_ifs with hunused <;> simp [hunused]

/-- The range check comes after the reserved-field check (30_encoding.md R83). -/
theorem decode_slotRange_of_row {w : Word} {r : OpRow} (h : rowAt (opField w) = some r) :
    decode w = .error .slotRange ↔
      decode w ≠ .error .reservedField ∧ r.inRange (rdField w) (rs1Field w) (rs2Field w) = false := by
  rw [ne_eq, decode_reservedField_of_row h, decode_of_row h]
  split_ifs with hunused hrange
  · simp [hrange]
  · simp [hunused, hrange]
  · simp [hunused]

theorem decode_reservedField_iff (w : Word) :
    decode w = .error .reservedField ↔
      ((opField w).toNat ∈ opcodesWith (fun r => r.rd == .unused) ∧
        ((rdField w).toNat ≠ 0 ∨ (rs1Field w).toNat ≠ 0 ∨ (rs2Field w).toNat ≠ 0)) ∨
      ((opField w).toNat ∈ opcodesWith (fun r => r.rd != .unused && r.rs1 == .unused) ∧
        ((rs1Field w).toNat ≠ 0 ∨ (rs2Field w).toNat ≠ 0)) ∨
      ((opField w).toNat ∈ opcodesWith (fun r => r.rs1 != .unused && r.rs2 == .unused) ∧ (rs2Field w).toNat ≠ 0) := by
  cases h : rowAt (opField w) with
  | none => simp [decode_of_no_row h, not_mem_opcodesWith_of_no_row h]
  | some r =>
    obtain ⟨hmem, -⟩ := rowAt_eq_some h
    obtain ⟨hrd, hrs1⟩ := unused_trailing r hmem
    simp only [decode_reservedField_of_row h, OpRow.unusedZero_eq_false, mem_opcodesWith_of_row h, Bool.and_eq_true,
      beq_iff_eq, bne_iff_ne]
    by_cases hd : r.rd = .unused
    · simp [hd, hrd hd, hrs1 (hrd hd)]
    · by_cases h1 : r.rs1 = .unused
      · simp [hd, h1, hrs1 h1]
      · simp [hd, h1]

theorem decode_slotRange_iff (w : Word) :
    decode w = .error .slotRange ↔ decode w ≠ .error .reservedField ∧
      (((opField w).toNat ∈ opcodesWith (fun r => r.rd.span == 4) ∧ 252 < (rdField w).toNat) ∨
       ((opField w).toNat ∈ opcodesWith (fun r => r.rs1.span == 4) ∧ 252 < (rs1Field w).toNat) ∨
       ((opField w).toNat ∈ opcodesWith (fun r => r.rs2.span == 4) ∧ 252 < (rs2Field w).toNat) ∨
       ((opField w).toNat ∈ opcodesWith (fun r => r.rd.span == 2) ∧ (rdField w).toNat = 255) ∨
       ((opField w).toNat ∈ opcodesWith (fun r => r.rs1.span == 2) ∧ (rs1Field w).toNat = 255) ∨
       ((opField w).toNat ∈ opcodesWith (fun r => r.rs2.span == 2) ∧ (rs2Field w).toNat = 255)) := by
  cases h : rowAt (opField w) with
  | none => simp [decode_of_no_row h, not_mem_opcodesWith_of_no_row h]
  | some r =>
    simp only [decode_slotRange_of_row h, OpRow.inRange_eq_false, mem_opcodesWith_of_row h, beq_iff_eq]

/-- The opcodes without a row (30_encoding.md R86). -/
theorem not_mem_opcodes_iff : ∀ op : Byte, op.toNat ∉ opcodesWith (fun _ => true) ↔
    (0x03 ≤ op.toNat ∧ op.toNat ≤ 0x0F) ∨ (0x14 ≤ op.toNat ∧ op.toNat ≤ 0x1F) ∨
    (0x29 ≤ op.toNat ∧ op.toNat ≤ 0x2F) ∨ (0x34 ≤ op.toNat ∧ op.toNat ≤ 0x37) ∨
    (0x3E ≤ op.toNat ∧ op.toNat ≤ 0x3F) ∨ (0x46 ≤ op.toNat ∧ op.toNat ≤ 0x4F) ∨
    (0x52 ≤ op.toNat ∧ op.toNat ≤ 0x5F) ∨ (0x62 ≤ op.toNat ∧ op.toNat ≤ 0x6F) ∨
    (0x72 ≤ op.toNat ∧ op.toNat ≤ 0x7F) ∨ (0x85 ≤ op.toNat ∧ op.toNat ≤ 0x8F) ∨ 0x91 ≤ op.toNat := by
  decide

/-- Settles O3: each check by its condition on the row. The lists of opcodes are the map's own: each `opcodesWith` evaluates
to the list the statement writes out. -/
theorem decodeChecksInOrder : Obligations.DecodeChecksInOrder := by
  unfold Obligations.DecodeChecksInOrder
  intro w op rd rs1 rs2
  refine ⟨(decode_illegalOpcode_iff w).trans (not_mem_opcodes_iff (opField w)), decode_reservedField_iff w,
    (decode_slotRange_iff w).trans ?_⟩
  have hsign : op ∈ opcodesWith (fun r => r.rd.span == 2) ↔ op = 0x84 := List.mem_singleton
  have hverify : op ∈ opcodesWith (fun r => r.rs2.span == 2) ↔ op = 0x90 := List.mem_singleton
  rw [hsign, hverify]
  rfl

/-! ## The words the spec writes out (O4) -/

/-- A word that is the encoding of a well-formed command decodes to it, by O1. -/
theorem decode_of_encode_eq {w : Word} {i : Instr} (henc : encode i = w) (hwf : i.wellFormed = true) :
    decode w = .ok i := henc ▸ encodeThenDecodeGivesTheCommand i hwf

/-- Settles O4: each word is the encoding of the command the spec names. -/
theorem specWordsDecode : Obligations.SpecWordsDecode := by
  unfold Obligations.SpecWordsDecode
  refine ⟨?_, ?_, ?_, ?_, ?_, ?_, ?_, ?_, ?_, ?_, ?_, ?_⟩
  all_goals exact decode_of_encode_eq rfl rfl

end Sys2Proof
end

section
/-! PROOFS: a word that fails a decode check enters the fault of that check, and a command writes only the slots of its RD
(30_encoding.md R83, R99; 60_exceptions.md R290 to R292). -/

namespace Sys2Proof.Machine

/-! ## Fault entry from a failed decode check (O6) -/

/-- A word at CP that fails a decode check is not run: the step is the fault entry of that check (60_exceptions.md R290). -/
theorem engineStep_of_decode_error {s : State} {w : Word} {e : DecodeError} (h : commandAt s w)
    (hd : decode w = .error e) : engineStep s = .next (raiseFault (decodeCause e) w s) := by
  simp only [engineStep, fetch_of_commandAt s w h, decodeBytes_wordBytes, bytesWord_wordBytes, hd]

/-- CAUSE by number (60_exceptions.md R291). -/
theorem decodeCause_code_toNat (e : DecodeError) : (decodeCause e).code.toNat =
    match e with | .illegalOpcode => 0x01 | .reservedField => 0x02 | .slotRange => 0x03 := by cases e <;> rfl

theorem engineStep_enters_fault {s : State} {w : Word} {e : DecodeError} (h : commandAt s w)
    (hd : decode w = .error e) : ∃ t, engineStep s = .next t ∧ FaultEntered (decodeCause e).code.toNat w s t :=
  ⟨_, engineStep_of_decode_error h hd, faultEntered_raiseFault _ w s⟩

/-- Settles O6, by the one engine step of both kinds of turn. -/
theorem decodeFailureEntersItsFault : Obligations.DecodeFailureEntersItsFault := by
  unfold Obligations.DecodeFailureEntersItsFault
  intro s w e hb hw hd cause
  have hcause : (decodeCause e).code.toNat = cause := decodeCause_code_toNat e
  refine ⟨fun hi => ?_, fun rest hi => ?_⟩
  · rw [step_of_no_event hi, if_pos hb, ← hcause]
    exact engineStep_enters_fault hw hd
  · rw [step_of_wait hi, if_pos hb, ← hcause]
    exact engineStep_enters_fault (s := { s with inputs := rest }) hw hd

/-! ## What a command writes (O14) -/

/-- If the effect writes a result, it fills the slots of this destination (first slot, slot count). -/
def Effect.Into (dst : Option (Slot × Nat)) (e : Effect) : Prop :=
  ∀ j bs, e = .wrote j bs → ∃ rd n, dst = some (rd, n) ∧ j = rd.toNat ∧ bs.length = 32 * n

theorem Effect.into_silent (dst : Option (Slot × Nat)) (rc : Rc) : (Effect.silent rc).Into dst := fun _ _ h => nomatch h

theorem Effect.into_raised (dst : Option (Slot × Nat)) (c : Cause) : (Effect.raised c).Into dst := fun _ _ h => nomatch h

theorem Effect.into_wrote {rd : Slot} {n : Nat} {bs : List Byte} (hl : bs.length = 32 * n) :
    (Effect.wrote rd.toNat bs).Into (some (rd, n)) := by
  intro j bs' h
  cases h
  exact ⟨rd, n, rfl, rfl, hl⟩

theorem Effect.into_wroteOr {rd : Slot} {n : Nat} {r : Option (List Byte)} (rc : Rc)
    (hl : ∀ bs, r = some bs → bs.length = 32 * n) : (wroteOr rc rd.toNat r).Into (some (rd, n)) := by
  rcases wroteOr_cases rc rd.toNat r with ⟨-, h⟩ | ⟨bs, hr, h⟩ <;> rw [h]
  · exact into_silent _ rc
  · exact into_wrote (hl bs hr)

/-- Whatever the reads of a command answer, a result goes into this destination. -/
def ResultInto (dst : Option (Slot × Nat)) (r : Except Fault Effect) : Prop := ∀ e, r = .ok e → e.Into dst

theorem ResultInto.done {dst : Option (Slot × Nat)} {e : Effect} (h : e.Into dst) : ResultInto dst (.ok e) := by
  rintro e' ⟨⟩
  exact h

/-- A read in front does not change where the result goes. -/
theorem ResultInto.read {α : Type} {dst : Option (Slot × Nat)} {r : Except Fault α} {q : α → Except Fault Effect}
    (h : ∀ v, r = .ok v → ResultInto dst (q v)) : ResultInto dst (r >>= q) := by
  cases r with
  | error f => exact fun _ h => nomatch h
  | ok v => exact h v rfl

theorem ResultInto.unary {α : Type} {dst : Option (Slot × Nat)} {r : Except Fault α} {f : α → Effect}
    (h : ∀ v, (f v).Into dst) : ResultInto dst (do let v ← r; return f v) :=
  .read fun v _ => .done (h v)

theorem ResultInto.binary {α β : Type} {dst : Option (Slot × Nat)} {r : Except Fault α} {r' : Except Fault β}
    {f : α → β → Effect} (h : ∀ v w, (f v w).Into dst) : ResultInto dst (do let v ← r; let w ← r'; return f v w) :=
  .read fun v _ => .unary (h v)

/-- The seed commands write a result only for a valid seed (48_schnorr_sign.md R252, R253). -/
theorem ResultInto.seed {s : State} {rd rs1 : Slot} {l : Byte} {e : Effect} (he : e.Into (some (rd, 1))) :
    ResultInto (some (rd, 1))
      (if l.toNat = 55 then do
        let S ← readBytes s rs1.toNat 55
        if seedValid S l.toNat then return .wrote rd.toNat (seedToSubseed Config.hash S) else return e
      else return e) := by
  split
  · refine .read fun S _ => ?_
    split
    · exact .done (Effect.into_wrote (seedToSubseed_length _ S))
    · exact .done he
  · exact .done he

/-- What O14 says of one command in one state. -/
def WritesOnlyDestination (i : Instr) (s : State) : Prop :=
  ∀ t, exec i s = .next t → ∀ a, ¬ inDestination i a → t.opRam.read a = s.opRam.read a

theorem inDestination_of_some {i : Instr} {rd : Slot} {n : Nat} (h : destination i = some (rd, n)) (a : Nat) :
    inDestination i a ↔ slotAddr rd.toNat ≤ a ∧ a < slotAddr rd.toNat + 32 * n := by
  simp only [inDestination, h]

/-- A command that ends as `retire` with its result into its destination writes only there. -/
theorem WritesOnlyDestination.of_retire {i : Instr} {s : State} {r : Except Fault Effect} {dst : Option (Slot × Nat)}
    (hx : exec i s = retire (encode i) s r) (hdst : destination i = dst) (h : ResultInto dst r) :
    WritesOnlyDestination i s := by
  intro t ht a ha
  rw [hx] at ht
  rcases retire_cases (encode i) s r with ⟨f, hr⟩ | ⟨c, -, hr⟩ | ⟨rc, -, hr⟩ | ⟨j, bs, he, -, hr⟩ <;>
    rw [hr] at ht <;> cases ht
  · rfl
  · rw [complete_opRam]
  · obtain ⟨rd, n, rfl, rfl, hl⟩ := h _ he j bs rfl
    rw [inDestination_of_some hdst] at ha
    rw [complete_opRam, writeSlots_opRam, Memory.read_writeBytes_outside _ _ _ _ (by omega)]

/-- Every command writes at most the slots of its RD, whatever its operands are. -/
theorem writesOnlyDestination (i : Instr) (s : State) : WritesOnlyDestination i s := by
  open Effect in
  cases i with
  | halt =>
    intro t h a _
    rw [exec_halt_next h]
  | nop => exact .of_retire rfl rfl (.done (into_silent _ .ok))
  | mov rd a =>
    exact .of_retire rfl rfl (.read fun b hb => .done (into_wrote (readBytes_length s _ _ b hb)))
  | fpMul rd a b | fpAdd rd a b | fpSub rd a b =>
    exact .of_retire rfl rfl (.binary fun _ _ => into_wrote (fpBytes_length _))
  | fp2Mul rd a b | fp2Add rd a b | fp2Sub rd a b =>
    exact .of_retire rfl rfl (.binary fun _ _ => into_wrote (fp2ToBytes_length _))
  | scAdd rd a b | scSub rd a b | scMul rd a b =>
    exact .of_retire rfl rfl (.binary fun _ _ => into_wrote (scBytes_length _))
  | ptAdd rd a b | ptMul rd a b =>
    exact .of_retire rfl rfl (.binary fun _ _ => into_wrote (ptBytes_length _))
  | ptEq rd a b => exact .of_retire rfl rfl (.binary fun _ _ => into_wrote (boolBytes_length _))
  | fpSqr rd a | fpNeg rd a | fpHalf rd a | fpRed rd a =>
    exact .of_retire rfl rfl (.unary fun _ => into_wrote (fpBytes_length _))
  | fp2Sqr rd a | fp2Neg rd a | fp2Half rd a =>
    exact .of_retire rfl rfl (.unary fun _ => into_wrote (fp2ToBytes_length _))
  | scRed32 rd a | scRed64 rd a | keyPriv rd a =>
    exact .of_retire rfl rfl (.unary fun _ => into_wrote (scBytes_length _))
  | ptNeg rd a | ptDbl rd a =>
    exact .of_retire rfl rfl (.unary fun _ => into_wrote (ptBytes_length _))
  | ptOncurve rd a | fp2Sign rd a | ptChkenc rd a =>
    exact .of_retire rfl rfl (.unary fun _ => into_wrote (boolBytes_length _))
  | keyPub rd a =>
    exact .of_retire rfl rfl (.unary fun _ => into_wrote (encodeMultiple_length _ _))
  | fpInv rd a | fpSqrt rd a =>
    exact .of_retire rfl rfl (.unary fun _ => into_wroteOr _ (length_of_map_eq_some fpBytes_length _))
  | fp2Inv rd a | fp2Sqrt rd a =>
    exact .of_retire rfl rfl (.unary fun _ => into_wroteOr _ (length_of_map_eq_some fp2ToBytes_length _))
  | scInv rd a =>
    exact .of_retire rfl rfl (.unary fun _ => into_wroteOr _ (length_of_map_eq_some scBytes_length _))
  | ptDec rd a =>
    exact .of_retire rfl rfl (.unary fun _ => into_wroteOr _ (length_of_map_eq_some ptBytes_length _))
  | ptEnc rd a =>
    exact .of_retire rfl rfl (.unary fun _ => into_wroteOr _ fun _ => ptEncode_length)
  | ptLdid rd =>
    exact .of_retire (by simp only [exec, execPtLdid]) rfl (.done (into_wrote (ptBytes_length ptIdentity)))
  | ptLdb rd =>
    exact .of_retire (by simp only [exec, execPtLdb]) rfl (.done (into_wrote (ptBytes_length (ptBase Config.curve))))
  | seedStrict rd a l => exact .of_retire rfl rfl (.seed (into_raised _ .invalidSeed))
  | seedTry rd a l => exact .of_retire rfl rfl (.seed (into_silent _ .invalid))
  | sign rd a b =>
    exact .of_retire rfl rfl (.read fun ss _ => .binary fun pk dg =>
      into_wrote (schnorrSign_length Config.hash Config.curve ss pk dg))
  | verify rd a b =>
    exact .of_retire rfl rfl (.read fun pk _ => .binary fun dg sig =>
      into_wrote (boolBytes_length (schnorrVerify Config.hash Config.curve pk dg sig)))

/-- Settles O14, by `writesOnlyDestination` for the command. -/
theorem commandsWriteOnlyTheirDestination : Obligations.CommandsWriteOnlyTheirDestination := by
  unfold Obligations.CommandsWriteOnlyTheirDestination
  exact fun i s => writesOnlyDestination i s

end Sys2Proof.Machine
end

section
/-! PROOFS: what a step of a BUSY machine runs, what HALT, NOP and MOV do, and that every run ends (40_control.md R110 to
R114). -/

namespace Sys2Proof.Machine

/-! ## The step runs the command at CP (O5) -/

theorem engineStep_of_decode_ok {s : State} {w : Word} {i : Instr} (h : commandAt s w) (hd : decode w = .ok i) :
    engineStep s = exec i s := by
  simp only [engineStep, fetch_of_commandAt s w h, decodeBytes_wordBytes, hd]

/-- Settles O5, by the one engine step of both kinds of turn. -/
theorem stepRunsTheDecodedCommand : Obligations.StepRunsTheDecodedCommand := by
  unfold Obligations.StepRunsTheDecodedCommand
  intro s w i hb hw hd
  refine ⟨fun hi => ?_, fun rest hi => ?_⟩
  · rw [step_of_no_event hi, if_pos hb]
    exact engineStep_of_decode_ok hw hd
  · rw [step_of_wait hi, if_pos hb]
    exact engineStep_of_decode_ok (s := { s with inputs := rest }) hw hd

/-! ## HALT, NOP and MOV (O17, O18) -/

theorem exec_halt (s : State) : exec .halt s = .next { s with state := .halted, donePend := true } := rfl

/-- Settles O17: the state `exec_halt` names differs from `s` in the two fields the statement leaves open. -/
theorem haltStopsTheRun : Obligations.HaltStopsTheRun := by
  unfold Obligations.HaltStopsTheRun
  exact fun s => ⟨_, exec_halt s, rfl, rfl, rfl⟩

theorem exec_nop (s : State) : exec .nop s = retire (encode .nop) s (.ok (.silent .ok)) := rfl

theorem exec_mov_of_holdsAt {rd rs1 : Slot} {s : State} {ba : List Byte} (hl : ba.length = 32)
    (h : holdsAt s rs1.toNat ba) : exec (.mov rd rs1) s = retire (encode (.mov rd rs1)) s (.ok (.wrote rd.toNat ba)) := by
  have hread : readBytes s rs1.toNat 32 = .ok ba :=
    hl ▸ readBytes_of_holdsAt s rs1.toNat ba h (hl ▸ slot_in_range rs1)
  simp only [exec, execMov, hread]
  rfl

/-- Settles O18: NOP ends without a result, and MOV ends with the bytes it read, which fit in the slot RD names. -/
theorem nopAndMovComplete : Obligations.NopAndMovComplete := by
  unfold Obligations.NopAndMovComplete
  refine ⟨fun s => ?_, fun rd rs1 s ba hl h => ?_⟩
  · unfold CompletesWithout
    rw [exec_nop]
    exact retire_silent _ s .ok
  · unfold Writes
    rw [exec_mov_of_holdsAt hl h]
    exact retire_wrote _ s rd.toNat ba (hl ▸ slot_in_range rd)

/-! ## Every run ends (O8) -/

/-- The run is over: HALTED or FAULTED (10_state.md R22). -/
def RunOver (t : State) : Prop := t.state = .halted ∨ t.state = .faulted

/-- From s to t the run ended, or it goes on at the next index with the queue as it was (40_control.md R113). -/
def EndsOrMovesOn (s t : State) : Prop :=
  RunOver t ∨ (t.state = .busy ∧ t.inputs = s.inputs ∧ t.cp.toNat = s.cp.toNat + 1)

/-- A fault of the model by which a run can stop: a byte the engine reads was never written (10_state.md R34). -/
def UnwrittenFault (f : Fault) : Prop := f = .unwrittenOperand ∨ f = .unwrittenCommand

/-- A completion at index 255 is the fault CMD_OVERRUN, and at any other index the run goes on. -/
theorem CompletedAs.endsOrMovesOn {w : Word} {rc : Rc} {s t : State} (h : CompletedAs w rc s t) (hb : s.state = .busy) :
    EndsOrMovesOn s t := by
  have hadv := h.advanced
  unfold Advanced at hadv
  split at hadv
  · obtain ⟨hstate, -⟩ := hadv
    exact .inl (.inr hstate)
  · obtain ⟨hcp, hstate, -⟩ := hadv
    exact .inr ⟨hstate.trans hb, h.kept.inputs, hcp⟩

/-- A command run by a BUSY engine ends the run by HALT or a fault, or completes. -/
theorem exec_endsOrMovesOn {i : Instr} {s t : State} (hb : s.state = .busy) (h : exec i s = .next t) :
    EndsOrMovesOn s t := by
  by_cases hi : i = .halt
  · subst hi
    cases exec_halt_next h
    exact .inl (.inl rfl)
  · rcases exec_next_cases hi h with ⟨c, rfl⟩ | ⟨rc, rfl⟩ | ⟨j, bs, -, rfl⟩
    · exact .inl (.inr rfl)
    · exact (completedAs_complete _ rc s).endsOrMovesOn hb
    · exact (completedAs_complete _ .ok (writeSlots j bs s)).endsOrMovesOn hb

theorem fetch_error {s : State} {f : Fault} (h : fetch s = .error f) : f = .unwrittenCommand := by
  unfold fetch at h
  split at h <;> cases h
  rfl

/-- A well-formed command answers a next state, or stops on an unwritten source byte. -/
theorem exec_of_wellFormed {i : Instr} (s : State) (hwf : i.wellFormed = true) :
    (∃ t, exec i s = .next t) ∨ exec i s = .fault .unwrittenOperand := by
  obtain ⟨stops, answers⟩ := stopsOrAnswers i s hwf
  by_cases hu : SomeUnwritten s (sources i)
  · exact .inr (stops hu)
  · exact .inl (answers fun p hp k hk hn => hu ⟨p, hp, k, hk, hn⟩)

/-- A BUSY engine's step ends the run or moves it on, or stops the model on an unwritten byte. The decoder answers only
well-formed commands (O2), so no step names a slot past 255. -/
theorem engineStep_of_busy {s : State} (hb : s.state = .busy) :
    (∃ t, engineStep s = .next t ∧ EndsOrMovesOn s t) ∨ (∃ f, UnwrittenFault f ∧ engineStep s = .fault f) := by
  rcases engineStep_cases s with ⟨f, hr, hfetch⟩ | ⟨bs, e, -, -, hr⟩ | ⟨bs, i, -, hd, hr⟩
  · exact .inr ⟨f, .inr (fetch_error hfetch), hr⟩
  · exact .inl ⟨_, hr, .inl (.inr rfl)⟩
  · obtain ⟨-, hwf⟩ := legalWordsAreEncodings _ i hd
    rcases exec_of_wellFormed s hwf with ⟨t, hx⟩ | hx
    · exact .inl ⟨t, hr.trans hx, exec_endsOrMovesOn hb hx⟩
    · exact .inr ⟨_, .inl rfl, hr.trans hx⟩

/-- Within n steps the run is over, or the model stops on an unwritten byte. -/
def RunEndsWithin (n : Nat) (s : State) : Prop :=
  ∃ k, k ≤ n ∧ ((∃ t, core.run k s = .next t ∧ RunOver t) ∨ (∃ f, UnwrittenFault f ∧ core.run k s = .fault f))

theorem run_succ_of_next {s t : State} (h : step s = .next t) (k : Nat) : core.run (k + 1) s = core.run k t := by
  have hstep : core.step s = .next t := h
  simp only [Host.Core.run, hstep]

theorem run_succ_of_fault {s : State} {f : Fault} (h : step s = .fault f) (k : Nat) :
    core.run (k + 1) s = .fault f := by
  have hstep : core.step s = .fault f := h
  simp only [Host.Core.run, hstep]

theorem RunEndsWithin.of_over {s : State} (h : RunOver s) (n : Nat) : RunEndsWithin n s :=
  ⟨0, Nat.zero_le n, .inl ⟨s, rfl, h⟩⟩

theorem RunEndsWithin.of_step {n : Nat} {s t : State} (hx : step s = .next t) (h : RunEndsWithin n t) :
    RunEndsWithin (n + 1) s := by
  obtain ⟨k, hk, hend⟩ := h
  refine ⟨k + 1, Nat.succ_le_succ hk, ?_⟩
  rwa [run_succ_of_next hx]

theorem RunEndsWithin.of_fault {s : State} {f : Fault} (hf : UnwrittenFault f) (hx : step s = .fault f) (n : Nat) :
    RunEndsWithin (n + 1) s :=
  ⟨1, Nat.le_add_left 1 n, .inr ⟨f, hf, run_succ_of_fault hx 0⟩⟩

/-- Each step that does not end the run leaves one index fewer up to 255, so their number bounds the run. -/
theorem runEndsWithin_of_busy {n : Nat} {s : State} (hb : s.state = .busy) (hi : s.inputs = [])
    (hn : 256 - s.cp.toNat = n) : RunEndsWithin n s := by
  induction n generalizing s with
  | zero =>
    have hcp := s.cp.isLt
    omega
  | succ n ih =>
    have hstep : step s = engineStep s := by rw [step_of_no_event hi, if_pos hb]
    rcases engineStep_of_busy hb with ⟨t, hx, hover | ⟨htb, hti, htcp⟩⟩ | ⟨f, hf, hx⟩
    · exact .of_step (hstep.trans hx) (.of_over hover n)
    · exact .of_step (hstep.trans hx) (ih htb (hti.trans hi) (by omega))
    · exact .of_fault hf (hstep.trans hx) n

/-- Settles O8, by induction on the number of indices from CP to 255. -/
theorem everyRunEnds : Obligations.EveryRunEnds := by
  unfold Obligations.EveryRunEnds
  exact fun s hb hi => runEndsWithin_of_busy hb hi rfl

end Sys2Proof.Machine
end

section
/-! PROOFS: the arithmetic of Fp and Fp2 modulo p: what the fold computes, and which integer each operation's result stands
for (41_montgomery_mult.md R120, R123; 42_barrett_reduce.md R140 to R143). -/

namespace Sys2Proof.Machine

/-! ## The fold -/

/-- One fold, with the shift and the mask read as quotient and remainder by 2^127. -/
theorem fold_eq (v : Nat) : (v >>> 127) + (v &&& primeP) = v / 2 ^ 127 + v % 2 ^ 127 := by
  rw [Nat.shiftRight_eq_div_pow, primeP, Nat.and_two_pow_sub_one_eq_mod]

/-- A fold keeps the residue, because 2^127 is 1 modulo p. -/
theorem fold_mod (v : Nat) : (v / 2 ^ 127 + v % 2 ^ 127) % primeP = v % primeP := by
  have hv : v = primeP * (v / 2 ^ 127) + (v / 2 ^ 127 + v % 2 ^ 127) := by
    rw [primeP]
    omega
  calc (v / 2 ^ 127 + v % 2 ^ 127) % primeP
      = (primeP * (v / 2 ^ 127) + (v / 2 ^ 127 + v % 2 ^ 127)) % primeP := (Nat.mul_add_mod ..).symm
    _ = v % primeP := by rw [← hv]

theorem fold_lt {v : Nat} (h : 2 * primeP ≤ v) : v / 2 ^ 127 + v % 2 ^ 127 < v := by
  rw [primeP] at h
  omega

/-- As many rounds as the value reach the end of the loop: a value below 2p with the same residue. -/
theorem foldLoop_spec {k v : Nat} (h : v ≤ k) : foldLoop k v < 2 * primeP ∧ foldLoop k v % primeP = v % primeP := by
  induction k generalizing v with
  | zero =>
    obtain rfl : v = 0 := Nat.le_zero.1 h
    exact ⟨by decide, rfl⟩
  | succ k ih =>
    rw [foldLoop]
    split
    case isTrue hlt => exact ⟨hlt, rfl⟩
    case isFalse hge =>
      have hsmaller := fold_lt (Nat.le_of_not_lt hge)
      rw [fold_eq, ← fold_mod v]
      exact ih (by omega)

/-- `fp_reduce(v) = v mod p` (42_barrett_reduce.md R140): the last subtraction brings a value below 2p below p. -/
theorem fpReduce_eq_mod (v : Nat) : fpReduce v = v % primeP := by
  obtain ⟨hlt, hmod⟩ := foldLoop_spec (Nat.le_refl v)
  rw [← hmod, fpReduce]
  split
  case isTrue hge =>
    rw [Nat.mod_eq_sub_mod hge, Nat.mod_eq_of_lt (by omega)]
  case isFalse hlt' => exact (Nat.mod_eq_of_lt (Nat.lt_of_not_le hlt')).symm

/-- The product of two operands as `readFp` gives them. -/
theorem fpMul_fpReduce (a b : Nat) : fpMul (fpReduce a) (fpReduce b) = a * b % primeP := by
  rw [fpMul, fpReduce_eq_mod, fpReduce_eq_mod, fpReduce_eq_mod, ← Nat.mul_mod]

/-- Squaring is multiplication by itself (41_montgomery_mult.md R122). -/
theorem fpSqr_eq_fpMul (a : Nat) : fpSqr a = fpMul a a := rfl

/-! ## Which integer a field element stands for -/

/-- r is the canonical residue of the integer x modulo p (00_scope.md R19). -/
structure IsResidue (r : Nat) (x : Int) : Prop where
  lt : r < primeP
  modEq : (r : Int) ≡ x [ZMOD primeP]

/-- The canonical residue of an integer is one number, written as the statements write it. -/
theorem IsResidue.eq_toNat {r : Nat} {x : Int} (h : IsResidue r x) : r = (x % (primeP : Int)).toNat := by
  have hr : (r : Int) % (primeP : Int) = r := Int.emod_eq_of_lt (Int.natCast_nonneg r) (Int.ofNat_lt.2 h.lt)
  rw [← h.modEq.eq, hr, Int.toNat_natCast]

/-- A residue stands for every integer congruent to the one it was made from. -/
theorem IsResidue.of_modEq {r : Nat} {x y : Int} (h : IsResidue r x) (hxy : x ≡ y [ZMOD primeP]) : IsResidue r y :=
  ⟨h.lt, h.modEq.trans hxy⟩

theorem isResidue_fpReduce (v : Nat) : IsResidue (fpReduce v) v where
  lt := by rw [fpReduce_eq_mod]; exact Nat.mod_lt v (by decide)
  modEq := by rw [fpReduce_eq_mod, Int.natCast_mod]; exact Int.mod_modEq v primeP

theorem IsResidue.fpMul {a b : Nat} {x y : Int} (ha : IsResidue a x) (hb : IsResidue b y) :
    IsResidue (fpMul a b) (x * y) :=
  (isResidue_fpReduce (a * b)).of_modEq (by push_cast; exact ha.modEq.mul hb.modEq)

theorem IsResidue.fpSqr {a : Nat} {x : Int} (ha : IsResidue a x) : IsResidue (fpSqr a) (x * x) :=
  ha.fpMul ha

theorem IsResidue.fpAdd {a b : Nat} {x y : Int} (ha : IsResidue a x) (hb : IsResidue b y) :
    IsResidue (fpAdd a b) (x + y) :=
  (isResidue_fpReduce (a + b)).of_modEq (by push_cast; exact ha.modEq.add hb.modEq)

/-- The difference is formed as a + p − b, which a canonical b keeps from being cut off at 0. -/
theorem IsResidue.fpSub {a b : Nat} {x y : Int} (ha : IsResidue a x) (hb : IsResidue b y) :
    IsResidue (fpSub a b) (x - y) := by
  refine (isResidue_fpReduce (a + primeP - b)).of_modEq ?_
  have hb_le : b ≤ a + primeP := hb.lt.le.trans (Nat.le_add_left primeP a)
  calc ((a + primeP - b : Nat) : Int)
      = (a - b) + primeP := by rw [Nat.cast_sub hb_le]; push_cast; ring
    _ ≡ a - b [ZMOD primeP] := Int.add_modEq_right
    _ ≡ x - y [ZMOD primeP] := ha.modEq.sub hb.modEq

/-! ## Fp2 -/

/-- z is the canonical residue of x + y·i modulo p. -/
structure IsResidue2 (z : Fp2) (x y : Int) : Prop where
  re : IsResidue z.re x
  im : IsResidue z.im y

theorem isResidue2_fp2OfBytes (bs : List Byte) :
    IsResidue2 (fp2OfBytes bs) (leNat (bs.take 16)) (leNat (bs.drop 16)) :=
  ⟨isResidue_fpReduce _, isResidue_fpReduce _⟩

theorem IsResidue2.fp2ToBytes_eq {z : Fp2} {x y : Int} (h : IsResidue2 z x y) :
    fp2ToBytes z = toLE 16 (x % (primeP : Int)).toNat ++ toLE 16 (y % (primeP : Int)).toNat := by
  rw [fp2ToBytes, h.re.eq_toNat, h.im.eq_toNat]

/-- The product in Fp2. The imaginary part is Karatsuba's: (a1 + b1)·(a2 + b2) less the other two products
(41_montgomery_mult.md R123). -/
theorem IsResidue2.fp2Mul {z w : Fp2} {a1 b1 a2 b2 : Int} (hz : IsResidue2 z a1 b1) (hw : IsResidue2 w a2 b2) :
    IsResidue2 (fp2Mul z w) (a1 * a2 - b1 * b2) (a1 * b2 + a2 * b1) where
  re := (hz.re.fpMul hw.re).fpSub (hz.im.fpMul hw.im)
  im := by
    have karatsuba : (a1 + b1) * (a2 + b2) - a1 * a2 - b1 * b2 = a1 * b2 + a2 * b1 := by ring
    rw [← karatsuba]
    exact (((hz.re.fpAdd hz.im).fpMul (hw.re.fpAdd hw.im)).fpSub (hz.re.fpMul hw.re)).fpSub (hz.im.fpMul hw.im)

theorem IsResidue2.fp2Sqr {z : Fp2} {a b : Int} (hz : IsResidue2 z a b) :
    IsResidue2 (fp2Sqr z) (a * a - b * b) (2 * (a * b)) where
  re := hz.re.fpSqr.fpSub hz.im.fpSqr
  im := by
    have two : IsResidue 2 2 := ⟨by decide, rfl⟩
    exact two.fpMul (hz.re.fpMul hz.im)

end Sys2Proof.Machine
end

section
/-! PROOFS: FP_MUL, FP_SQR, FP_RED, FP2_MUL and FP2_SQR (41_montgomery_mult.md R121 to R125; 42_barrett_reduce.md R141). -/

namespace Sys2Proof.Machine

/-! ## Commands that read their sources and write one slot -/

/-- A command that reads one operand and writes one slot, where the read answers. The read is done before the write, so RD
may be the slot it was read from (30_encoding.md R99). -/
theorem Writes.unary {α : Type} {i : Instr} {s : State} {rd : Slot} {r : Except Fault α} {v : α} (f : α → List Byte)
    (hx : exec i s = retire (encode i) s (do let a ← r; return .wrote rd.toNat (f a))) (hl : (f v).length = 32)
    (hr : r = .ok v) : Writes i s rd (f v) := by
  subst hr
  rw [Writes, hx]
  exact retire_wrote _ s rd.toNat (f v) (hl ▸ slot_in_range rd)

/-- The same with two operands, in any overlap. -/
theorem Writes.binary {α β : Type} {i : Instr} {s : State} {rd : Slot} {r : Except Fault α} {r' : Except Fault β}
    {v : α} {w : β} (f : α → β → List Byte)
    (hx : exec i s = retire (encode i) s (do let a ← r; let b ← r'; return .wrote rd.toNat (f a b)))
    (hl : (f v w).length = 32) (hr : r = .ok v) (hr' : r' = .ok w) : Writes i s rd (f v w) := by
  subst hr
  exact .unary (f v) hx hl hr'

theorem readFp2_slot_of_holdsAt (s : State) (j : Slot) (bs : List Byte) (hl : bs.length = 32)
    (h : holdsAt s j.toNat bs) : readFp2 s j.toNat = .ok (fp2OfBytes bs) :=
  readFp2_of_holdsAt s j.toNat bs hl h (Nat.le_of_lt_succ j.isLt)

/-! ## Fp (O21) -/

/-- Settles O21: what is read is reduced, and a product of residues is the residue of the product. -/
theorem fpProductsAndReduction : Obligations.FpProductsAndReduction := by
  unfold Obligations.FpProductsAndReduction
  intro rd rs1 rs2 s ba bb bc hla hlb hlc
  refine ⟨fun ha hb => ?mul, fun ha => ?sqr, fun hc => ?red⟩
  case mul =>
    rw [← fpMul_fpReduce]
    exact .binary (fun a b => fpBytes (fpMul a b)) rfl (fpBytes_length _) (readFp_of_holdsAt s rs1 ba hla ha)
      (readFp_of_holdsAt s rs2 bb hlb hb)
  case sqr =>
    rw [← fpMul_fpReduce, ← fpSqr_eq_fpMul]
    exact .unary (fun a => fpBytes (fpSqr a)) rfl (fpBytes_length _) (readFp_of_holdsAt s rs1 ba hla ha)
  case red =>
    rw [← fpReduce_eq_mod]
    exact .unary (fun a => fpBytes (fpReduce a)) rfl (fpBytes_length _) (readRaw_of_holdsAt s rs1 bc hlc hc)

/-! ## Fp2 (O23) -/

/-- Settles O23: each operation keeps the integers its operands stand for, and the written bytes are their residues. -/
theorem fp2Products : Obligations.Fp2Products := by
  unfold Obligations.Fp2Products
  intro rd rs1 rs2 s ba bb hla hlb ha a1 b1 a2 b2
  have hx : IsResidue2 (fp2OfBytes ba) a1 b1 := isResidue2_fp2OfBytes ba
  have hy : IsResidue2 (fp2OfBytes bb) a2 b2 := isResidue2_fp2OfBytes bb
  have hread := readFp2_slot_of_holdsAt s rs1 ba hla ha
  refine ⟨fun hb => ?mul, ?sqr⟩
  case mul =>
    rw [← (hx.fp2Mul hy).fp2ToBytes_eq]
    exact .binary (fun a b => fp2ToBytes (fp2Mul a b)) rfl (fp2ToBytes_length _) hread
      (readFp2_slot_of_holdsAt s rs2 bb hlb hb)
  case sqr =>
    rw [← hx.fp2Sqr.fp2ToBytes_eq]
    exact .unary (fun a => fp2ToBytes (fp2Sqr a)) rfl (fp2ToBytes_length _) hread

end Sys2Proof.Machine
end

section
/-! PROOFS: the reduction by folds and the additive operations of Fp and Fp2 (42_barrett_reduce.md R140, R142 to R150). -/

namespace Sys2Proof.Machine

/-! ## The fold reduction (O19) -/

/-- Settles O19, by the fold loop's bound and residue (`foldLoop_spec`) and the last subtraction. -/
theorem foldReductionIsModP : Obligations.FoldReductionIsModP := by
  unfold Obligations.FoldReductionIsModP
  exact fpReduce_eq_mod

/-! ## Negation and half -/

/-- The negation is formed as p − a, which a canonical a keeps from being cut off at 0. -/
theorem IsResidue.fpNeg {a : Nat} {x : Int} (ha : IsResidue a x) : IsResidue (fpNeg a) (-x) := by
  refine (isResidue_fpReduce (primeP - a)).of_modEq ?_
  calc ((primeP - a : Nat) : Int)
      = -a + primeP := by rw [Nat.cast_sub ha.lt.le]; ring
    _ ≡ -a [ZMOD primeP] := Int.add_modEq_right
    _ ≡ -x [ZMOD primeP] := ha.modEq.neg

/-- Twice the half is the operand itself, or the operand plus p where that is the even one of the two. -/
theorem two_mul_fpHalf (a : Nat) : 2 * fpHalf a = a ∨ 2 * fpHalf a = a + primeP := by
  rw [fpHalf]
  split
  case isTrue even => exact .inl (by omega)
  case isFalse odd =>
    have p_odd : primeP % 2 = 1 := by decide
    exact .inr (by omega)

/-- h is the canonical half of v modulo p (42_barrett_reduce.md R145). -/
structure IsHalf (h v : Nat) : Prop where
  lt : h < primeP
  two_mul : 2 * h % primeP = v % primeP

/-- The half of an operand as `readFp` gives it. -/
theorem isHalf_fpHalf_fpReduce (v : Nat) : IsHalf (fpHalf (fpReduce v)) v := by
  have hlt : v % primeP < primeP := Nat.mod_lt v (by decide)
  rw [fpReduce_eq_mod]
  rcases two_mul_fpHalf (v % primeP) with heq | heq
  · exact ⟨by omega, by rw [heq, Nat.mod_mod]⟩
  · exact ⟨by omega, by rw [heq, Nat.add_mod_right, Nat.mod_mod]⟩

/-! ## Fp (O22) -/

/-- The residue of a natural number, written as the statements write it. -/
theorem IsResidue.eq_mod {r v : Nat} (h : IsResidue r v) : r = v % primeP := by
  rw [h.eq_toNat, ← Int.natCast_mod, Int.toNat_natCast]

/-- Settles O22: each operation keeps the integers its operands stand for, and the half is the canonical one. -/
theorem fpAdditiveOperations : Obligations.FpAdditiveOperations := by
  unfold Obligations.FpAdditiveOperations
  intro rd rs1 rs2 s ba bb hla hlb ha
  have hx : IsResidue (fpReduce (leNat ba)) (leNat ba) := isResidue_fpReduce _
  have hy : IsResidue (fpReduce (leNat bb)) (leNat bb) := isResidue_fpReduce _
  have hread := readFp_of_holdsAt s rs1 ba hla ha
  refine ⟨fun hb => ?binary, ?neg, ?half⟩
  case binary =>
    have hread' := readFp_of_holdsAt s rs2 bb hlb hb
    constructor
    case left =>
      rw [← (hx.fpAdd hy).eq_mod]
      exact .binary (fun a b => fpBytes (fpAdd a b)) rfl (fpBytes_length _) hread hread'
    case right =>
      rw [← (hx.fpSub hy).eq_toNat]
      exact .binary (fun a b => fpBytes (fpSub a b)) rfl (fpBytes_length _) hread hread'
  case neg =>
    rw [← hx.fpNeg.eq_toNat]
    exact .unary (fun a => fpBytes (fpNeg a)) rfl (fpBytes_length _) hread
  case half =>
    obtain ⟨hlt, htwo⟩ := isHalf_fpHalf_fpReduce (leNat ba)
    exact ⟨_, hlt, htwo, .unary (fun a => fpBytes (fpHalf a)) rfl (fpBytes_length _) hread⟩

/-! ## Fp2 (O24) -/

theorem IsResidue2.fp2Add {z w : Fp2} {a1 b1 a2 b2 : Int} (hz : IsResidue2 z a1 b1) (hw : IsResidue2 w a2 b2) :
    IsResidue2 (fp2Add z w) (a1 + a2) (b1 + b2) :=
  ⟨hz.re.fpAdd hw.re, hz.im.fpAdd hw.im⟩

theorem IsResidue2.fp2Sub {z w : Fp2} {a1 b1 a2 b2 : Int} (hz : IsResidue2 z a1 b1) (hw : IsResidue2 w a2 b2) :
    IsResidue2 (fp2Sub z w) (a1 - a2) (b1 - b2) :=
  ⟨hz.re.fpSub hw.re, hz.im.fpSub hw.im⟩

theorem IsResidue2.fp2Neg {z : Fp2} {a b : Int} (hz : IsResidue2 z a b) : IsResidue2 (fp2Neg z) (-a) (-b) :=
  ⟨hz.re.fpNeg, hz.im.fpNeg⟩

/-- Settles O24: the operations of Fp2 are those of Fp on each component. -/
theorem fp2AdditiveOperations : Obligations.Fp2AdditiveOperations := by
  unfold Obligations.Fp2AdditiveOperations
  intro rd rs1 rs2 s ba bb hla hlb ha a1 b1 a2 b2
  have hx : IsResidue2 (fp2OfBytes ba) a1 b1 := isResidue2_fp2OfBytes ba
  have hy : IsResidue2 (fp2OfBytes bb) a2 b2 := isResidue2_fp2OfBytes bb
  have hread := readFp2_slot_of_holdsAt s rs1 ba hla ha
  refine ⟨fun hb => ?binary, ?neg, ?half⟩
  case binary =>
    have hread' := readFp2_slot_of_holdsAt s rs2 bb hlb hb
    constructor
    case left =>
      rw [← (hx.fp2Add hy).fp2ToBytes_eq]
      exact .binary (fun a b => fp2ToBytes (fp2Add a b)) rfl (fp2ToBytes_length _) hread hread'
    case right =>
      rw [← (hx.fp2Sub hy).fp2ToBytes_eq]
      exact .binary (fun a b => fp2ToBytes (fp2Sub a b)) rfl (fp2ToBytes_length _) hread hread'
  case neg =>
    rw [← hx.fp2Neg.fp2ToBytes_eq]
    exact .unary (fun a => fp2ToBytes (fp2Neg a)) rfl (fp2ToBytes_length _) hread
  case half =>
    obtain ⟨hlt_re, htwo_re⟩ := isHalf_fpHalf_fpReduce (leNat (ba.take 16))
    obtain ⟨hlt_im, htwo_im⟩ := isHalf_fpHalf_fpReduce (leNat (ba.drop 16))
    exact ⟨_, _, hlt_re, hlt_im, htwo_re, htwo_im,
      .unary (fun a => fp2ToBytes (fp2Half a)) rfl (fp2ToBytes_length _) hread⟩

end Sys2Proof.Machine
end

section
/-! PROOFS: square-and-multiply modulo any number, which `fp_pow` runs with p and `sc_inv` with N (43_modexp_engine.md R160,
R168). -/

namespace Sys2Proof.Machine

/-! ## One loop for both moduli -/

/-- Square-and-multiply modulo m, at most `k` rounds. -/
def powModLoop (m : Nat) : Nat → Nat → Nat → Nat → Nat
  | 0, r, _, _ => r
  | k + 1, r, b, e =>
    if e = 0 then r else powModLoop m k (if e % 2 = 1 then r * b % m else r) (b * b % m) (e / 2)

theorem fpPowLoop_eq_powModLoop (k r b e : Nat) : fpPowLoop k r b e = powModLoop primeP k r b e := by
  induction k generalizing r b e with
  | zero => rfl
  | succ k ih =>
    simp only [fpPowLoop, powModLoop, ih, fpMul, fpSqr, fpReduce_eq_mod, Nat.and_one_is_mod, Nat.shiftRight_one]

theorem scPowLoop_eq_powModLoop (c : Curve) (k r b e : Nat) : scPowLoop c k r b e = powModLoop c.n k r b e := by
  induction k generalizing r b e with
  | zero => rfl
  | succ k ih => simp only [scPowLoop, powModLoop, ih, scMul, Nat.and_one_is_mod, Nat.shiftRight_one]

/-- What one round keeps: the accumulator times the power still to come. -/
theorem powModLoop_round (m r b e : Nat) :
    (if e % 2 = 1 then r * b % m else r) * (b * b % m) ^ (e / 2) ≡ r * b ^ e [MOD m] := by
  have hsquare : (b * b % m) ^ (e / 2) ≡ b ^ (2 * (e / 2)) [MOD m] := by
    rw [pow_mul, pow_two]
    exact (Nat.mod_modEq (b * b) m).pow (e / 2)
  split
  case isTrue odd =>
    have hpow : b ^ e = b * b ^ (2 * (e / 2)) := by rw [← pow_succ']; congr 1; omega
    rw [hpow, ← mul_assoc]
    exact (Nat.mod_modEq (r * b) m).mul hsquare
  case isFalse even =>
    have hpow : b ^ e = b ^ (2 * (e / 2)) := by congr 1; omega
    rw [hpow]
    exact hsquare.mul_left r

/-- The exponent halves each round, so as many rounds as the exponent reach the power. -/
theorem powModLoop_eq {m k r e : Nat} (b : Nat) (he : e ≤ k) (hr : r < m) : powModLoop m k r b e = r * b ^ e % m := by
  induction k generalizing r b e with
  | zero =>
    obtain rfl : e = 0 := Nat.le_zero.1 he
    rw [powModLoop, pow_zero, mul_one, Nat.mod_eq_of_lt hr]
  | succ k ih =>
    rw [powModLoop]
    split
    case isTrue h => rw [h, pow_zero, mul_one, Nat.mod_eq_of_lt hr]
    case isFalse h =>
      have hacc : (if e % 2 = 1 then r * b % m else r) < m := by
        split
        case isTrue => exact Nat.mod_lt _ (Nat.zero_lt_of_lt hr)
        case isFalse => exact hr
      rw [ih (b * b % m) (by omega) hacc]
      exact powModLoop_round m r b e

/-! ## The power modulo p (O20) -/

theorem fpPow_eq_mod (a e : Nat) : fpPow a e = a ^ e % primeP := by
  rw [fpPow, fpPowLoop_eq_powModLoop, powModLoop_eq a le_rfl (by decide), one_mul]

/-- Settles O20, by the invariant of one round (`powModLoop_round`) and induction on the rounds. -/
theorem squareAndMultiplyIsThePower : Obligations.SquareAndMultiplyIsThePower := by
  unfold Obligations.SquareAndMultiplyIsThePower
  exact fun a e _ => fpPow_eq_mod a e

/-! ## The power modulo N -/

/-- An exponent of 0 gives 1 mod N, so nothing is asked of N but that it is not 0. -/
theorem scPow_eq_mod (c : Curve) (hn : 0 < c.n) (a e : Nat) : scPow c a e = a ^ e % c.n := by
  rw [scPow, scPowLoop_eq_powModLoop, powModLoop_eq a le_rfl (Nat.mod_lt 1 hn), Nat.mod_mul_mod, one_mul]

end Sys2Proof.Machine
end

section
/-! PROOFS: the scalar commands SC_RED32, SC_RED64, SC_ADD, SC_SUB, SC_MUL and SC_INV (43_modexp_engine.md R168 to R175). -/

namespace Sys2Proof.Machine

/-! ## Commands whose result may be absent -/

/-- A command whose result may be absent runs to it where it is present. -/
theorem Writes.of_present {α β : Type} {i : Instr} {s : State} {rd : Slot} {rc : Rc} {r : Except Fault α} {v : α} {w : β}
    (g : α → Option β) (f : β → List Byte)
    (hx : exec i s = retire (encode i) s (do let a ← r; return wroteOr rc rd.toNat ((g a).map f)))
    (hl : (f w).length = 32) (hr : r = .ok v) (hg : g v = some w) : Writes i s rd (f w) := by
  subst hr
  have hsome : exec i s = retire (encode i) s (.ok (wroteOr rc rd.toNat ((g v).map f))) := hx
  rw [Writes, hsome, hg]
  exact retire_wrote _ s rd.toNat (f w) (hl ▸ slot_in_range rd)

/-- A command whose result may be absent completes with its code, and nothing written, where it is absent. -/
theorem CompletesWithout.of_absent {α β : Type} {i : Instr} {s : State} {rd : Slot} {rc : Rc} {r : Except Fault α} {v : α}
    (g : α → Option β) (f : β → List Byte)
    (hx : exec i s = retire (encode i) s (do let a ← r; return wroteOr rc rd.toNat ((g a).map f)))
    (hr : r = .ok v) (hg : g v = none) : CompletesWithout i s rc := by
  subst hr
  have hnone : exec i s = retire (encode i) s (.ok (wroteOr rc rd.toNat ((g v).map f))) := hx
  rw [CompletesWithout, hnone, hg]
  exact retire_silent _ s rc

/-! ## Reduction, sum, difference and product (O29) -/

/-- A Wide operand is the 512-bit integer of two slots (30_encoding.md R95). -/
theorem readWide_of_holdsAt (s : State) (j : Slot) (bs : List Byte) (hl : bs.length = 64) (h : holdsAt s j.toNat bs)
    (hf : fits .wide j = true) : readWide s j.toNat = .ok (leNat bs) := by
  have hr := readBytes_of_holdsAt s j.toNat bs h (hl ▸ fits_in_range .wide j hf)
  rw [hl] at hr
  rw [readWide, hr]
  rfl

theorem curveN_pos : 0 < Config.curve.n := by decide

theorem scAdd_mod (c : Curve) (a b : Nat) : scAdd c (a % c.n) (b % c.n) = (a + b) % c.n := (Nat.add_mod a b c.n).symm

theorem scMul_mod (c : Curve) (a b : Nat) : scMul c (a % c.n) (b % c.n) = a * b % c.n := (Nat.mul_mod a b c.n).symm

/-- The difference is formed as a + N − b, which a reduced b keeps from being cut off at 0. -/
theorem scSub_mod (c : Curve) (hn : 0 < c.n) (a b : Nat) :
    scSub c (a % c.n) (b % c.n) = (((a : Int) - b) % (c.n : Int)).toNat := by
  have hb : b % c.n ≤ a % c.n + c.n := (Nat.mod_lt b hn).le.trans (Nat.le_add_left _ _)
  have hcast : ((scSub c (a % c.n) (b % c.n) : Nat) : Int) = ((a : Int) - b) % (c.n : Int) := by
    calc ((scSub c (a % c.n) (b % c.n) : Nat) : Int)
        = ((a : Int) % c.n - b % c.n + c.n) % c.n := by
          rw [scSub, Int.natCast_mod, Nat.cast_sub hb]; push_cast; ring_nf
      _ = ((a : Int) - b) % c.n := by rw [Int.add_emod_right, ← Int.sub_emod]
  rw [← hcast, Int.toNat_natCast]

/-- Settles O29: each operand is read modulo N, or whole, and each result is the one modulo N. -/
theorem scalarReductionAndArithmetic : Obligations.ScalarReductionAndArithmetic := by
  unfold Obligations.ScalarReductionAndArithmetic
  intro rd rs1 rs2 s ba bb bw hla hlb hlw N
  refine ⟨fun ha => ?red32, fun hf hw => ?red64, fun ha hb => ?binary⟩
  case red32 =>
    exact .unary (fun a => scBytes (scReduce Config.curve a)) rfl (scBytes_length _) (readRaw_of_holdsAt s rs1 ba hla ha)
  case red64 =>
    exact .unary (fun a => scBytes (scReduce Config.curve a)) rfl (scBytes_length _)
      (readWide_of_holdsAt s rs1 bw hlw hw hf)
  case binary =>
    have hread := readSc_of_holdsAt s rs1 ba hla ha
    have hread' := readSc_of_holdsAt s rs2 bb hlb hb
    refine ⟨?add, ?sub, ?mul⟩
    case add =>
      rw [← scAdd_mod]
      exact .binary (fun a b => scBytes (scAdd Config.curve a b)) rfl (scBytes_length _) hread hread'
    case sub =>
      rw [← scSub_mod Config.curve curveN_pos]
      exact .binary (fun a b => scBytes (scSub Config.curve a b)) rfl (scBytes_length _) hread hread'
    case mul =>
      rw [← scMul_mod]
      exact .binary (fun a b => scBytes (scMul Config.curve a b)) rfl (scBytes_length _) hread hread'

/-! ## Inverse (O30) -/

theorem scInv_zero (c : Curve) : scInv c 0 = none := rfl

theorem scInv_of_ne_zero {c : Curve} (hn : 0 < c.n) {a : Nat} (ha : a % c.n ≠ 0) :
    scInv c (a % c.n) = some (a ^ (c.n - 2) % c.n) := by
  rw [scInv, if_neg ha, scPow_eq_mod c hn, ← Nat.pow_mod]

/-- Settles O30: the operand is read modulo N, which is 0 or has the power as its result. -/
theorem scalarInverse : Obligations.ScalarInverse := by
  unfold Obligations.ScalarInverse
  intro rd rs1 s ba hla ha N
  have hread := readSc_of_holdsAt s rs1 ba hla ha
  refine ⟨fun hzero => ?zero, fun hne => ?nonzero⟩
  case zero =>
    have hread0 : readSc s rs1.toNat = .ok 0 := hread.trans (congrArg Except.ok hzero)
    exact .of_absent (scInv Config.curve) scBytes rfl hread0 (scInv_zero _)
  case nonzero =>
    exact .of_present (scInv Config.curve) scBytes rfl (scBytes_length _) hread (scInv_of_ne_zero curveN_pos hne)

end Sys2Proof.Machine
end

section
/-! PROOFS: the operations of Fp as those of the field ZMod p, and the commands FP_INV and FP_SQRT (43_modexp_engine.md R161,
R162). The model's canonical naturals are the values `ZMod.val` of field elements, so each operation is said once, as an
equation between such values. -/

namespace Sys2Proof.Machine

/-! ## The field -/

/-- p is the Mersenne prime of exponent 127. -/
theorem primeP_prime : primeP.Prime := lucas_lehmer_sufficiency 127 (by norm_num) (by norm_num)

/-- The form in which Mathlib takes the primality of p. -/
theorem primeP_fact : Fact primeP.Prime := ⟨primeP_prime⟩

section
variable [Fact primeP.Prime]

theorem two_ne_zero_in_field : (2 : ZMod primeP) ≠ 0 := by
  have h : ((2 : Nat) : ZMod primeP) ≠ 0 := by
    rw [Ne, ZMod.natCast_eq_zero_iff]
    decide
  exact_mod_cast h

/-- −1 has no root, because p is 3 modulo 4. -/
theorem neg_one_not_square : ¬ IsSquare (-1 : ZMod primeP) := by
  rw [ZMod.exists_sq_eq_neg_one_iff]
  decide

/-- Euler's criterion: p/2 is odd, so of a number and its negation one has the power p/2 equal to 1 and is a square. -/
theorem isSquare_or_isSquare_neg (a : ZMod primeP) : IsSquare a ∨ IsSquare (-a) := by
  by_cases ha : a = 0
  · exact .inl (ha ▸ IsSquare.zero)
  · rw [ZMod.euler_criterion primeP ha, ZMod.euler_criterion primeP (neg_ne_zero.2 ha)]
    rcases ZMod.pow_div_two_eq_neg_one_or_one primeP ha with h | h
    · exact .inl h
    · have hodd : Odd (primeP / 2) := by decide
      exact .inr (by rw [hodd.neg_pow, h, neg_neg])

/-- Because −1 is not a square, a sum of two squares is 0 only where both are. -/
theorem sum_of_squares_eq_zero {a b : ZMod primeP} (h : a * a + b * b = 0) : a = 0 ∧ b = 0 := by
  have hb : b = 0 := by
    by_contra hb
    refine neg_one_not_square ⟨a / b, ?_⟩
    field_simp
    linear_combination -h
  subst hb
  exact ⟨by simpa using h, rfl⟩

/-! ## Naturals modulo p as field elements -/

theorem mod_eq_val (v : Nat) : v % primeP = (v : ZMod primeP).val := (ZMod.val_natCast primeP v).symm

theorem isSquare_iff_exists_mod (v : Nat) : (∃ x, x * x % primeP = v % primeP) ↔ IsSquare (v : ZMod primeP) := by
  constructor
  case mp =>
    rintro ⟨x, hx⟩
    exact ⟨x, by rw [← (ZMod.natCast_eq_natCast_iff' _ _ _).2 hx, Nat.cast_mul]⟩
  case mpr =>
    rintro ⟨x, hx⟩
    refine ⟨x.val, (ZMod.natCast_eq_natCast_iff' _ _ _).1 ?_⟩
    rw [Nat.cast_mul, ZMod.natCast_zmod_val, hx]

/-- A square of the field has a natural root of its value. -/
theorem exists_mod_eq_val {x : ZMod primeP} (h : IsSquare x) : ∃ z, z * z % primeP = x.val := by
  rw [← ZMod.natCast_zmod_val x] at h
  obtain ⟨z, hz⟩ := (isSquare_iff_exists_mod x.val).2 h
  exact ⟨z, hz.trans (Nat.mod_eq_of_lt (ZMod.val_lt x))⟩

/-! ## The operations as values of the field -/

theorem fpReduce_eq_val (v : Nat) : fpReduce v = (v : ZMod primeP).val := by rw [fpReduce_eq_mod, mod_eq_val]

@[simp] theorem fpAdd_val (x y : ZMod primeP) : fpAdd x.val y.val = (x + y).val := by
  rw [fpAdd, fpReduce_eq_val, Nat.cast_add, ZMod.natCast_zmod_val, ZMod.natCast_zmod_val]

@[simp] theorem fpMul_val (x y : ZMod primeP) : fpMul x.val y.val = (x * y).val := by
  rw [fpMul, fpReduce_eq_val, Nat.cast_mul, ZMod.natCast_zmod_val, ZMod.natCast_zmod_val]

@[simp] theorem fpSqr_val (x : ZMod primeP) : fpSqr x.val = (x * x).val := fpMul_val x x

@[simp] theorem fpSub_val (x y : ZMod primeP) : fpSub x.val y.val = (x - y).val := by
  have hy : y.val ≤ x.val + primeP := (ZMod.val_lt y).le.trans (Nat.le_add_left _ _)
  rw [fpSub, fpReduce_eq_val, Nat.cast_sub hy, Nat.cast_add, ZMod.natCast_self, add_zero, ZMod.natCast_zmod_val,
    ZMod.natCast_zmod_val]

@[simp] theorem fpNeg_val (x : ZMod primeP) : fpNeg x.val = (-x).val := by
  rw [fpNeg, fpReduce_eq_val, Nat.cast_sub (ZMod.val_lt x).le, ZMod.natCast_self, ZMod.natCast_zmod_val, zero_sub]

@[simp] theorem fpHalf_val (x : ZMod primeP) : fpHalf x.val = (x / 2).val := by
  have htwo : 2 * ((fpHalf x.val : Nat) : ZMod primeP) = x := by
    rcases two_mul_fpHalf x.val with h | h
    · rw [← Nat.cast_ofNat, ← Nat.cast_mul, h, ZMod.natCast_zmod_val]
    · rw [← Nat.cast_ofNat, ← Nat.cast_mul, h, Nat.cast_add, ZMod.natCast_self, add_zero, ZMod.natCast_zmod_val]
  have hlt : fpHalf x.val < primeP := by
    have hx := ZMod.val_lt x
    rcases two_mul_fpHalf x.val with h | h <;> omega
  rw [← eq_div_of_mul_eq two_ne_zero_in_field ((mul_comm _ _).trans htwo), ZMod.val_natCast, Nat.mod_eq_of_lt hlt]

@[simp] theorem fpPow_val (x : ZMod primeP) (e : Nat) : fpPow x.val e = (x ^ e).val := by
  rw [fpPow_eq_mod, mod_eq_val, Nat.cast_pow, ZMod.natCast_zmod_val]

/-! ## Inverse (O25) -/

/-- Fermat: a^(p − 2) is the inverse of a. -/
theorem pow_p_sub_two {x : ZMod primeP} (hx : x ≠ 0) : x ^ (primeP - 2) = x⁻¹ := by
  have hexp : primeP - 2 + 1 = primeP - 1 := by decide
  refine eq_inv_of_mul_eq_one_left ?_
  rw [← pow_succ, hexp, ZMod.pow_card_sub_one_eq_one hx]

theorem fpInv_val (x : ZMod primeP) : fpInv x.val = if x = 0 then none else some x⁻¹.val := by
  split
  case isTrue h => rw [h, ZMod.val_zero]; rfl
  case isFalse h => rw [fpInv, if_neg (mt (ZMod.val_eq_zero x).1 h), fpPow_val, pow_p_sub_two h]

theorem mod_eq_zero_iff (v : Nat) : v % primeP = 0 ↔ (v : ZMod primeP) = 0 := by
  rw [mod_eq_val, ZMod.val_eq_zero]

/-- An operand of Fp, as a value of the field. -/
theorem readFp_val_of_holdsAt {s : State} {j : Slot} {bs : List Byte} (hl : bs.length = 16) (h : holdsAt s j.toNat bs) :
    readFp s j.toNat = .ok (leNat bs : ZMod primeP).val := by
  rw [readFp_of_holdsAt s j bs hl h, fpReduce_eq_val]

end

/-- Settles O25: 0 has no inverse, and the power p − 2 of any other operand is one. -/
theorem fpInverse : Obligations.FpInverse := by
  unfold Obligations.FpInverse
  intro rd rs1 s ba hla ha
  have := primeP_fact
  have hread := readFp_val_of_holdsAt hla ha
  rw [Ne, mod_eq_zero_iff]
  refine ⟨fun hzero => ?zero, fun hne => ?nonzero⟩
  case zero =>
    exact .of_absent fpInv fpBytes rfl hread (by rw [fpInv_val, if_pos hzero])
  case nonzero =>
    refine ⟨_, ZMod.val_lt _, ?_, .of_present fpInv fpBytes rfl (fpBytes_length _) hread (by rw [fpInv_val, if_neg hne])⟩
    have hone : 1 % primeP = 1 := by decide
    rw [← hone, ← ZMod.natCast_eq_natCast_iff', Nat.cast_mul, ZMod.natCast_zmod_val, mul_inv_cancel₀ hne, Nat.cast_one]

/-! ## Square root (O26) -/

section
variable [Fact primeP.Prime]

/-- The candidate a^((p + 1)/4) of a square z²: it squares to z^(p + 1), which is z². -/
theorem candidate_sq (z : ZMod primeP) :
    (z * z) ^ ((primeP + 1) / 4) * (z * z) ^ ((primeP + 1) / 4) = z * z := by
  have hexp : (primeP + 1) / 4 + (primeP + 1) / 4 + ((primeP + 1) / 4 + (primeP + 1) / 4) = primeP + 1 := by decide
  rw [← pow_add, mul_pow, ← pow_add, hexp, pow_succ, ZMod.pow_card]

theorem fpSqrt_of_isSquare {x : ZMod primeP} (h : IsSquare x) :
    ∃ r : ZMod primeP, fpSqrt x.val = some r.val ∧ r * r = x ∧ IsSquare r := by
  have hroot : x ^ ((primeP + 1) / 4) * x ^ ((primeP + 1) / 4) = x := by
    obtain ⟨z, rfl⟩ := h
    exact candidate_sq z
  refine ⟨x ^ ((primeP + 1) / 4), ?_, hroot, h.pow _⟩
  rw [fpSqrt, fpPow_val, fpSqr_val, hroot]
  exact if_pos rfl

theorem fpSqrt_of_not_isSquare {x : ZMod primeP} (h : ¬ IsSquare x) : fpSqrt x.val = none := by
  rw [fpSqrt, fpPow_val, fpSqr_val]
  exact if_neg fun heq => h ⟨_, (ZMod.val_injective primeP heq).symm⟩

end

/-- Settles O26: a square has the candidate as its root, which is a power of a square, and no other operand has a root. -/
theorem fpSquareRoot : Obligations.FpSquareRoot := by
  unfold Obligations.FpSquareRoot
  intro rd rs1 s ba hla ha
  have := primeP_fact
  have hread := readFp_val_of_holdsAt hla ha
  rw [isSquare_iff_exists_mod]
  refine ⟨fun hsquare => ?root, fun hnone => ?noRoot⟩
  case root =>
    obtain ⟨r, hsqrt, hroot, hr⟩ := fpSqrt_of_isSquare hsquare
    refine ⟨r.val, ZMod.val_lt r, ?_, exists_mod_eq_val hr,
      .of_present fpSqrt fpBytes rfl (fpBytes_length _) hread hsqrt⟩
    rw [← ZMod.natCast_eq_natCast_iff', Nat.cast_mul, ZMod.natCast_zmod_val, hroot]
  case noRoot =>
    exact .of_absent fpSqrt fpBytes rfl hread (fpSqrt_of_not_isSquare hnone)

end Sys2Proof.Machine
end

section
/-! PROOFS: the inverse and the square root in Fp2 over the field ZMod p, and the commands FP2_INV and FP2_SQRT
(43_modexp_engine.md R163 to R167). -/

namespace Sys2Proof.Machine

/-! ## The sign trials of the square root -/

/-- A result of the sign trials is a root of the target. -/
theorem fp2SqrtTrial_sound {t z : Fp2} {x y : Nat} (h : fp2SqrtTrial t x y = some z) : fp2Sqr z = t := by
  have htrial := List.find?_some (p := fun c => fp2Eq (fp2Sqr c) t) h
  exact (fp2Eq_iff _ _).1 htrial

/-- Where the first trial is a root, it is the result. -/
theorem fp2SqrtTrial_first {t : Fp2} {x y : Nat} (h : fp2Sqr ⟨x, y⟩ = t) : fp2SqrtTrial t x y = some ⟨x, y⟩ :=
  List.find?_cons_of_pos ((fp2Eq_iff _ _).2 h)

/-- The steps of `fp2_sqrt`, none of which may be absent (43_modexp_engine.md R165). -/
theorem fp2Sqrt_eq_some_iff (t z : Fp2) : fp2Sqrt t = some z ↔
    ∃ n, fpSqrt (fpAdd (fpSqr t.re) (fpSqr t.im)) = some n ∧ ∃ x, fp2SqrtReal t.re n = some x ∧
      ∃ y, fp2SqrtImag t.re t.im x = some y ∧ fp2SqrtTrial t x y = some z := by
  simp only [fp2Sqrt, Option.bind_eq_bind, Option.bind_eq_some_iff]

theorem fp2Sqrt_sound {t z : Fp2} (h : fp2Sqrt t = some z) : fp2Sqr z = t := by
  obtain ⟨n, -, x, -, y, -, htrial⟩ := (fp2Sqrt_eq_some_iff t z).1 h
  exact fp2SqrtTrial_sound htrial

theorem fp2SqrtReal_eq_or (a n : Nat) :
    fp2SqrtReal a n = (fpSqrt (fpHalf (fpAdd a n))).or (fpSqrt (fpHalf (fpSub a n))) := by
  unfold fp2SqrtReal
  generalize fpSqrt (fpHalf (fpAdd a n)) = plus
  cases plus with
  | none => exact Option.none_or.symm
  | some x => exact Option.some_or.symm

section
variable [Fact primeP.Prime]

/-! ## Elements of Fp2 as pairs of field elements -/

theorem fp2OfBytes_eq_val (bs : List Byte) :
    fp2OfBytes bs = ⟨(leNat (bs.take 16) : ZMod primeP).val, (leNat (bs.drop 16) : ZMod primeP).val⟩ := by
  rw [fp2OfBytes, fpReduce_eq_val, fpReduce_eq_val]

/-- The square of x + y·i. The parts need not be canonical. -/
theorem fp2Sqr_eq_val (z : Fp2) :
    fp2Sqr z = ⟨((z.re : ZMod primeP) * z.re - z.im * z.im).val, (2 * (z.re * z.im) : ZMod primeP).val⟩ := by
  have hmul (a b : Nat) : fpMul a b = ((a : ZMod primeP) * b).val := by rw [fpMul, fpReduce_eq_val, Nat.cast_mul]
  rw [fp2Sqr, fpSqr_eq_fpMul, fpSqr_eq_fpMul, hmul, hmul, hmul, hmul, fpSub_val, ZMod.natCast_zmod_val, Nat.cast_ofNat]

@[simp] theorem fp2Sqr_val (x y : ZMod primeP) : fp2Sqr ⟨x.val, y.val⟩ = ⟨(x * x - y * y).val, (2 * (x * y)).val⟩ := by
  rw [fp2Sqr_eq_val, ZMod.natCast_zmod_val, ZMod.natCast_zmod_val]

/-! ## Inverse -/

/-- `fp2_inv` goes through the norm x² + y², which is 0 for zero alone (43_modexp_engine.md R163). -/
theorem fp2Inv_val (x y : ZMod primeP) :
    fp2Inv ⟨x.val, y.val⟩ =
      if x = 0 ∧ y = 0 then none else some ⟨(x * (x * x + y * y)⁻¹).val, (-y * (x * x + y * y)⁻¹).val⟩ := by
  have hnorm : x * x + y * y = 0 ↔ x = 0 ∧ y = 0 :=
    ⟨sum_of_squares_eq_zero, by rintro ⟨rfl, rfl⟩; ring⟩
  rw [fp2Inv, fpSqr_val, fpSqr_val, fpAdd_val, fpInv_val, fpNeg_val]
  simp only [hnorm]
  split
  case isTrue => rfl
  case isFalse => exact congrArg some (by rw [fpMul_val, fpMul_val])

/-- The product of x + y·i and its inverse is 1. -/
theorem mul_norm_inv {x y : ZMod primeP} (h : ¬ (x = 0 ∧ y = 0)) :
    x * (x * (x * x + y * y)⁻¹) - y * (-y * (x * x + y * y)⁻¹) = 1 := by
  have hnorm : x * x + y * y ≠ 0 := mt sum_of_squares_eq_zero h
  calc x * (x * (x * x + y * y)⁻¹) - y * (-y * (x * x + y * y)⁻¹)
      = (x * x + y * y) * (x * x + y * y)⁻¹ := by ring
    _ = 1 := mul_inv_cancel₀ hnorm

/-! ## Square root -/

/-- The x is a root of (a + n)/2, or where that has none of (a − n)/2, and is a square itself. -/
theorem fp2SqrtReal_val {a n : ZMod primeP} (h : IsSquare ((a + n) / 2) ∨ IsSquare ((a - n) / 2)) :
    ∃ x : ZMod primeP, fp2SqrtReal a.val n.val = some x.val ∧ IsSquare x ∧
      (x * x = (a + n) / 2 ∨ ¬ IsSquare ((a + n) / 2) ∧ x * x = (a - n) / 2) := by
  have hor : fp2SqrtReal a.val n.val = (fpSqrt ((a + n) / 2).val).or (fpSqrt ((a - n) / 2).val) := by
    rw [fp2SqrtReal_eq_or, fpAdd_val, fpSub_val, fpHalf_val, fpHalf_val]
  rw [hor]
  by_cases hplus : IsSquare ((a + n) / 2)
  case pos =>
    obtain ⟨x, hsqrt, hx, hsquare⟩ := fpSqrt_of_isSquare hplus
    exact ⟨x, by rw [hsqrt, Option.some_or], hsquare, .inl hx⟩
  case neg =>
    obtain ⟨x, hsqrt, hx, hsquare⟩ := fpSqrt_of_isSquare (h.resolve_left hplus)
    exact ⟨x, by rw [fpSqrt_of_not_isSquare hplus, Option.none_or, hsqrt], hsquare, .inr ⟨hplus, hx⟩⟩

theorem fp2SqrtImag_of_ne_zero (a b : ZMod primeP) {x : ZMod primeP} (hx : x ≠ 0) :
    fp2SqrtImag a.val b.val x.val = some (b * (2 * x)⁻¹).val := by
  have htwo : (2 : Nat) = (2 : ZMod primeP).val := (ZMod.val_ofNat_of_lt (by decide)).symm
  have h2x : 2 * x ≠ 0 := mul_ne_zero two_ne_zero_in_field hx
  rw [fp2SqrtImag, if_pos (mt (ZMod.val_eq_zero x).1 hx), htwo, fpMul_val, fpInv_val, if_neg h2x]
  exact congrArg some (fpMul_val _ _)

theorem fp2SqrtImag_of_zero (a : ZMod primeP) :
    fp2SqrtImag a.val (0 : ZMod primeP).val (0 : ZMod primeP).val = fpSqrt (-a).val := by
  rw [fp2SqrtImag, ZMod.val_zero, if_neg (not_not_intro rfl), if_pos rfl, fpNeg_val]

/-- The product of the two halves of which x may be a root (43_modexp_engine.md R167). -/
theorem half_mul_half {a b n : ZMod primeP} (hn : n * n = a * a + b * b) :
    (a + n) / 2 * ((a - n) / 2) = -(b / 2 * (b / 2)) := by
  have h2 := two_ne_zero_in_field
  field_simp
  linear_combination -hn

/-- A half w satisfies w·(w − a) = (b/2)², which makes b/(2x) the imaginary part where w is x². -/
theorem half_quadratic {a b n w : ZMod primeP} (hn : n * n = a * a + b * b) (hw : w = (a + n) / 2 ∨ w = (a - n) / 2) :
    4 * w * (w - a) = b * b := by
  have h2 := two_ne_zero_in_field
  rcases hw with rfl | rfl
  · field_simp
    linear_combination 4 * hn
  · field_simp
    linear_combination 4 * hn

/-- R167 (b): where b is not 0, one of the two halves is a square. -/
theorem half_isSquare {a b n : ZMod primeP} (hn : n * n = a * a + b * b) (hb : b ≠ 0) :
    IsSquare ((a + n) / 2) ∨ IsSquare ((a - n) / 2) := by
  rcases isSquare_or_isSquare_neg ((a - n) / 2) with h | h
  case inl => exact .inr h
  case inr =>
    have hb2 : b / 2 ≠ 0 := div_ne_zero hb two_ne_zero_in_field
    have hminus : -((a - n) / 2) ≠ 0 := by
      intro h0
      have hprod := half_mul_half hn
      rw [neg_eq_zero.1 h0, mul_zero, zero_eq_neg] at hprod
      exact mul_ne_zero hb2 hb2 hprod
    have hplus : (a + n) / 2 = b / 2 * (b / 2) / -((a - n) / 2) :=
      eq_div_of_mul_eq hminus (by linear_combination -half_mul_half hn)
    exact .inl (hplus ▸ (IsSquare.mul_self (b / 2)).div h)

/-- R167 (c): where b is 0, the first half is n or 0, so a square. -/
theorem half_isSquare_of_im_zero {a n : ZMod primeP} (hn : n * n = a * a) (hsquare : IsSquare n) :
    IsSquare ((a + n) / 2) := by
  rcases mul_self_eq_mul_self_iff.1 hn with rfl | rfl
  · have : NeZero (2 : ZMod primeP) := ⟨two_ne_zero_in_field⟩
    rwa [add_self_div_two]
  · rw [add_neg_cancel, zero_div]
    exact IsSquare.zero

/-- The norm of (c + d·i)² is the square of the norm of c + d·i (43_modexp_engine.md R167 (a)). -/
theorem norm_isSquare {a b c d : ZMod primeP} (hre : c * c - d * d = a) (him : 2 * (c * d) = b) :
    IsSquare (a * a + b * b) :=
  ⟨c * c + d * d, by rw [← hre, ← him]; ring⟩

/-- Where every step of `fp2_sqrt` has a value and these are a root, the first sign trial is the result
(43_modexp_engine.md R167 (d)). -/
theorem fp2Sqrt_of_first {a b n x y : ZMod primeP} (hnorm : fpSqrt (a * a + b * b).val = some n.val)
    (hreal : fp2SqrtReal a.val n.val = some x.val) (himag : fp2SqrtImag a.val b.val x.val = some y.val)
    (hre : x * x - y * y = a) (him : 2 * (x * y) = b) : fp2Sqrt ⟨a.val, b.val⟩ = some ⟨x.val, y.val⟩ := by
  have hnorm' : fpSqrt (fpAdd (fpSqr a.val) (fpSqr b.val)) = some n.val := by
    rw [fpSqr_val, fpSqr_val, fpAdd_val, hnorm]
  have hroot : fp2Sqr ⟨x.val, y.val⟩ = ⟨a.val, b.val⟩ := by rw [fp2Sqr_val, hre, him]
  exact (fp2Sqrt_eq_some_iff _ _).2 ⟨_, hnorm', _, hreal, _, himag, fp2SqrtTrial_first hroot⟩

/-- The root of a + b·i with b not 0: either half is x², and y = b/(2x) completes it. -/
theorem fp2Sqrt_of_im_ne_zero {a b n : ZMod primeP} (hnorm : fpSqrt (a * a + b * b).val = some n.val)
    (hn : n * n = a * a + b * b) (hb : b ≠ 0) :
    ∃ x y : ZMod primeP, fp2Sqrt ⟨a.val, b.val⟩ = some ⟨x.val, y.val⟩ ∧ IsSquare x ∧ x ≠ 0 := by
  obtain ⟨x, hreal, hsquare, hx⟩ := fp2SqrtReal_val (half_isSquare hn hb)
  have h2 := two_ne_zero_in_field
  have hquad := half_quadratic hn (hx.imp_right And.right)
  have hx0 : x ≠ 0 := by
    rintro rfl
    exact mul_ne_zero hb hb (by rw [← hquad]; ring)
  have hre : x * x - b * (2 * x)⁻¹ * (b * (2 * x)⁻¹) = a := by
    field_simp
    linear_combination hquad
  have him : 2 * (x * (b * (2 * x)⁻¹)) = b := by field_simp
  exact ⟨x, _, fp2Sqrt_of_first hnorm hreal (fp2SqrtImag_of_ne_zero a b hx0) hre him, hsquare, hx0⟩

/-- The root of a real a: √a, or by the fallback for x = 0 the imaginary √(−a). -/
theorem fp2Sqrt_of_im_zero {a n : ZMod primeP} (hnorm : fpSqrt (a * a + 0 * 0).val = some n.val)
    (hn : n * n = a * a) (hsquare : IsSquare n) :
    ∃ x y : ZMod primeP, fp2Sqrt ⟨a.val, (0 : ZMod primeP).val⟩ = some ⟨x.val, y.val⟩ ∧ IsSquare x ∧
      (x = 0 → IsSquare y) := by
  have hplus := half_isSquare_of_im_zero hn hsquare
  obtain ⟨x, hreal, hxsquare, hx⟩ := fp2SqrtReal_val (.inl hplus)
  have hxx : 2 * (x * x) = a + n := by
    rw [hx.resolve_right fun h => h.1 hplus, mul_div_cancel₀ _ two_ne_zero_in_field]
  by_cases hx0 : x = 0
  case pos =>
    subst hx0
    have hneg : -a = n := by linear_combination hxx
    obtain ⟨y, hroot, hy, hysquare⟩ := fpSqrt_of_isSquare (hneg ▸ hsquare)
    exact ⟨0, y, fp2Sqrt_of_first hnorm hreal ((fp2SqrtImag_of_zero a).trans hroot) (by rw [hy]; ring) (by ring),
      hxsquare, fun _ => hysquare⟩
  case neg =>
    have hna : n = a := by
      refine (mul_self_eq_mul_self_iff.1 hn).resolve_right fun h => mul_ne_zero hx0 hx0 ?_
      exact (mul_eq_zero.1 (hxx.trans (by rw [h, add_neg_cancel]))).resolve_left two_ne_zero_in_field
    have hre : x * x - 0 * (2 * x)⁻¹ * (0 * (2 * x)⁻¹) = a :=
      mul_left_cancel₀ two_ne_zero_in_field (by linear_combination hxx + hna)
    exact ⟨x, _, fp2Sqrt_of_first hnorm hreal (fp2SqrtImag_of_ne_zero a 0 hx0) hre (by ring), hxsquare,
      fun h => absurd h hx0⟩

/-- R167: `fp2_sqrt` gives a root wherever there is one, and the order of candidates says which. -/
theorem fp2Sqrt_complete {a b c d : ZMod primeP} (hre : c * c - d * d = a) (him : 2 * (c * d) = b) :
    ∃ x y : ZMod primeP, fp2Sqrt ⟨a.val, b.val⟩ = some ⟨x.val, y.val⟩ ∧ IsSquare x ∧ (x = 0 → IsSquare y) := by
  obtain ⟨n, hnorm, hn, hsquare⟩ := fpSqrt_of_isSquare (norm_isSquare hre him)
  by_cases hb : b = 0
  case pos =>
    subst hb
    exact fp2Sqrt_of_im_zero hnorm (by rw [hn, mul_zero, add_zero]) hsquare
  case neg =>
    obtain ⟨x, y, hroot, hxsquare, hx0⟩ := fp2Sqrt_of_im_ne_zero hnorm hn hb
    exact ⟨x, y, hroot, hxsquare, fun h => absurd h hx0⟩

/-! ## The terms of the statements -/

theorem readFp2_val_of_holdsAt {s : State} {j : Slot} {bs : List Byte} (hl : bs.length = 32) (h : holdsAt s j.toNat bs) :
    readFp2 s j.toNat =
      .ok ⟨(leNat (bs.take 16) : ZMod primeP).val, (leNat (bs.drop 16) : ZMod primeP).val⟩ := by
  rw [readFp2_slot_of_holdsAt s j bs hl h, fp2OfBytes_eq_val]

/-- c + d·i is a root of A + B·i, in the arithmetic of the statements and in that of the model. -/
theorem fp2Sqr_eq_iff_mod (c d A B : Nat) :
    ((c : Int) * c - d * d) % (primeP : Int) = A % primeP ∧ 2 * c * d % primeP = B % primeP ↔
      fp2Sqr ⟨c, d⟩ = ⟨(A : ZMod primeP).val, (B : ZMod primeP).val⟩ := by
  rw [fp2Sqr_eq_val, Fp2.mk.injEq, (ZMod.val_injective primeP).eq_iff, (ZMod.val_injective primeP).eq_iff,
    ← Int.cast_natCast A, ← ZMod.intCast_eq_intCast_iff', ← ZMod.natCast_eq_natCast_iff', mul_assoc]
  push_cast
  rfl

/-- c + d·i is the inverse of x + y·i, in the arithmetic of the statements and in that of the field. -/
theorem isInverse_iff_mod (x y c d : ZMod primeP) :
    ((x.val : Int) * c.val - y.val * d.val) % (primeP : Int) = 1 ∧ (x.val * d.val + y.val * c.val) % primeP = 0 ↔
      x * c - y * d = 1 ∧ x * d + y * c = 0 := by
  have hone : (1 : Int) = 1 % (primeP : Int) := by decide
  have hre : ((x.val : Int) * c.val - y.val * d.val) % (primeP : Int) = 1 ↔ x * c - y * d = 1 := by
    rw [hone, ← ZMod.intCast_eq_intCast_iff']
    push_cast
    simp only [ZMod.natCast_zmod_val]
  have him : (x.val * d.val + y.val * c.val) % primeP = 0 ↔ x * d + y * c = 0 := by
    rw [mod_eq_zero_iff]
    push_cast
    simp only [ZMod.natCast_zmod_val]
  rw [hre, him]

end

/-! ## The inverse (O27) -/

/-- Settles O27: x − y·i over the norm is the inverse, and the norm is 0 for zero alone. -/
theorem fp2Inverse : Obligations.Fp2Inverse := by
  unfold Obligations.Fp2Inverse
  intro rd rs1 s ba hla ha a b
  have := primeP_fact
  have hread := readFp2_val_of_holdsAt hla ha
  have hx : a = (leNat (ba.take 16) : ZMod primeP).val := mod_eq_val _
  have hy : b = (leNat (ba.drop 16) : ZMod primeP).val := mod_eq_val _
  generalize (leNat (ba.take 16) : ZMod primeP) = x at hread hx
  generalize (leNat (ba.drop 16) : ZMod primeP) = y at hread hy
  clear_value a b
  subst hx hy
  rw [ZMod.val_eq_zero, ZMod.val_eq_zero]
  refine ⟨fun hzero => ?zero, fun hne => ?nonzero⟩
  case zero =>
    exact .of_absent fp2Inv fp2ToBytes rfl hread (by rw [fp2Inv_val, if_pos hzero])
  case nonzero =>
    obtain ⟨hre, him⟩ := (isInverse_iff_mod x y _ _).2 ⟨mul_norm_inv hne, by ring⟩
    exact ⟨_, _, ZMod.val_lt _, ZMod.val_lt _, hre, him,
      .of_present fp2Inv fp2ToBytes rfl (fp2ToBytes_length _) hread (by rw [fp2Inv_val, if_neg hne])⟩

/-! ## The square root (O28) -/

/-- Settles O28: a root makes the candidates meet (`fp2Sqrt_complete`), and whatever the trials give is a root. -/
theorem fp2SquareRoot : Obligations.Fp2SquareRoot := by
  unfold Obligations.Fp2SquareRoot
  intro rd rs1 s ba hla ha isRoot
  have := primeP_fact
  have hread := readFp2_val_of_holdsAt hla ha
  have hiff (c d : Nat) : isRoot c d ↔ _ := fp2Sqr_eq_iff_mod c d (leNat (ba.take 16)) (leNat (ba.drop 16))
  refine ⟨fun hroot => ?root, fun hnone => ?noRoot⟩
  case root =>
    obtain ⟨c, d, hcd⟩ := hroot
    rw [hiff, fp2Sqr_eq_val, Fp2.mk.injEq, (ZMod.val_injective primeP).eq_iff,
      (ZMod.val_injective primeP).eq_iff] at hcd
    obtain ⟨hre, him⟩ := hcd
    obtain ⟨x, y, hsqrt, hx, hy⟩ := fp2Sqrt_complete hre him
    refine ⟨x.val, y.val, ZMod.val_lt x, ZMod.val_lt y, (hiff _ _).2 (fp2Sqrt_sound hsqrt), exists_mod_eq_val hx,
      fun h => exists_mod_eq_val (hy ((ZMod.val_eq_zero x).1 h)),
      .of_present fp2Sqrt fp2ToBytes rfl (fp2ToBytes_length _) hread hsqrt⟩
  case noRoot =>
    refine .of_absent fp2Sqrt fp2ToBytes rfl hread (Option.eq_none_iff_forall_ne_some.2 fun z hz => hnone ?_)
    exact ⟨z.re, z.im, (hiff _ _).2 (fp2Sqrt_sound hz)⟩

end Sys2Proof.Machine
end

section
/-! PROOFS: Fp2 as the quadratic algebra over the field ZMod p in which i² = −1, so that an equation between the model's
operations is one of a commutative ring (41_montgomery_mult.md R123; 42_barrett_reduce.md R146). -/

namespace Sys2Proof.Machine

/-! ## Elements of Fp2 and their values -/

/-- The ring of the values x + y·i, over ZMod p. -/
abbrev Fp2Ring := QuadraticAlgebra (ZMod primeP) (-1) 0

/-- The value an element stands for; its parts need not be canonical. -/
def fp2Value (z : Fp2) : Fp2Ring := ⟨z.re, z.im⟩

/-- The canonical element of a value (00_scope.md R19). -/
def fp2Canon (x : Fp2Ring) : Fp2 := ⟨x.re.val, x.im.val⟩

@[simp] theorem fp2Canon_zero : fp2Canon 0 = fp2Zero := rfl

@[simp] theorem fp2Canon_one : fp2Canon 1 = fp2One := rfl

theorem fp2Canon_value {z : Fp2} (h : Fp2Canonical z) : fp2Canon (fp2Value z) = z := by
  obtain ⟨hre, him⟩ := h
  rw [fp2Canon, fp2Value, ZMod.val_natCast_of_lt hre, ZMod.val_natCast_of_lt him]

section
variable [Fact primeP.Prime]

@[simp] theorem fp2Value_canon (x : Fp2Ring) : fp2Value (fp2Canon x) = x :=
  QuadraticAlgebra.ext (ZMod.natCast_zmod_val x.re) (ZMod.natCast_zmod_val x.im)

theorem fp2Canonical_canon (x : Fp2Ring) : Fp2Canonical (fp2Canon x) := ⟨ZMod.val_lt x.re, ZMod.val_lt x.im⟩

@[simp] theorem fp2Canon_inj {x y : Fp2Ring} : fp2Canon x = fp2Canon y ↔ x = y :=
  (Function.LeftInverse.injective fp2Value_canon).eq_iff

/-! ## The operations

Products, squares and sums reduce whatever they are given; differences and negations are formed with one p to spare, and
so are said of canonical elements. -/

theorem fpAdd_eq_val (a b : Nat) : fpAdd a b = ((a : ZMod primeP) + b).val := by
  rw [fpAdd, fpReduce_eq_val, Nat.cast_add]

theorem fpMul_eq_val (a b : Nat) : fpMul a b = ((a : ZMod primeP) * b).val := by
  rw [fpMul, fpReduce_eq_val, Nat.cast_mul]

theorem fp2Add_eq_canon (z w : Fp2) : fp2Add z w = fp2Canon (fp2Value z + fp2Value w) := by
  rw [fp2Add, fpAdd_eq_val, fpAdd_eq_val]
  rfl

/-- The three products of R123 are those of (a1 + b1·i)·(a2 + b2·i) with i² = −1. -/
theorem fp2Mul_eq_canon (z w : Fp2) : fp2Mul z w = fp2Canon (fp2Value z * fp2Value w) := by
  have karatsuba (a1 b1 a2 b2 : ZMod primeP) : (a1 + b1) * (a2 + b2) - a1 * a2 - b1 * b2 = a1 * b2 + b1 * a2 := by ring
  simp only [fp2Mul, fpMul_eq_val, fpAdd_eq_val, fpSub_val, ZMod.natCast_zmod_val, karatsuba]
  simp only [fp2Canon, fp2Value, QuadraticAlgebra.mk_mul_mk]
  congr 2 <;> ring

theorem fp2Sqr_eq_fp2Mul (z : Fp2) : fp2Sqr z = fp2Mul z z := by
  rw [fp2Sqr_eq_val, fp2Mul_eq_canon]
  simp only [fp2Canon, fp2Value, QuadraticAlgebra.mk_mul_mk]
  congr 2 <;> ring

theorem fp2Sub_canon (x y : Fp2Ring) : fp2Sub (fp2Canon x) (fp2Canon y) = fp2Canon (x - y) := by
  simp only [fp2Sub, fp2Canon, fpSub_val, QuadraticAlgebra.re_sub, QuadraticAlgebra.im_sub]

theorem fp2Neg_canon (x : Fp2Ring) : fp2Neg (fp2Canon x) = fp2Canon (-x) := by
  simp only [fp2Neg, fp2Canon, fpNeg_val, QuadraticAlgebra.re_neg, QuadraticAlgebra.im_neg]

/-! ## The inverse -/

theorem fp2Mul_eq_one_iff (z w : Fp2) : fp2Mul z w = fp2One ↔ fp2Value z * fp2Value w = 1 := by
  rw [fp2Mul_eq_canon, ← fp2Canon_one, fp2Canon_inj]

/-- A value other than 0 has an inverse, and `fp2_inv` gives it (43_modexp_engine.md R163). -/
theorem fp2Inv_canon_of_ne_zero {x : Fp2Ring} (hx : x ≠ 0) :
    ∃ y, fp2Inv (fp2Canon x) = some (fp2Canon y) ∧ x * y = 1 := by
  have hne : ¬ (x.re = 0 ∧ x.im = 0) := fun ⟨hre, him⟩ => hx (QuadraticAlgebra.ext hre him)
  refine ⟨⟨_, _⟩, (fp2Inv_val x.re x.im).trans (if_neg hne), QuadraticAlgebra.ext ?re ?im⟩
  case re =>
    refine Eq.trans ?_ (mul_norm_inv hne)
    rw [QuadraticAlgebra.re_mul]
    ring
  case im =>
    rw [QuadraticAlgebra.im_one, QuadraticAlgebra.im_mul]
    ring

/-- `fp2_inv` gives the one canonical inverse, and nothing where there is none (43_modexp_engine.md R163). -/
theorem fp2Inv_eq_some_iff {z w : Fp2} (hz : Fp2Canonical z) :
    fp2Inv z = some w ↔ Fp2Canonical w ∧ fp2Mul z w = fp2One := by
  rw [fp2Mul_eq_one_iff]
  by_cases hzero : fp2Value z = 0
  case pos =>
    have hz0 : z = fp2Zero := by rw [← fp2Canon_value hz, hzero, fp2Canon_zero]
    have hone : (0 : Fp2Ring) ≠ 1 := zero_ne_one
    have hnone : fp2Inv z = none := by rw [hz0]; rfl
    simp [hnone, hzero, hone]
  case neg =>
    obtain ⟨y, hinv, hy⟩ := fp2Inv_canon_of_ne_zero hzero
    rw [fp2Canon_value hz] at hinv
    rw [hinv, Option.some_inj]
    constructor
    case mp =>
      rintro rfl
      exact ⟨fp2Canonical_canon y, by rw [fp2Value_canon, hy]⟩
    case mpr =>
      rintro ⟨hw, hzw⟩
      rw [← fp2Canon_value hw, fp2Canon_inj]
      exact left_inv_eq_right_inv ((mul_comm _ _).trans hy) hzw

end

end Sys2Proof.Machine
end

section
/-! PROOFS: the group law as tuples E·F, G·H, F·G, E·H over the values of Fp2, and what follows for doubling and addition
(44_ecc_point_add.md R190, R191; 45_ecc_point_double.md R210). -/

namespace Sys2Proof.Machine

/-! ## The tuple both formulas end in -/

/-- The last four products of `pt_add` and of `pt_dbl` (44_ecc_point_add.md R191, 45_ecc_point_double.md R210). -/
def hwcdTuple (E F G H : Fp2Ring) : Point :=
  ⟨fp2Canon (E * F), fp2Canon (G * H), fp2Canon (F * G), fp2Canon (E * H)⟩

/-- `pt_eq` compares the two cross-products (44_ecc_point_add.md R193). -/
theorem ptEq_iff (P Q : Point) :
    ptEq P Q = true ↔ fp2Mul P.X Q.Z = fp2Mul Q.X P.Z ∧ fp2Mul P.Y Q.Z = fp2Mul Q.Y P.Z := by
  rw [ptEq, Bool.and_eq_true, fp2Eq_iff, fp2Eq_iff]

section
variable [Fact primeP.Prime]

/-- `pt_add` over the values of its operands, with E multiplied out (44_ecc_point_add.md R191). -/
theorem ptAdd_eq_hwcdTuple (c : Curve) (P Q : Point) :
    ptAdd c P Q = hwcdTuple
      (fp2Value P.X * fp2Value Q.Y + fp2Value P.Y * fp2Value Q.X)
      (fp2Value P.Z * fp2Value Q.Z - fp2Value P.T * fp2Value c.d * fp2Value Q.T)
      (fp2Value P.Z * fp2Value Q.Z + fp2Value P.T * fp2Value c.d * fp2Value Q.T)
      (fp2Value P.Y * fp2Value Q.Y + fp2Value P.X * fp2Value Q.X) := by
  have hE (x1 y1 x2 y2 : Fp2Ring) : (x1 + y1) * (x2 + y2) - x1 * x2 - y1 * y2 = x1 * y2 + y1 * x2 := by ring
  simp only [ptAdd, hwcdTuple, fp2Mul_eq_canon, fp2Add_eq_canon, fp2Sub_canon, fp2Value_canon, hE]

/-- `pt_dbl` over the values of its operand, with E multiplied out (45_ecc_point_double.md R210). -/
theorem ptDbl_eq_hwcdTuple (P : Point) :
    ptDbl P = hwcdTuple
      (fp2Value P.X * fp2Value P.Y + fp2Value P.Y * fp2Value P.X)
      (-(fp2Value P.X * fp2Value P.X) + fp2Value P.Y * fp2Value P.Y -
        (fp2Value P.Z * fp2Value P.Z + fp2Value P.Z * fp2Value P.Z))
      (-(fp2Value P.X * fp2Value P.X) + fp2Value P.Y * fp2Value P.Y)
      (-(fp2Value P.X * fp2Value P.X) - fp2Value P.Y * fp2Value P.Y) := by
  have hE (x y : Fp2Ring) : (x + y) * (x + y) - x * x - y * y = x * y + y * x := by ring
  simp only [ptDbl, hwcdTuple, fp2Sqr_eq_fp2Mul, fp2Mul_eq_canon, fp2Add_eq_canon, fp2Sub_canon, fp2Neg_canon,
    fp2Value_canon, hE]

/-! ## T·Z = X·Y (O38) -/

/-- Such a tuple has T·Z = X·Y, both being E·F·G·H. -/
theorem hwcdTuple_product (E F G H : Fp2Ring) :
    fp2Mul (hwcdTuple E F G H).T (hwcdTuple E F G H).Z = fp2Mul (hwcdTuple E F G H).X (hwcdTuple E F G H).Y := by
  simp only [hwcdTuple, fp2Mul_eq_canon, fp2Value_canon, fp2Canon_inj]
  ring

end

/-- Settles O38: `pt_add` and `pt_dbl` both end in the tuple of `hwcdTuple_product`. -/
theorem groupLawKeepsTheProductInvariant : Obligations.GroupLawKeepsTheProductInvariant := by
  unfold Obligations.GroupLawKeepsTheProductInvariant
  intro c P Q
  have := primeP_fact
  rw [ptAdd_eq_hwcdTuple, ptDbl_eq_hwcdTuple]
  exact ⟨hwcdTuple_product .., hwcdTuple_product ..⟩

/-! ## Doubling and adding to itself (O39) -/

section
variable [Fact primeP.Prime]

/-- With F and H negated the tuple has X, Y and Z negated, which is the same point. -/
theorem ptEq_hwcdTuple_neg (E F G H : Fp2Ring) : ptEq (hwcdTuple E (-F) G (-H)) (hwcdTuple E F G H) = true := by
  simp only [ptEq_iff, hwcdTuple, fp2Mul_eq_canon, fp2Value_canon, fp2Canon_inj]
  constructor <;> ring

/-- On the curve the E and the G of doubling are those of adding to itself, and its F and H are those negated. -/
theorem ptEq_dbl_add_of_curve {x y z t d : Fp2Ring} (hcurve : y * y - x * x = z * z + d * (t * t)) :
    ptEq (hwcdTuple (x * y + y * x) (-(x * x) + y * y - (z * z + z * z)) (-(x * x) + y * y) (-(x * x) - y * y))
      (hwcdTuple (x * y + y * x) (z * z - t * d * t) (z * z + t * d * t) (y * y + x * x)) = true := by
  have hF : -(x * x) + y * y - (z * z + z * z) = -(z * z - t * d * t) := by linear_combination hcurve
  have hG : -(x * x) + y * y = z * z + t * d * t := by linear_combination hcurve
  have hH : -(x * x) - y * y = -(y * y + x * x) := by ring
  rw [hF, hG, hH]
  exact ptEq_hwcdTuple_neg ..

/-- The curve equation Y² − X² = Z² + d·T² of a tuple, over its values. -/
theorem curve_equation_iff (c : Curve) (P : Point) :
    fp2Sub (fp2Sqr P.Y) (fp2Sqr P.X) = fp2Add (fp2Sqr P.Z) (fp2Mul c.d (fp2Sqr P.T)) ↔
      fp2Value P.Y * fp2Value P.Y - fp2Value P.X * fp2Value P.X =
        fp2Value P.Z * fp2Value P.Z + fp2Value c.d * (fp2Value P.T * fp2Value P.T) := by
  simp only [fp2Sqr_eq_fp2Mul, fp2Mul_eq_canon, fp2Add_eq_canon, fp2Sub_canon, fp2Value_canon, fp2Canon_inj]

end

/-- Settles O39, by the two tuples over the values of the operand (`ptEq_dbl_add_of_curve`). -/
theorem doublingAgreesWithAddition : Obligations.DoublingAgreesWithAddition := by
  unfold Obligations.DoublingAgreesWithAddition
  intro c P _ hcurve
  have := primeP_fact
  rw [curve_equation_iff] at hcurve
  rw [ptDbl_eq_hwcdTuple, ptAdd_eq_hwcdTuple]
  exact ptEq_dbl_add_of_curve hcurve

end Sys2Proof.Machine
end

section
/-! PROOFS: the commands PT_ADD, PT_LDID, PT_LDB, PT_EQ and PT_ONCURVE (44_ecc_point_add.md R191 to R198). -/

namespace Sys2Proof.Machine

/-! ## Commands that write a point -/

/-- A command whose reads come to a result of the length of its operand type, from a first slot that fits, writes it. -/
theorem Writes.of_fits {i : Instr} {s : State} {t : OperandType} {rd : Slot} {bs : List Byte} (hf : fits t rd = true)
    (hl : bs.length = 32 * t.span) (hx : exec i s = retire (encode i) s (.ok (.wrote rd.toNat bs))) :
    Writes i s rd bs := by
  rw [Writes, hx]
  exact retire_wrote _ s rd.toNat bs (hl ▸ fits_in_range t rd hf)

/-- Settles O31: both tuples are read before the sum is written, so any overlap of the slots does. -/
theorem pointAddition : Obligations.PointAddition := by
  unfold Obligations.PointAddition
  intro rd rs1 rs2 s ba bb hwf hla hlb ha hb P Q A B C D E F G H
  simp only [Instr.wellFormed, Bool.and_eq_true] at hwf
  obtain ⟨⟨hrd, hrs1⟩, hrs2⟩ := hwf
  have hread := readPt_of_holdsAt s rs1 ba hla ha hrs1
  have hread' := readPt_of_holdsAt s rs2 bb hlb hb hrs2
  have hexec : exec (.ptAdd rd rs1 rs2) s =
      retire (encode (.ptAdd rd rs1 rs2)) s (.ok (.wrote rd.toNat (ptBytes (ptAdd Config.curve P Q)))) := by
    simp only [exec, execPtAdd, hread, hread']
    rfl
  exact .of_fits hrd (ptBytes_length (ptAdd Config.curve P Q)) hexec

theorem exec_ptLdid (rd : Slot) (s : State) :
    exec (.ptLdid rd) s = retire (encode (.ptLdid rd)) s (.ok (.wrote rd.toNat (ptBytes ptIdentity))) := by
  simp only [exec, execPtLdid]

theorem exec_ptLdb (rd : Slot) (s : State) :
    exec (.ptLdb rd) s = retire (encode (.ptLdb rd)) s (.ok (.wrote rd.toNat (ptBytes (ptBase Config.curve)))) := by
  simp only [exec, execPtLdb]

theorem fp2ToBytes_zero : fp2ToBytes fp2Zero = zeroBytes 32 := by decide

theorem fp2ToBytes_one : fp2ToBytes fp2One = toLE 32 1 := by decide

/-- Settles O33: the two tuples component by component, with 0 and 1 in their 32 bytes. -/
theorem constantPoints : Obligations.ConstantPoints := by
  unfold Obligations.ConstantPoints
  intro rd s hf
  rw [← fp2ToBytes_zero, ← fp2ToBytes_one]
  exact ⟨.of_fits hf (ptBytes_length ptIdentity) (exec_ptLdid rd s),
    .of_fits hf (ptBytes_length (ptBase Config.curve)) (exec_ptLdb rd s)⟩

/-! ## Commands that write a Bool -/

/-- The bytes of a Bool that says a proposition (30_encoding.md R98). -/
theorem boolBytes_of_iff {b : Bool} {p : Prop} [Decidable p] (h : b = true ↔ p) :
    boolBytes b = (if p then 0x01 else 0x00) :: zeroBytes 31 := by
  simp only [boolBytes, h]

/-- Settles O35, by `ptEq_iff`. -/
theorem pointEquality : Obligations.PointEquality := by
  unfold Obligations.PointEquality
  intro rd rs1 rs2 s ba bb hwf hla hlb ha hb P Q
  simp only [Instr.wellFormed, Bool.and_eq_true] at hwf
  obtain ⟨⟨-, hrs1⟩, hrs2⟩ := hwf
  rw [← boolBytes_of_iff (ptEq_iff P Q)]
  exact .binary (fun a b => boolBytes (ptEq a b)) rfl (boolBytes_length _) (readPt_of_holdsAt s rs1 ba hla ha hrs1)
    (readPt_of_holdsAt s rs2 bb hlb hb hrs2)

/-! ## The curve check (O36) -/

theorem fp2Canonical_fp2OfBytes (bs : List Byte) : Fp2Canonical (fp2OfBytes bs) := by
  obtain ⟨hre, him⟩ := isResidue2_fp2OfBytes bs
  exact ⟨hre.lt, him.lt⟩

/-- The affine form goes through the inverse of Z (44_ecc_point_add.md R195). -/
theorem ptAffine_eq_some_iff (P : Point) (x y : Fp2) :
    ptAffine P = some (x, y) ↔ ∃ zi, fp2Inv P.Z = some zi ∧ fp2Mul P.X zi = x ∧ fp2Mul P.Y zi = y := by
  simp [ptAffine, Option.bind_eq_some_iff]

theorem ptOnCurve_iff_affine (c : Curve) (P : Point) :
    ptOnCurve c P = true ↔ ∃ x y, ptAffine P = some (x, y) ∧ onCurveAffine c x y = true := by
  unfold ptOnCurve
  rcases ptAffine P with _ | ⟨x, y⟩ <;> simp

/-- `pt_on_curve` is true exactly where Z has a canonical inverse that takes the tuple to a point of the curve
(44_ecc_point_add.md R195). -/
theorem ptOnCurve_iff (c : Curve) {P : Point} (hZ : Fp2Canonical P.Z) :
    ptOnCurve c P = true ↔ ∃ zi, Fp2Canonical zi ∧ fp2Mul P.Z zi = fp2One ∧
      onCurveAffine c (fp2Mul P.X zi) (fp2Mul P.Y zi) = true := by
  have := primeP_fact
  simp only [ptOnCurve_iff_affine, ptAffine_eq_some_iff, fp2Inv_eq_some_iff hZ]
  constructor
  case mp =>
    rintro ⟨_, _, ⟨zi, ⟨hzi, hone⟩, rfl, rfl⟩, hon⟩
    exact ⟨zi, hzi, hone, hon⟩
  case mpr =>
    rintro ⟨zi, hzi, hone, hon⟩
    exact ⟨_, _, ⟨zi, ⟨hzi, hone⟩, rfl, rfl⟩, hon⟩

/-- Settles O36: the Bool is `ptOnCurve` of the tuple read, whose Z is canonical. -/
theorem onCurveCheck : Obligations.OnCurveCheck := by
  unfold Obligations.OnCurveCheck
  intro rd rs1 s ba hwf hla ha
  obtain ⟨-, hrs1⟩ := (Bool.and_eq_true _ _).mp hwf
  have hwrites : Writes (.ptOncurve rd rs1) s rd (boolBytes (ptOnCurve Config.curve (ptOfBytes ba))) :=
    .unary (fun a => boolBytes (ptOnCurve Config.curve a)) rfl (boolBytes_length _)
      (readPt_of_holdsAt s rs1 ba hla ha hrs1)
  have hiff := ptOnCurve_iff Config.curve (P := ptOfBytes ba) (fp2Canonical_fp2OfBytes _)
  simp only [onCurveAffine, fp2Eq_iff] at hiff
  cases hb : ptOnCurve Config.curve (ptOfBytes ba) with
  | false =>
    rw [hb] at hwrites hiff
    exact ⟨0x00, .inl rfl, hwrites, by simpa using hiff⟩
  | true =>
    rw [hb] at hwrites hiff
    exact ⟨0x01, .inr rfl, hwrites, by simpa using hiff⟩

end Sys2Proof.Machine
end

section
/-! PROOFS: double-and-add over the bits of the scalar, and the commands PT_DBL, PT_NEG and PT_MUL
(45_ecc_point_double.md R210 to R213; 44_ecc_point_add.md R192). -/

namespace Sys2Proof.Machine

/-! ## Commands that read their sources and write a point -/

/-- `Writes.unary` for a result of any operand type, from a first slot that fits. -/
theorem Writes.unary_of_fits {α : Type} {i : Instr} {s : State} {t : OperandType} {rd : Slot} {r : Except Fault α} {v : α}
    (f : α → List Byte) (hf : fits t rd = true)
    (hx : exec i s = retire (encode i) s (do let a ← r; return .wrote rd.toNat (f a)))
    (hl : (f v).length = 32 * t.span) (hr : r = .ok v) : Writes i s rd (f v) := by
  subst hr
  exact .of_fits hf hl hx

/-- The same with two operands, in any overlap. -/
theorem Writes.binary_of_fits {α β : Type} {i : Instr} {s : State} {t : OperandType} {rd : Slot} {r : Except Fault α}
    {r' : Except Fault β} {v : α} {w : β} (f : α → β → List Byte) (hf : fits t rd = true)
    (hx : exec i s = retire (encode i) s (do let a ← r; let b ← r'; return .wrote rd.toNat (f a b)))
    (hl : (f v w).length = 32 * t.span) (hr : r = .ok v) (hr' : r' = .ok w) : Writes i s rd (f v w) := by
  subst hr
  exact .unary_of_fits (f v) hf hx hl hr'

/-- Settles O32: each command reads its tuple before it writes, so RD may overlap it. -/
theorem pointDoublingAndNegation : Obligations.PointDoublingAndNegation := by
  unfold Obligations.PointDoublingAndNegation
  intro rd rs1 s ba hwf hl ha P A B C D E G F H
  obtain ⟨hrd, hrs1⟩ := (Bool.and_eq_true _ _).mp hwf
  have hread := readPt_of_holdsAt s rs1 ba hl ha hrs1
  constructor
  case left => exact .unary_of_fits (fun a => ptBytes (ptDbl a)) hrd rfl (ptBytes_length (ptDbl P)) hread
  case right => exact .unary_of_fits (fun a => ptBytes (ptNeg a)) hrd rfl (ptBytes_length (ptNeg P)) hread

/-! ## Double-and-add (O34) -/

/-- The round for bit j of k, on the accumulator and the doubled point (45_ecc_point_double.md R212). -/
def doubleAndAddRound (c : Curve) (k : Nat) (RA : Point × Point) (j : Nat) : Point × Point :=
  (if k.testBit j then ptAdd c RA.1 RA.2 else RA.1, ptDbl RA.2)

theorem doubleAndAddRound_succ (c : Curve) (k : Nat) (RA : Point × Point) (j : Nat) :
    doubleAndAddRound c k RA (j + 1) = doubleAndAddRound c (k / 2) RA j := by
  rw [doubleAndAddRound, Nat.testBit_succ, doubleAndAddRound]

/-- The rounds over n + 1 bits are the one for bit 0, then those for the n bits of k / 2. -/
theorem foldl_doubleAndAddRound_succ (c : Curve) (k n : Nat) (RA : Point × Point) :
    (List.range (n + 1)).foldl (doubleAndAddRound c k) RA =
      (List.range n).foldl (doubleAndAddRound c (k / 2)) (doubleAndAddRound c k RA 0) := by
  simp only [List.range_succ_eq_map, List.foldl_cons, List.foldl_map, Nat.succ_eq_add_one, doubleAndAddRound_succ]

theorem ptMulLoop_zero_scalar (c : Curve) (m : Nat) (R A : Point) : ptMulLoop c m R A 0 = R := by
  cases m with
  | zero => rfl
  | succ m => exact if_pos rfl

/-- The loop runs the round for bit 0 and goes on with k / 2; for k = 0 it stops, and further rounds would change
nothing. -/
theorem ptMulLoop_round (c : Curve) {m k : Nat} (hk : k ≤ m) (R A : Point) :
    ptMulLoop c m R A k =
      ptMulLoop c (m - 1) (doubleAndAddRound c k (R, A) 0).1 (doubleAndAddRound c k (R, A) 0).2 (k / 2) := by
  by_cases h0 : k = 0
  case pos =>
    subst h0
    simp only [ptMulLoop_zero_scalar, doubleAndAddRound, Nat.zero_testBit, Nat.zero_div, Bool.false_eq_true, if_false]
  case neg =>
    obtain ⟨m, rfl⟩ : ∃ m', m = m' + 1 := Nat.exists_eq_add_one.mpr (by omega)
    simp only [ptMulLoop, if_neg h0, doubleAndAddRound, Nat.testBit_zero, decide_eq_true_eq, Nat.and_one_is_mod,
      Nat.shiftRight_one, Nat.add_sub_cancel]

/-- With enough rounds the loop is the fold over any number of bits that covers k. -/
theorem ptMulLoop_eq_foldl (c : Curve) {m n k : Nat} (R A : Point) (hk : k ≤ m) (hn : k < 2 ^ n) :
    ptMulLoop c m R A k = ((List.range n).foldl (doubleAndAddRound c k) (R, A)).1 := by
  induction n generalizing m k R A with
  | zero =>
    obtain rfl : k = 0 := Nat.lt_one_iff.mp hn
    exact ptMulLoop_zero_scalar c m R A
  | succ n ih =>
    have hhalf : k / 2 < 2 ^ n := by omega
    rw [ptMulLoop_round c hk, foldl_doubleAndAddRound_succ]
    exact ih _ _ (by omega) hhalf

theorem ptMul_neg (c : Curve) (P : Point) (k : Nat) : ptMul c P (-(k : Int)) = ptMul c (ptNeg P) k := by
  cases k with
  | zero => rfl
  | succ k => rfl

/-- Settles O34: the command reads both sources before it writes, and `pt_mul` is the fold of `ptMulLoop_eq_foldl`. -/
theorem scalarMultiplication : Obligations.ScalarMultiplication := by
  unfold Obligations.ScalarMultiplication
  refine ⟨?command, ?fold, ptMul_neg⟩
  case command =>
    intro rd rs1 rs2 s ba bk hwf hla hlk ha hk
    simp only [Instr.wellFormed, Bool.and_eq_true] at hwf
    obtain ⟨⟨hrd, hrs1⟩, -⟩ := hwf
    exact .binary_of_fits (fun P (k : Nat) => ptBytes (ptMul Config.curve P k)) hrd rfl (ptBytes_length _)
      (readPt_of_holdsAt s rs1 ba hla ha hrs1) (readRaw_of_holdsAt s rs2 bk hlk hk)
  case fold => exact fun c P k n hn => ptMulLoop_eq_foldl c ptIdentity P le_rfl hn

end Sys2Proof.Machine
end

section
/-! PROOFS: `pt_add` is symmetric, and the identity is neutral for a tuple with Z = 1 and T = X·Y
(44_ecc_point_add.md R190, R191; 45_ecc_point_double.md R212). -/

namespace Sys2Proof.Machine

theorem fp2Value_zero : fp2Value fp2Zero = 0 := QuadraticAlgebra.ext Nat.cast_zero Nat.cast_zero

theorem fp2Value_one : fp2Value fp2One = 1 := QuadraticAlgebra.ext Nat.cast_one Nat.cast_zero

section
variable [Fact primeP.Prime]

/-- Each of E, F, G and H is symmetric in the two operands. -/
theorem ptAdd_comm (c : Curve) (P Q : Point) : ptAdd c P Q = ptAdd c Q P := by
  rw [ptAdd_eq_hwcdTuple, ptAdd_eq_hwcdTuple]
  congr 1 <;> ring

/-- Adding the identity leaves E = X, F = G = Z and H = Y. -/
theorem ptAdd_identity_eq_hwcdTuple (c : Curve) (P : Point) :
    ptAdd c P ptIdentity = hwcdTuple (fp2Value P.X) (fp2Value P.Z) (fp2Value P.Z) (fp2Value P.Y) := by
  simp only [ptAdd_eq_hwcdTuple, ptIdentity, fp2Value_zero, fp2Value_one, mul_zero, mul_one, add_zero, sub_zero]

theorem ptAdd_identity_of_affine (c : Curve) {x y : Fp2} (hx : Fp2Canonical x) (hy : Fp2Canonical y) :
    ptAdd c ⟨x, y, fp2One, fp2Mul x y⟩ ptIdentity = ⟨x, y, fp2One, fp2Mul x y⟩ := by
  rw [ptAdd_identity_eq_hwcdTuple, hwcdTuple, fp2Value_one, mul_one, one_mul, one_mul, fp2Canon_value hx,
    fp2Canon_value hy, fp2Canon_one, fp2Mul_eq_canon]

end

/-- Settles O37, by `ptAdd_comm` and `ptAdd_identity_of_affine`. -/
theorem pointAdditionSymmetricWithIdentity : Obligations.PointAdditionSymmetricWithIdentity := by
  unfold Obligations.PointAdditionSymmetricWithIdentity
  have := primeP_fact
  refine ⟨ptAdd_comm, ?identity⟩
  case identity =>
    rintro c ⟨x, y, z, t⟩ ⟨hx, hy, -, -⟩ hz ht
    obtain rfl : z = fp2One := hz
    obtain rfl : t = fp2Mul x y := ht
    exact ptAdd_identity_of_affine c hx hy

end Sys2Proof.Machine
end

section
/-! PROOFS: the sign of an Fp2 element, the byte 31 it is stored in, and the commands FP2_SIGN, PT_CHKENC and PT_ENC
(46_ecc_point_compress.md R230 to R234; 47_ecc_point_decompress.md R242, R243). -/

namespace Sys2Proof.Machine

/-! ## The sign (O41) -/

/-- Bit 126 is the top bit of a canonical component, so it says in which half of the range the component lies. -/
theorem testBit_126_of_lt {a : Nat} (h : a < primeP) : a.testBit 126 = decide (2 ^ 126 ≤ a) := by
  rw [primeP] at h
  rw [Nat.testBit_eq_decide_div_mod_eq]
  exact decide_eq_decide.2 (by omega)

theorem fpNeg_of_pos {a : Nat} (h : 0 < a) : fpNeg a = primeP - a := by
  rw [fpNeg, fpReduce_eq_mod]
  exact Nat.mod_eq_of_lt (by rw [primeP]; omega)

theorem fpNeg_zero : fpNeg 0 = 0 := by rw [fpNeg, fpReduce_eq_mod]; exact Nat.mod_self primeP

/-- p is odd with its half between 2^126 − 1 and 2^126, so a and p − a lie in different halves of the range. -/
theorem testBit_126_fpNeg {a : Nat} (hpos : 0 < a) (hlt : a < primeP) : (fpNeg a).testBit 126 = !a.testBit 126 := by
  rw [fpNeg_of_pos hpos, testBit_126_of_lt hlt, testBit_126_of_lt (by omega), ← decide_not]
  rw [primeP] at hlt ⊢
  exact decide_eq_decide.2 (by omega)

theorem fp2Sign_of_re_pos {x : Fp2} (h : 0 < x.re) : fp2Sign x = x.re.testBit 126 := if_pos h.ne'

theorem fp2Sign_of_re_zero {x : Fp2} (h : x.re = 0) : fp2Sign x = x.im.testBit 126 := if_neg (not_not_intro h)

theorem fp2Sign_fp2Neg {x : Fp2} (hx : Fp2Canonical x) (hne : x ≠ fp2Zero) : fp2Sign (fp2Neg x) = !fp2Sign x := by
  obtain ⟨hre, him⟩ := hx
  rcases Nat.eq_zero_or_pos x.re with hzero | hpos
  case inl =>
    have him_pos : 0 < x.im := Nat.pos_of_ne_zero fun h => hne (Fp2.mk.injEq .. ▸ ⟨hzero, h⟩)
    have hneg : (fp2Neg x).re = 0 := by rw [fp2Neg, hzero, fpNeg_zero]
    rw [fp2Sign_of_re_zero hzero, fp2Sign_of_re_zero hneg, fp2Neg, testBit_126_fpNeg him_pos him]
  case inr =>
    have hneg : 0 < (fp2Neg x).re := (Nat.sub_pos_of_lt hre).trans_eq (fpNeg_of_pos hpos).symm
    rw [fp2Sign_of_re_pos hpos, fp2Sign_of_re_pos hneg, fp2Neg, testBit_126_fpNeg hpos hre]

/-- Settles O41: the component that gives the sign is not 0, and its negation lies in the other half of the range. -/
theorem negationFlipsTheSign : Obligations.NegationFlipsTheSign := by
  unfold Obligations.NegationFlipsTheSign
  exact fun _ => fp2Sign_fp2Neg

/-! ## FP2_SIGN and PT_CHKENC (O40) -/

/-- The sign in plain arithmetic, of canonical components. -/
theorem fp2Sign_iff {x : Fp2} (hx : Fp2Canonical x) :
    fp2Sign x = true ↔ if x.re ≠ 0 then 2 ^ 126 ≤ x.re else 2 ^ 126 ≤ x.im := by
  obtain ⟨hre, him⟩ := hx
  rw [fp2Sign, testBit_126_of_lt hre, testBit_126_of_lt him]
  split <;> exact decide_eq_true_iff

theorem byte_bit7_clear_iff : ∀ b : Byte, (b &&& 0x80 == 0) = true ↔ b.toNat < 128 := by decide

theorem encValid_iff (E : List Byte) : encValid E = true ↔ (E.getD 15 0).toNat < 128 := byte_bit7_clear_iff _

/-- Settles O40: each command reads its slot and writes a Bool, which the two equivalences say in plain arithmetic. -/
theorem signAndEncodingValidator : Obligations.SignAndEncodingValidator := by
  unfold Obligations.SignAndEncodingValidator
  intro rd rs1 s ba hl ha a b
  constructor
  case left =>
    have hbytes : fp2OfBytes ba = ⟨a, b⟩ := by rw [fp2OfBytes, fpReduce_eq_mod, fpReduce_eq_mod]
    have hread := readFp2_slot_of_holdsAt s rs1 ba hl ha
    have hcanonical := fp2Canonical_fp2OfBytes ba
    rw [hbytes] at hread hcanonical
    rw [← boolBytes_of_iff (fp2Sign_iff hcanonical)]
    exact .unary (fun x => boolBytes (fp2Sign x)) rfl (boolBytes_length _) hread
  case right =>
    have hread := readBytes_of_holdsAt s rs1.toNat ba ha (hl ▸ slot_in_range rs1)
    rw [hl] at hread
    rw [← boolBytes_of_iff (encValid_iff ba)]
    exact .unary (fun E => boolBytes (encValid E)) rfl (boolBytes_length _) hread

/-! ## Bit 7 of byte 31 -/

theorem Fp2Canonical.re_lt {x : Fp2} (h : Fp2Canonical x) : x.re < 2 ^ 127 := h.1.trans (by decide)

theorem Fp2Canonical.im_lt {x : Fp2} (h : Fp2Canonical x) : x.im < 2 ^ 127 := h.2.trans (by decide)

theorem toLE_succ (n v : Nat) : toLE (n + 1) v = toLE n v ++ [BitVec.ofNat 8 (v / 256 ^ n)] := by
  induction n generalizing v with
  | zero => simp [toLE]
  | succ n ih =>
    rw [toLE, ih, Nat.div_div_eq_div_mul, ← Nat.pow_succ']
    rfl

/-- Only the low n bytes of a value stand in its n-byte string. -/
theorem toLE_congr {n v w : Nat} (h : v % 256 ^ n = w % 256 ^ n) : toLE n v = toLE n w := by
  have hself (u : Nat) : toLE n (u % 256 ^ n) = toLE n u := by
    rw [← leNat_toLE]
    simpa only [toLE_length] using toLE_leNat (toLE n u)
  rw [← hself v, h, hself]

theorem byte_replace_bit7 : ∀ (b : Byte) (bit : Bool),
    (b &&& 0x7F) ||| (if bit then 0x80 else 0) = BitVec.ofNat 8 (b.toNat % 128 + 128 * bit.toNat) := by decide

/-- Byte 31 holds the bits 120 to 127 of the second half, so its bit 7 has the weight 2^127 there. -/
theorem setTopBit_toLE (a v : Nat) (bit : Bool) :
    setTopBit (toLE 16 a ++ toLE 16 v) bit = toLE 16 a ++ toLE 16 (v % 2 ^ 127 + 2 ^ 127 * bit.toNat) := by
  have hbit : bit.toNat ≤ 1 := bit.toNat_le
  have hlow : toLE 15 (v % 2 ^ 127 + 2 ^ 127 * bit.toNat) = toLE 15 v := toLE_congr (by omega)
  have htop : BitVec.ofNat 8 ((BitVec.ofNat 8 (v / 256 ^ 15)).toNat % 128 + 128 * bit.toNat) =
      BitVec.ofNat 8 ((v % 2 ^ 127 + 2 ^ 127 * bit.toNat) / 256 ^ 15) := by
    rw [BitVec.toNat_ofNat]
    congr 1
    omega
  have hlength : (toLE 16 a ++ toLE 15 v).length = 31 := by simp
  rw [toLE_succ 15 v, ← List.append_assoc, setTopBit, List.take_left' hlength, List.drop_left' hlength,
    List.map_singleton, byte_replace_bit7, htop, toLE_succ 15 (_ + _), hlow, List.append_assoc]

theorem setTopBit_fp2ToBytes {y : Fp2} (hy : Fp2Canonical y) (bit : Bool) :
    setTopBit (fp2ToBytes y) bit = toLE 16 y.re ++ toLE 16 (y.im + 2 ^ 127 * bit.toNat) := by
  rw [fp2ToBytes, setTopBit_toLE, Nat.mod_eq_of_lt hy.im_lt]

/-! ## Encodings (O42, O43) -/

/-- The bytes of an affine point: y, with the sign of x in bit 7 of byte 31 (46_ecc_point_compress.md R232). -/
def affineBytes (q : Fp2 × Fp2) : List Byte := setTopBit (fp2ToBytes q.2) (fp2Sign q.1)

theorem ptEncode_eq_map (P : Point) : ptEncode P = (ptAffine P).map affineBytes := by
  rw [ptEncode]
  cases ptAffine P with
  | none => rfl
  | some q => rfl

theorem affineBytes_length (q : Fp2 × Fp2) : (affineBytes q).length = 32 := by
  rw [affineBytes, setTopBit_length, fp2ToBytes_length]

theorem affineBytes_eq {x y : Fp2} (hy : Fp2Canonical y) :
    affineBytes (x, y) = toLE 16 y.re ++ toLE 16 (y.im + 2 ^ 127 * (fp2Sign x).toNat) :=
  setTopBit_fp2ToBytes hy (fp2Sign x)

theorem fp2Inv_zero : fp2Inv fp2Zero = none := rfl

theorem ptAffine_of_inv {P : Point} {zi : Fp2} (h : fp2Inv P.Z = some zi) :
    ptAffine P = some (fp2Mul P.X zi, fp2Mul P.Y zi) := (ptAffine_eq_some_iff P _ _).2 ⟨zi, h, rfl, rfl⟩

theorem ptAffine_of_Z_zero {P : Point} (h : P.Z = fp2Zero) : ptAffine P = none := by
  rw [ptAffine, h, fp2Inv_zero]
  rfl

section
variable [Fact primeP.Prime]

theorem fp2Canonical_fp2Mul (z w : Fp2) : Fp2Canonical (fp2Mul z w) := by
  rw [fp2Mul_eq_canon]
  exact fp2Canonical_canon _

/-- Every canonical element other than 0 has an inverse. -/
theorem exists_fp2Inv {z : Fp2} (hz : Fp2Canonical z) (hne : z ≠ fp2Zero) : ∃ w, fp2Inv z = some w := by
  have hvalue : fp2Value z ≠ 0 := fun h => hne (by rw [← fp2Canon_value hz, h, fp2Canon_zero])
  obtain ⟨w, hw, -⟩ := fp2Inv_canon_of_ne_zero hvalue
  exact ⟨_, fp2Canon_value hz ▸ hw⟩

end

theorem exec_ptEnc (rd rs1 : Slot) (s : State) : exec (.ptEnc rd rs1) s =
    retire (encode (.ptEnc rd rs1)) s (do
      let P ← readPt s rs1.toNat
      return wroteOr .divzero rd.toNat ((ptAffine P).map affineBytes)) := by
  simp only [exec, execPtEnc, ptEncode_eq_map]

/-- Settles O42: Z has an inverse unless it is 0, and the encoding of the affine point it gives is `affineBytes_eq`. -/
theorem pointEncoding : Obligations.PointEncoding := by
  unfold Obligations.PointEncoding
  intro rd rs1 s ba hwf hl ha P
  have := primeP_fact
  obtain ⟨-, hrs1⟩ := (Bool.and_eq_true _ _).mp hwf
  have hread := readPt_of_holdsAt s rs1 ba hl ha hrs1
  have hZ : Fp2Canonical P.Z := fp2Canonical_fp2OfBytes _
  refine ⟨fun hzero => ?zero, fun hne => ?nonzero⟩
  case zero => exact .of_absent ptAffine affineBytes (exec_ptEnc rd rs1 s) hread (ptAffine_of_Z_zero hzero)
  case nonzero =>
    obtain ⟨zi, hinv⟩ := exists_fp2Inv hZ hne
    obtain ⟨hzi, hone⟩ := (fp2Inv_eq_some_iff hZ).1 hinv
    have hwrites := Writes.of_present ptAffine affineBytes (exec_ptEnc rd rs1 s) (affineBytes_length _) hread
      (ptAffine_of_inv hinv)
    rw [affineBytes_eq (fp2Canonical_fp2Mul _ _), Bool.toNat, Bool.cond_eq_ite] at hwrites
    exact ⟨zi, hzi, hone, hwrites⟩

/-- Byte 15 holds the bits 120 to 127 of the real part, which is below 2^127. -/
theorem encValid_affineBytes {x y : Fp2} (hy : Fp2Canonical y) : encValid (affineBytes (x, y)) = true := by
  have hre := hy.re_lt
  rw [encValid_iff, affineBytes_eq hy, List.getD_eq_getElem?_getD, List.getElem?_append_left (by simp),
    toLE_getElem? (by decide), Option.getD_some, BitVec.toNat_ofNat]
  omega

/-- Settles O43: the y of an affine point is canonical, being a product. -/
theorem encodingsPassTheValidator : Obligations.EncodingsPassTheValidator := by
  unfold Obligations.EncodingsPassTheValidator
  intro P E hE
  have := primeP_fact
  refine ⟨ptEncode_length hE, ?_⟩
  rw [ptEncode_eq_map, Option.map_eq_some_iff] at hE
  obtain ⟨⟨x, y⟩, haffine, rfl⟩ := hE
  obtain ⟨zi, -, -, rfl⟩ := (ptAffine_eq_some_iff P x y).1 haffine
  exact encValid_affineBytes (fp2Canonical_fp2Mul _ _)

end Sys2Proof.Machine
end

section
/-! PROOFS: the encoding of a point on the curve decodes to that point, where d is not a square
(46_ecc_point_compress.md R232, R234; 47_ecc_point_decompress.md R240; 00_scope.md R10). -/

namespace Sys2Proof.Machine

/-! ## What a decode gives, step by step -/

/-- The 32-byte codec gives a canonical element back (30_encoding.md R93). -/
theorem fp2OfBytes_fp2ToBytes {y : Fp2} (hy : Fp2Canonical y) : fp2OfBytes (fp2ToBytes y) = y := by
  have hcomponent {v : Nat} (hv : v < primeP) : fpReduce (leNat (toLE 16 v)) = v := by
    have hbytes : v < 256 ^ 16 := hv.trans (by decide)
    rw [leNat_toLE, Nat.mod_eq_of_lt hbytes, fpReduce_eq_mod, Nat.mod_eq_of_lt hv]
  obtain ⟨hre, him⟩ := hy
  rw [fp2OfBytes, fp2ToBytes, List.take_left' (toLE_length _ _), List.drop_left' (toLE_length _ _), hcomponent hre,
    hcomponent him]

/-- The y read back from an encoding: clearing the sign bit leaves the bytes of y. -/
theorem fp2OfBytes_clear_affineBytes {x y : Fp2} (hy : Fp2Canonical y) :
    fp2OfBytes (setTopBit (affineBytes (x, y)) false) = y := by
  rw [affineBytes_eq hy, setTopBit_toLE, Nat.add_mul_mod_self_left, Nat.mod_eq_of_lt hy.im_lt, Bool.toNat_false,
    Nat.mul_zero, Nat.add_zero]
  exact fp2OfBytes_fp2ToBytes hy

/-- The sign read back from an encoding. -/
theorem sign_affineBytes {x y : Fp2} (hy : Fp2Canonical y) : ((affineBytes (x, y)).getD 31 0).msb = fp2Sign x := by
  have him := hy.im_lt
  have hbyte : (affineBytes (x, y)).getD 31 0 = BitVec.ofNat 8 ((y.im + 2 ^ 127 * (fp2Sign x).toNat) / 256 ^ 15) := by
    rw [affineBytes_eq hy, List.getD_eq_getElem?_getD, List.getElem?_append_right (by simp), toLE_length,
      toLE_getElem? (by decide), Option.getD_some]
  rw [hbyte, BitVec.msb_eq_decide, BitVec.toNat_ofNat]
  cases fp2Sign x with
  | false => exact decide_eq_false (by simp only [Bool.toNat_false]; omega)
  | true => exact decide_eq_true (by simp only [Bool.toNat_true]; omega)

/-- The one of r and −r that a decode takes for the stored sign s (47_ecc_point_decompress.md R240). -/
def rootOfSign (r : Fp2) (s : Bool) : Fp2 := if fp2Sign r != s then fp2Neg r else r

theorem rootOfSign_self (r : Fp2) : rootOfSign r (fp2Sign r) = r := by
  rw [rootOfSign, bne_self_eq_false]
  exact if_neg Bool.false_ne_true

theorem rootOfSign_not (r : Fp2) : rootOfSign r (!fp2Sign r) = fp2Neg r := by
  rw [rootOfSign, Bool.bne_not_self]
  exact if_pos rfl

/-- The tuple of an affine point (44_ecc_point_add.md R190). -/
def affinePoint (x y : Fp2) : Point := ⟨x, y, fp2One, fp2Mul x y⟩

/-- The steps of `pt_decode`, none of which may be absent (47_ecc_point_decompress.md R240). -/
theorem ptDecode_eq_some_iff (c : Curve) (E : List Byte) (P : Point) :
    let y := fp2OfBytes (setTopBit E false)
    ptDecode c E = some P ↔
      ∃ vi, fp2Inv (fp2Add (fp2Mul c.d (fp2Sqr y)) fp2One) = some vi ∧
        ∃ r, fp2Sqrt (fp2Mul (fp2Sub (fp2Sqr y) fp2One) vi) = some r ∧
          ptOnCurve c (affinePoint (rootOfSign r (E.getD 31 0).msb) y) = true ∧
          affinePoint (rootOfSign r (E.getD 31 0).msb) y = P := by
  intro y
  rw [ptDecode, Option.bind_eq_bind, Option.bind_eq_some_iff]
  refine exists_congr fun vi => and_congr_right fun _ => Option.bind_eq_some_iff.trans ?_
  refine exists_congr fun r => and_congr_right fun _ => Option.ite_none_right_eq_some.trans ?_
  exact and_congr_right fun _ => Option.some_inj

section
variable [Fact primeP.Prime]

/-! ## The stored sign and the affine tuple -/

/-- Of the two roots of x² the sign of x picks x itself; for x = 0 they are one (46_ecc_point_compress.md R231). -/
theorem rootOfSign_canon {x r : Fp2Ring} (h : r = x ∨ r = -x) :
    rootOfSign (fp2Canon r) (fp2Sign (fp2Canon x)) = fp2Canon x := by
  rcases h with rfl | rfl
  case inl => exact rootOfSign_self _
  case inr =>
    by_cases hx : x = 0
    case pos => rw [hx, neg_zero, rootOfSign_self]
    case neg =>
      have hne : fp2Canon (-x) ≠ fp2Zero := by rwa [← fp2Canon_zero, Ne, fp2Canon_inj, neg_eq_zero]
      have hsign := fp2Sign_fp2Neg (fp2Canonical_canon (-x)) hne
      have hneg : fp2Neg (fp2Canon (-x)) = fp2Canon x := by rw [fp2Neg_canon, neg_neg]
      rw [hneg] at hsign
      rw [hsign, rootOfSign_not, hneg]

theorem onCurveAffine_canon_iff (c : Curve) (x y : Fp2Ring) :
    onCurveAffine c (fp2Canon x) (fp2Canon y) = true ↔ -(x * x) + y * y = 1 + fp2Value c.d * (x * x) * (y * y) := by
  simp only [onCurveAffine, fp2Eq_iff, fp2Sqr_eq_fp2Mul, fp2Mul_eq_canon, fp2Neg_canon, fp2Add_eq_canon, fp2Value_canon,
    fp2Value_one, fp2Canon_inj]

/-- A tuple with Z = 1 is on the curve where its x and y are. -/
theorem ptOnCurve_affinePoint {c : Curve} {x y : Fp2Ring}
    (h : onCurveAffine c (fp2Canon x) (fp2Canon y) = true) :
    ptOnCurve c (affinePoint (fp2Canon x) (fp2Canon y)) = true := by
  have hone : Fp2Canonical fp2One := fp2Canonical_canon 1
  refine (ptOnCurve_iff c hone).2 ⟨fp2One, hone, (fp2Mul_eq_one_iff _ _).2 ?_, ?_⟩
  · rw [affinePoint, fp2Value_one, mul_one]
  · simpa only [affinePoint, fp2Mul_eq_canon, fp2Value_canon, fp2Value_one, mul_one] using h

/-- The affine tuple of a point is the same point. -/
theorem ptEq_affinePoint {P : Point} {zi : Fp2} (h : fp2Mul P.Z zi = fp2One) :
    ptEq (affinePoint (fp2Mul P.X zi) (fp2Mul P.Y zi)) P = true := by
  rw [fp2Mul_eq_one_iff] at h
  simp only [ptEq_iff, affinePoint, fp2Mul_eq_canon, fp2Value_canon, fp2Value_one, fp2Canon_inj]
  exact ⟨by linear_combination fp2Value P.X * h, by linear_combination fp2Value P.Y * h⟩

/-! ## Fp2 as a field -/

/-- −1 is no square modulo p, in the form in which Mathlib makes the quadratic algebra a field of it. -/
theorem fp2_field_fact : Fact (∀ r : ZMod primeP, r ^ 2 ≠ -1 + 0 * r) :=
  ⟨fun r h => neg_one_not_square ⟨r, by linear_combination -h⟩⟩

theorem neg_one_isSquare_fp2 : IsSquare (-1 : Fp2Ring) :=
  ⟨⟨0, 1⟩, by rw [QuadraticAlgebra.mk_mul_mk]; ext <;> simp [QuadraticAlgebra.re_one, QuadraticAlgebra.im_one]⟩

/-- A root in the plain arithmetic of the statements is a root of the value. -/
theorem not_isSquare_value {d : Fp2} (hd : Fp2Canonical d)
    (h : ¬ ∃ e f : Nat, ((e : Int) * e - f * f) % (primeP : Int) = d.re ∧ 2 * e * f % primeP = d.im) :
    ¬ IsSquare (fp2Value d) := by
  rintro ⟨r, hr⟩
  obtain ⟨hre, him⟩ := hd
  have hsqr : fp2Sqr (fp2Canon r) = fp2Canon (fp2Value d) := by
    rw [fp2Sqr_eq_fp2Mul, fp2Mul_eq_canon, fp2Value_canon, hr]
  have hroot := (fp2Sqr_eq_iff_mod r.re.val r.im.val d.re d.im).2 hsqr
  rw [Int.emod_eq_of_lt (Int.natCast_nonneg d.re) (Int.ofNat_lt.2 hre), Nat.mod_eq_of_lt him] at hroot
  exact h ⟨_, _, hroot⟩

section
variable [Fact (∀ r : ZMod primeP, r ^ 2 ≠ -1 + 0 * r)]

/-- R234: d·y² + 1 = 0 would make d = −1/y² a square, because −1 is one in Fp2. -/
theorem denominator_ne_zero {d y : Fp2Ring} (hd : ¬ IsSquare d) : d * (y * y) + 1 ≠ 0 := by
  intro h
  have hyy : y * y ≠ 0 := fun h0 => one_ne_zero (by rw [← h, h0, mul_zero, zero_add])
  have hquotient : d = -1 / (y * y) := eq_div_of_mul_eq hyy (by linear_combination h)
  exact hd (hquotient ▸ neg_one_isSquare_fp2.div (IsSquare.mul_self y))

/-- `fp2_sqrt` of a square gives one of its two roots. -/
theorem fp2Sqrt_mul_self (x : Fp2Ring) :
    ∃ r, fp2Sqrt (fp2Canon (x * x)) = some (fp2Canon r) ∧ (r = x ∨ r = -x) := by
  have hre : x.re * x.re - x.im * x.im = (x * x).re := by rw [QuadraticAlgebra.re_mul]; ring
  have him : 2 * (x.re * x.im) = (x * x).im := by rw [QuadraticAlgebra.im_mul]; ring
  obtain ⟨a, b, hroot, -, -⟩ := fp2Sqrt_complete hre him
  have hroot' : fp2Sqrt (fp2Canon (x * x)) = some (fp2Canon ⟨a, b⟩) := hroot
  have hsqr := fp2Sqrt_sound hroot'
  rw [fp2Sqr_eq_fp2Mul, fp2Mul_eq_canon, fp2Value_canon, fp2Canon_inj] at hsqr
  exact ⟨⟨a, b⟩, hroot', mul_self_eq_mul_self_iff.1 hsqr⟩

/-! ## The round trip -/

/-- The encoding of a point of the curve decodes to it. The curve equation makes x² = (y² − 1)/(d·y² + 1), so the decode
finds x or −x, and the stored sign says which (46_ecc_point_compress.md R234). -/
theorem ptDecode_affineBytes {c : Curve} (hd : ¬ IsSquare (fp2Value c.d)) {x y : Fp2Ring}
    (hon : onCurveAffine c (fp2Canon x) (fp2Canon y) = true) :
    ptDecode c (affineBytes (fp2Canon x, fp2Canon y)) = some (affinePoint (fp2Canon x) (fp2Canon y)) := by
  have hy := fp2Canonical_canon y
  have hcurve := (onCurveAffine_canon_iff c x y).1 hon
  obtain ⟨vi, hvi, hv⟩ := fp2Inv_canon_of_ne_zero (denominator_ne_zero (y := y) hd)
  obtain ⟨r, hr, hrx⟩ := fp2Sqrt_mul_self x
  have hxx : (y * y - 1) * vi = x * x := by linear_combination vi * hcurve + x * x * hv
  refine (ptDecode_eq_some_iff c _ _).2 ?_
  rw [fp2OfBytes_clear_affineBytes hy, sign_affineBytes hy]
  refine ⟨fp2Canon vi, ?inverse, fp2Canon r, ?root, ?point⟩
  case inverse =>
    simp only [fp2Sqr_eq_fp2Mul, fp2Mul_eq_canon, fp2Add_eq_canon, fp2Value_canon, fp2Value_one]
    exact hvi
  case root =>
    simp only [fp2Sqr_eq_fp2Mul, fp2Mul_eq_canon, ← fp2Canon_one, fp2Sub_canon, fp2Value_canon, hxx]
    exact hr
  case point =>
    rw [rootOfSign_canon hrx]
    exact ⟨ptOnCurve_affinePoint hon, rfl⟩

end
end

/-- Settles O59: the affine form of P is on the curve, its encoding decodes to it (`ptDecode_affineBytes`), and it is
the same point as P (`ptEq_affinePoint`). -/
theorem encodedPointDecodesToThePoint : Obligations.EncodedPointDecodesToThePoint := by
  unfold Obligations.EncodedPointDecodesToThePoint
  intro c P hd hnonsquare hP hon
  have := primeP_fact
  have := fp2_field_fact
  obtain ⟨-, -, hZ, -⟩ := hP
  obtain ⟨zi, hzi, hone, haffine⟩ := (ptOnCurve_iff c hZ).1 hon
  have hinv := (fp2Inv_eq_some_iff hZ).2 ⟨hzi, hone⟩
  have hencode : ptEncode P = some (affineBytes (fp2Mul P.X zi, fp2Mul P.Y zi)) := by
    rw [ptEncode_eq_map, ptAffine_of_inv hinv, Option.map_some]
  have hdecode := ptDecode_affineBytes (not_isSquare_value hd hnonsquare)
    (fp2Mul_eq_canon P.X zi ▸ fp2Mul_eq_canon P.Y zi ▸ haffine)
  rw [← fp2Mul_eq_canon, ← fp2Mul_eq_canon] at hdecode
  exact ⟨_, _, hencode, hdecode, ptEq_affinePoint hone⟩

end Sys2Proof.Machine
end

section
/-! PROOFS: when a decode succeeds and the point it gives, and the command PT_DEC (47_ecc_point_decompress.md R240, R241). -/

namespace Sys2Proof.Machine

/-! ## PT_DEC (O44) -/

/-- `Writes.of_present` for a result of any operand type, from a first slot that fits. -/
theorem Writes.of_present_of_fits {α β : Type} {i : Instr} {s : State} {t : OperandType} {rd : Slot} {rc : Rc}
    {r : Except Fault α} {v : α} {w : β} (g : α → Option β) (f : β → List Byte) (hf : fits t rd = true)
    (hx : exec i s = retire (encode i) s (do let a ← r; return wroteOr rc rd.toNat ((g a).map f)))
    (hl : (f w).length = 32 * t.span) (hr : r = .ok v) (hg : g v = some w) : Writes i s rd (f w) := by
  subst hr
  have hsome : exec i s = retire (encode i) s (.ok (wroteOr rc rd.toNat ((g v).map f))) := hx
  rw [hg] at hsome
  exact .of_fits hf hl hsome

/-- Settles O44: the command reads E before it writes, and its result is absent exactly where the decode fails. -/
theorem pointDecoding : Obligations.PointDecoding := by
  unfold Obligations.PointDecoding
  intro rd rs1 s E hwf hl hE
  obtain ⟨hrd, -⟩ := (Bool.and_eq_true _ _).mp hwf
  have hread := readBytes_of_holdsAt s rs1.toNat E hE (hl ▸ slot_in_range rs1)
  rw [hl] at hread
  refine ⟨fun hnone => ?absent, fun P hP => ?present⟩
  case absent => exact .of_absent (ptDecode Config.curve) ptBytes rfl hread hnone
  case present =>
    exact .of_present_of_fits (ptDecode Config.curve) ptBytes hrd rfl (ptBytes_length P) hread hP

/-! ## The y and the sign bit of a 32-byte string -/

theorem fp2OfBytes_toLE {a b : Nat} (ha : a < 256 ^ 16) (hb : b < 256 ^ 16) :
    fp2OfBytes (toLE 16 a ++ toLE 16 b) = ⟨a % primeP, b % primeP⟩ := by
  rw [fp2OfBytes, List.take_left' (toLE_length _ _), List.drop_left' (toLE_length _ _), leNat_toLE, leNat_toLE,
    Nat.mod_eq_of_lt ha, Nat.mod_eq_of_lt hb, fpReduce_eq_mod, fpReduce_eq_mod]

/-- The two halves of a 32-byte string, as the 16-byte strings of their values. -/
theorem toLE_halves {E : List Byte} (hl : E.length = 32) :
    toLE 16 (leNat (E.take 16)) ++ toLE 16 (leNat (E.drop 16)) = E := by
  have htake : (E.take 16).length = 16 := by rw [List.length_take, hl]; rfl
  have hdrop : (E.drop 16).length = 16 := by rw [List.length_drop, hl]
  have hlow := toLE_leNat (E.take 16)
  have hhigh := toLE_leNat (E.drop 16)
  rw [htake] at hlow
  rw [hdrop] at hhigh
  rw [hlow, hhigh, List.take_append_drop]

/-- The y a decode reads from E, with the sign bit cleared (47_ecc_point_decompress.md R240). -/
def decodedY (E : List Byte) : Fp2 := fp2OfBytes (setTopBit E false)

theorem fp2Canonical_decodedY (E : List Byte) : Fp2Canonical (decodedY E) := fp2Canonical_fp2OfBytes _

/-- Clearing bit 7 of byte 31 takes the second half modulo 2^127. -/
theorem decodedY_eq {E : List Byte} (hl : E.length = 32) :
    decodedY E = ⟨leNat (E.take 16) % primeP, leNat (E.drop 16) % 2 ^ 127 % primeP⟩ := by
  have hlow : leNat (E.take 16) < 256 ^ 16 :=
    (leNat_lt _).trans_le (Nat.pow_le_pow_right (by decide) (List.length_take_le 16 E))
  have hhigh : leNat (E.drop 16) % 2 ^ 127 < 256 ^ 16 := (Nat.mod_lt _ (by decide)).trans (by decide)
  have hclear := setTopBit_toLE (leNat (E.take 16)) (leNat (E.drop 16)) false
  rw [toLE_halves hl, Bool.toNat_false, Nat.mul_zero, Nat.add_zero] at hclear
  rw [decodedY, hclear, fp2OfBytes_toLE hlow hhigh]

theorem byte_msb_iff (b : Byte) : b.msb = true ↔ 128 ≤ b.toNat := by
  rw [BitVec.msb_eq_decide, decide_eq_true_iff]

/-! ## The root and its sign -/

theorem onCurveAffine_iff (c : Curve) (x y : Fp2) : onCurveAffine c x y = true ↔
    fp2Add (fp2Neg (fp2Sqr x)) (fp2Sqr y) = fp2Add fp2One (fp2Mul (fp2Mul c.d (fp2Sqr x)) (fp2Sqr y)) :=
  fp2Eq_iff _ _

/-- What R240 asks of y for a decode: an inverse vi of d·y² + 1, and a root x of (y² − 1)·vi, both canonical. -/
structure DecodeRoot (c : Curve) (y vi x : Fp2) : Prop where
  canonical_inv : Fp2Canonical vi
  canonical_root : Fp2Canonical x
  mul_inv : fp2Mul (fp2Add (fp2Mul c.d (fp2Sqr y)) fp2One) vi = fp2One
  sqr_root : fp2Sqr x = fp2Mul (fp2Sub (fp2Sqr y) fp2One) vi

section
variable [Fact primeP.Prime]

theorem fp2Canonical_fp2Add (z w : Fp2) : Fp2Canonical (fp2Add z w) := by
  rw [fp2Add_eq_canon]
  exact fp2Canonical_canon _

/-- Whichever of r and −r is taken is canonical and has the same square, and unless it is 0 its sign is the stored one
(46_ecc_point_compress.md R231). -/
theorem rootOfSign_spec {r : Fp2} (hr : Fp2Canonical r) (s : Bool) :
    Fp2Canonical (rootOfSign r s) ∧ fp2Sqr (rootOfSign r s) = fp2Sqr r ∧
      (rootOfSign r s ≠ fp2Zero → fp2Sign (rootOfSign r s) = s) := by
  have hneg : fp2Neg r = fp2Canon (-fp2Value r) := by rw [← fp2Neg_canon, fp2Canon_value hr]
  by_cases hs : s = fp2Sign r
  case pos =>
    rw [hs, rootOfSign_self]
    exact ⟨hr, rfl, fun _ => rfl⟩
  case neg =>
    obtain rfl : s = !fp2Sign r := Bool.eq_not.2 hs
    rw [rootOfSign_not]
    refine ⟨hneg ▸ fp2Canonical_canon _, ?sqr, fun hne => fp2Sign_fp2Neg hr fun hzero => hne ?zero⟩
    case sqr =>
      rw [hneg, fp2Sqr_eq_fp2Mul, fp2Sqr_eq_fp2Mul, fp2Mul_eq_canon, fp2Mul_eq_canon, fp2Value_canon, neg_mul_neg]
    case zero => rw [hzero]; rfl

/-- The equations of R240 over the values of the elements. -/
theorem DecodeRoot.value_equations {c : Curve} {y vi x : Fp2} (h : DecodeRoot c y vi x) :
    (fp2Value c.d * (fp2Value y * fp2Value y) + 1) * fp2Value vi = 1 ∧
      fp2Value x * fp2Value x = (fp2Value y * fp2Value y - 1) * fp2Value vi := by
  obtain ⟨-, -, hinv, hroot⟩ := h
  simp only [fp2Sqr_eq_fp2Mul, fp2Mul_eq_canon, fp2Add_eq_canon, ← fp2Canon_one, fp2Sub_canon, fp2Value_canon,
    fp2Canon_inj] at hinv hroot
  exact ⟨hinv, hroot⟩

/-- x² = (y² − 1)/(d·y² + 1) is the curve equation solved for x² (47_ecc_point_decompress.md R240). -/
theorem DecodeRoot.onCurve {c : Curve} {y vi x : Fp2} (h : DecodeRoot c y vi x) (hy : Fp2Canonical y) :
    onCurveAffine c x y = true := by
  obtain ⟨hinv, hroot⟩ := h.value_equations
  rw [← fp2Canon_value h.canonical_root, ← fp2Canon_value hy, onCurveAffine_canon_iff]
  linear_combination -(fp2Value c.d * (fp2Value y * fp2Value y) + 1) * hroot - (fp2Value y * fp2Value y - 1) * hinv

theorem DecodeRoot.ptOnCurve {c : Curve} {y vi x : Fp2} (h : DecodeRoot c y vi x) (hy : Fp2Canonical y) :
    ptOnCurve c (affinePoint x y) = true := by
  have hon := h.onCurve hy
  rw [← fp2Canon_value h.canonical_root, ← fp2Canon_value hy] at hon ⊢
  exact ptOnCurve_affinePoint hon

/-- Taking either sign of the root leaves it one. -/
theorem DecodeRoot.rootOfSign {c : Curve} {y vi r : Fp2} (h : DecodeRoot c y vi r) (s : Bool) :
    DecodeRoot c y vi (rootOfSign r s) := by
  obtain ⟨hcanonical, hsqr, -⟩ := rootOfSign_spec h.canonical_root s
  exact ⟨h.canonical_inv, hcanonical, h.mul_inv, hsqr.trans h.sqr_root⟩

section
variable [Fact (∀ r : ZMod primeP, r ^ 2 ≠ -1 + 0 * r)]

/-- `fp2_sqrt` succeeds on every square (43_modexp_engine.md R167), and then gives a canonical root. -/
theorem exists_fp2Sqrt_fp2Sqr (x : Fp2) : ∃ r, fp2Sqrt (fp2Sqr x) = some r ∧ Fp2Canonical r := by
  obtain ⟨r, hr, -⟩ := fp2Sqrt_mul_self (fp2Value x)
  rw [← fp2Mul_eq_canon, ← fp2Sqr_eq_fp2Mul] at hr
  exact ⟨_, hr, fp2Canonical_canon r⟩

theorem fp2Canonical_of_fp2Sqrt {t r : Fp2} (h : fp2Sqrt t = some r) : Fp2Canonical r := by
  obtain ⟨r', hr', hcanonical⟩ := exists_fp2Sqrt_fp2Sqr r
  rw [fp2Sqrt_sound h, h, Option.some_inj] at hr'
  exact hr' ▸ hcanonical

/-! ## Success and result of a decode -/

/-- A decode succeeds where its inverse and its root are there: the curve check then never fails. -/
theorem DecodeRoot.exists_ptDecode {c : Curve} {E : List Byte} {vi x : Fp2} (h : DecodeRoot c (decodedY E) vi x) :
    ∃ P, ptDecode c E = some P := by
  obtain ⟨r, hr, hcanonical⟩ := exists_fp2Sqrt_fp2Sqr x
  have hinv := (fp2Inv_eq_some_iff (fp2Canonical_fp2Add _ _)).2 ⟨h.canonical_inv, h.mul_inv⟩
  have hroot : DecodeRoot c (decodedY E) vi r :=
    ⟨h.canonical_inv, hcanonical, h.mul_inv, (fp2Sqrt_sound hr).trans h.sqr_root⟩
  rw [h.sqr_root] at hr
  exact ⟨_, (ptDecode_eq_some_iff c E _).2
    ⟨vi, hinv, r, hr, (hroot.rootOfSign _).ptOnCurve (fp2Canonical_decodedY E), rfl⟩⟩

/-- A decode that succeeds found an inverse and a root, and gives the affine tuple of the root whose sign is the stored
one. -/
theorem decodeRoot_of_ptDecode {c : Curve} {E : List Byte} {P : Point} (h : ptDecode c E = some P) :
    ∃ vi x, DecodeRoot c (decodedY E) vi x ∧ (x ≠ fp2Zero → fp2Sign x = (E.getD 31 0).msb) ∧
      P = affinePoint x (decodedY E) := by
  obtain ⟨vi, hvi, r, hr, -, rfl⟩ := (ptDecode_eq_some_iff c E P).1 h
  obtain ⟨hcanonical, hinv⟩ := (fp2Inv_eq_some_iff (fp2Canonical_fp2Add _ _)).1 hvi
  have hr_canonical := fp2Canonical_of_fp2Sqrt hr
  have hroot : DecodeRoot c (decodedY E) vi r := ⟨hcanonical, hr_canonical, hinv, fp2Sqrt_sound hr⟩
  obtain ⟨-, -, hsign⟩ := rootOfSign_spec hr_canonical (E.getD 31 0).msb
  exact ⟨vi, _, hroot.rootOfSign _, hsign, rfl⟩

end
end

/-- Settles O45: a decode succeeds exactly where y has a `DecodeRoot`, and that root is on the curve. -/
theorem decodedPointIsOnTheCurve : Obligations.DecodedPointIsOnTheCurve := by
  unfold Obligations.DecodedPointIsOnTheCurve
  intro c E hl y u v
  have := primeP_fact
  have := fp2_field_fact
  have hy : decodedY E = y := decodedY_eq hl
  refine ⟨fun vi x hvi hx hinv hroot => ?succeeds, fun P hP => ?result⟩
  case succeeds =>
    have hdecode : DecodeRoot c (decodedY E) vi x := hy ▸ ⟨hvi, hx, hinv, hroot⟩
    exact hdecode.exists_ptDecode
  case result =>
    obtain ⟨vi, x, hdecode, hsign, rfl⟩ := decodeRoot_of_ptDecode hP
    have hcurve := hdecode.onCurve (fp2Canonical_decodedY E)
    rw [hy] at hdecode hcurve ⊢
    rw [← byte_msb_iff]
    exact ⟨rfl, rfl, rfl, hdecode.canonical_root, ⟨vi, hdecode.canonical_inv, hdecode.mul_inv, hdecode.sqr_root⟩,
      (onCurveAffine_iff c x y).1 hcurve, fun hne => by rw [← hsign hne]; rfl⟩

end Sys2Proof.Machine
end

section
/-! PROOFS: every step keeps STATUS and the fault registers consistent (60_exceptions.md R293; 10_state.md R25, R26, R35). -/

namespace Sys2Proof.Machine

/-! `StatusConsistent` speaks of STATE, RC, the pending and sticky bits and the fault registers alone, so a change of any
other field (the queue, the enables, WERR, CP, CMD_COUNT, the RAMs, `reply`, `freeCount`) keeps it as it stands. -/

/-- During a run neither pending bit is up. -/
theorem StatusConsistent.not_pending_of_busy {s : State} (h : StatusConsistent s) (hb : s.state = .busy) :
    s.donePend = false ∧ s.faultPend = false := by
  obtain ⟨hdone, hfault, -⟩ := h
  rw [hb] at hdone hfault
  exact ⟨by simpa using hdone, by simpa using hfault⟩

/-- Fault entry during a run: FAULT_PEND goes up with FAULTED, and DONE_PEND is down (60_exceptions.md R292, R293). -/
theorem StatusConsistent.raiseFault {s : State} (h : StatusConsistent s) (hb : s.state = .busy) (c : Cause) (w : Word) :
    StatusConsistent (raiseFault c w s) := by
  obtain ⟨hdone, -⟩ := h.not_pending_of_busy hb
  obtain ⟨-, -, -, hsticky⟩ := h
  refine ⟨?donePend, ?faultPend, ?registers, hsticky⟩
  case donePend => simp [hdone]
  case faultPend => simp
  case registers => simp

/-- A result code comes with its sticky bit (10_state.md R35). -/
theorem StatusConsistent.setRc {s : State} (h : StatusConsistent s) (rc : Rc) : StatusConsistent (setRc rc s) := by
  obtain ⟨hdone, hfault, hregisters, -⟩ := h
  refine ⟨hdone, hfault, hregisters, ?absent, ?divzero, ?invalid⟩ <;> rintro (rfl : rc = _) <;> simp

/-- A completion sets RC and moves on, or takes CMD_OVERRUN (40_control.md R113). -/
theorem StatusConsistent.complete {s : State} (h : StatusConsistent s) (hb : s.state = .busy) (w : Word) (rc : Rc) :
    StatusConsistent (complete w rc s) := by
  have hcounted : StatusConsistent (countCommand (Machine.setRc rc s)) := h.setRc rc
  rcases advance_cases w (countCommand (Machine.setRc rc s)) with ⟨-, hadv⟩ | ⟨-, hadv⟩ <;>
    rw [Machine.complete, hadv]
  · exact hcounted.raiseFault hb .cmdOverrun w
  · exact hcounted

/-- HALT during a run: DONE_PEND goes up with HALTED, and FAULT_PEND is down (40_control.md R110, 60_exceptions.md R293). -/
theorem StatusConsistent.halt {s : State} (h : StatusConsistent s) (hb : s.state = .busy) :
    StatusConsistent { s with state := .halted, donePend := true } := by
  obtain ⟨-, hfault⟩ := h.not_pending_of_busy hb
  obtain ⟨-, -, hkept⟩ := h
  exact ⟨by simp, by simp [hfault], hkept⟩

theorem StatusConsistent.exec {s t : State} (h : StatusConsistent s) (hb : s.state = .busy) {i : Instr}
    (hx : exec i s = .next t) : StatusConsistent t := by
  by_cases hi : i = .halt
  · subst hi
    cases exec_halt_next hx
    exact h.halt hb
  · rcases exec_next_cases hi hx with ⟨c, rfl⟩ | ⟨rc, rfl⟩ | ⟨j, bs, -, rfl⟩
    · exact h.raiseFault hb c _
    · exact h.complete hb _ rc
    · have hwritten : StatusConsistent (writeSlots j bs s) := h
      exact hwritten.complete hb _ .ok

theorem StatusConsistent.engineStep {s t : State} (h : StatusConsistent s) (hb : s.state = .busy)
    (hx : engineStep s = .next t) : StatusConsistent t := by
  rcases engineStep_cases s with ⟨f, hr, -⟩ | ⟨bs, e, -, -, hr⟩ | ⟨bs, i, -, -, hr⟩ <;> rw [hr] at hx
  · cases hx
  · cases hx
    exact h.raiseFault hb _ _
  · exact h.exec hb hx

/-- What START and CLEAR leave behind: nothing pending, and STATE out of HALTED and FAULTED (10_state.md R27, R28). -/
theorem statusConsistent_clearOutcome (s : State) {e : EngineState} (he : e = .busy ∨ e = .idle) :
    StatusConsistent { clearOutcome s with state := e } := by
  rcases he with rfl | rfl <;> simp [StatusConsistent]

/-- A write of CTRL: BUSY or not, and which of START and CLEAR is written (10_state.md R23). -/
theorem StatusConsistent.writeCtrl {s : State} (h : StatusConsistent s) (w : Word) :
    StatusConsistent (writeCtrl w s) := by
  by_cases hb : s.state = .busy
  · rw [writeCtrl_of_busy hb]
    exact h
  by_cases hstart : w.getLsbD 0 = true
  · rw [writeCtrl_of_start hb hstart]
    exact statusConsistent_clearOutcome s (.inl rfl)
  by_cases hclear : w.getLsbD 1 = true
  · rw [writeCtrl_of_clear hb hstart hclear]
    exact statusConsistent_clearOutcome s (.inr rfl)
  · rw [writeCtrl_of_enables s hstart hclear]
    exact h

/-- Of the host's writes only that of CTRL reaches what the invariant speaks of. -/
theorem StatusConsistent.hostWrite {s : State} (h : StatusConsistent s) (offset : Nat) (w : Word) :
    StatusConsistent (hostWrite offset w s) := by
  rcases hostWrite_cases offset w s with ⟨-, hr⟩ | ⟨-, hr⟩ | ⟨-, -, hr⟩ | ⟨-, -, hr⟩ | hr <;> rw [hr]
  · exact h.writeCtrl w
  · unfold writeCp
    split <;> exact h
  · unfold writeCmdRam
    split <;> exact h
  · unfold writeOpRam
    split <;> exact h
  · exact h

theorem StatusConsistent.hostRead {s : State} (h : StatusConsistent s) (offset : Nat) :
    StatusConsistent (hostRead offset s) := by
  obtain ⟨v, n, hr, -⟩ := hostRead_eq offset s
  rw [hr]
  exact h

theorem statusConsistent_resetInput (s : State) : StatusConsistent (resetInput s) := by
  obtain ⟨-, hreset, -⟩ := resetMeetsTheInvariants
  exact hreset

theorem StatusConsistent.eventTurn {s t : State} (h : StatusConsistent s) {e : HostEvent}
    (hx : eventTurn e s = .next t) : StatusConsistent t := by
  cases e with
  | write offset width data => exact eq_of_hostAccess_next hx ▸ h.hostWrite offset data
  | read offset width => exact eq_of_hostAccess_next hx ▸ h.hostRead offset
  | reset =>
    cases hx
    exact statusConsistent_resetInput s
  | wait =>
    rw [eventTurn_wait] at hx
    split at hx
    · exact h.engineStep ‹_› hx
    · cases hx
      exact h

/-- Settles O10: of all turns, only a BUSY engine's, a write of CTRL and the reset input reach what the invariant speaks
of. A BUSY engine has nothing pending, so that HALT and fault entry raise the one bit their STATE asks for. -/
theorem stepKeepsStatusConsistent : Obligations.StepKeepsStatusConsistent := by
  unfold Obligations.StepKeepsStatusConsistent
  intro s t h hx
  rcases step_cases s with ⟨e, rest, -, hr⟩ | ⟨-, hb, hr⟩ | ⟨-, -, hr⟩ <;> rw [hr] at hx
  · have hqueue : StatusConsistent { s with inputs := rest } := h
    exact hqueue.eventTurn hx
  · exact h.engineStep hb hx
  · cases hx

end Sys2Proof.Machine
end

section
/-! PROOFS: SEED_STRICT and SEED_TRY on valid and invalid seeds, and that SEED_TRY reads no byte past the 55
(48_schnorr_sign.md R250 to R253). -/

namespace Sys2Proof.Machine

/-! ## What the two seed commands share -/

/-- What a seed command comes to, when it turns an invalid seed down by e: L is tested before a byte is read
(48_schnorr_sign.md R250, log entry 11). -/
def seedOutcome (s : State) (rd rs1 : Slot) (l : Byte) (e : Effect) : Except Fault Effect :=
  if l.toNat = 55 then do
    let S ← readBytes s rs1.toNat 55
    if seedValid S l.toNat then return .wrote rd.toNat (seedToSubseed Config.hash S) else return e
  else return e

theorem exec_seedStrict (rd rs1 : Slot) (l : Byte) (s : State) : exec (.seedStrict rd rs1 l) s =
    retire (encode (.seedStrict rd rs1 l)) s (seedOutcome s rd rs1 l (.raised .invalidSeed)) := rfl

theorem exec_seedTry (rd rs1 : Slot) (l : Byte) (s : State) : exec (.seedTry rd rs1 l) s =
    retire (encode (.seedTry rd rs1 l)) s (seedOutcome s rd rs1 l (.silent .invalid)) := rfl

/-- With L other than 55 the seed is turned down, whatever the operand RAM holds. -/
theorem seedOutcome_of_length_ne {l : Byte} (hl : l.toNat ≠ 55) (s : State) (rd rs1 : Slot) (e : Effect) :
    seedOutcome s rd rs1 l e = .ok e := if_neg hl

theorem seedOutcome_of_read {s : State} {rd rs1 : Slot} {l : Byte} {S : List Byte} (hl : l.toNat = 55)
    (hread : readBytes s rs1.toNat 55 = .ok S) (e : Effect) : seedOutcome s rd rs1 l e =
      .ok (if seedValid S 55 then .wrote rd.toNat (seedToSubseed Config.hash S) else e) := by
  rw [seedOutcome, if_pos hl, hread, hl]
  exact (apply_ite Except.ok _ _ _).symm

/-- A seed command stops on an unwritten byte, turns its seed down, or writes a subSeed. -/
theorem seedOutcome_cases (s : State) (rd rs1 : Slot) (l : Byte) (e : Effect) :
    (∃ f, seedOutcome s rd rs1 l e = .error f) ∨ seedOutcome s rd rs1 l e = .ok e ∨
      (∃ bs, bs.length = 32 ∧ seedOutcome s rd rs1 l e = .ok (.wrote rd.toNat bs)) := by
  by_cases hl : l.toNat = 55
  case neg => exact .inr (.inl (seedOutcome_of_length_ne hl s rd rs1 e))
  case pos =>
    cases hread : readBytes s rs1.toNat 55 with
    | error f => exact .inl ⟨f, by rw [seedOutcome, if_pos hl, hread]; rfl⟩
    | ok S =>
      rw [seedOutcome_of_read hl hread]
      split
      · exact .inr (.inr ⟨_, seedToSubseed_length Config.hash S, rfl⟩)
      · exact .inr (.inl rfl)

/-! ## Valid and invalid seeds (O46) -/

/-- A seed of the right length is valid exactly when all its bytes are lowercase letters (48_schnorr_sign.md R250). -/
theorem seedValid_iff (S : List Byte) : seedValid S 55 = true ↔ ∀ b, b ∈ S → 0x61 ≤ b.toNat ∧ b.toNat ≤ 0x7A := by
  simp [seedValid]

theorem not_seedValid_of_mem {S : List Byte} {b : Byte} (hb : b ∈ S) (h : b.toNat < 0x61 ∨ 0x7A < b.toNat) :
    ¬ seedValid S 55 = true := by
  rw [seedValid_iff]
  intro hletters
  have := hletters b hb
  omega

/-- The subSeed of R251 in plain arithmetic: on letters the byte subtraction does not wrap. -/
theorem seedToSubseed_of_letters (H : HashFn) {S : List Byte} (h : ∀ b, b ∈ S → 0x61 ≤ b.toNat ∧ b.toNat ≤ 0x7A) :
    seedToSubseed H S = (H (S.map fun b => BitVec.ofNat 8 (b.toNat - 0x61)) 32).toList := by
  have hmap : S.map (fun b => b - 0x61) = S.map fun b => BitVec.ofNat 8 (b.toNat - 0x61) := by
    refine List.map_congr_left fun b hb => ?_
    obtain ⟨hlow, -⟩ := h b hb
    bv_omega
  rw [seedToSubseed, hmap]

/-- The 55 bytes of a seed that the operand RAM holds are the ones read. -/
theorem readSeed_of_holdsAt {s : State} {j : Slot} {S : List Byte} (hf : fits .seed j = true) (hl : S.length = 55)
    (h : holdsAt s j.toNat S) : readBytes s j.toNat 55 = .ok S := by
  have hend := fits_in_range .seed j hf
  have hread := readBytes_of_holdsAt s j.toNat S h (by simp only [OperandType.span] at hend; omega)
  rwa [hl] at hread

/-- Both seed commands turn their operand down: SEED_STRICT by the fault INVALID_SEED, SEED_TRY by the code INVALID
(48_schnorr_sign.md R252, R253). -/
theorem seed_turnedDown {rd rs1 : Slot} {l : Byte} {s : State} (h : ∀ e, seedOutcome s rd rs1 l e = .ok e) :
    (∃ t, exec (.seedStrict rd rs1 l) s = .next t ∧ FaultEntered 0x04 (encode (.seedStrict rd rs1 l)) s t) ∧
      CompletesWithout (.seedTry rd rs1 l) s .invalid := by
  constructor
  case left =>
    rw [exec_seedStrict, h]
    exact ⟨_, rfl, faultEntered_raiseFault .invalidSeed _ s⟩
  case right =>
    rw [CompletesWithout, exec_seedTry, h]
    exact retire_silent _ s .invalid

/-- Settles O46: L is tested first, then the bytes, and the letters less 'a' are what is hashed. -/
theorem seedCommands : Obligations.SeedCommands := by
  unfold Obligations.SeedCommands
  intro rd rs1 l s hf turnedDown
  refine ⟨fun hne => seed_turnedDown (seedOutcome_of_length_ne hne s rd rs1), fun S hl hlen hS => ?_⟩
  have hread := readSeed_of_holdsAt hf hlen hS
  refine ⟨fun hletters => ?valid, ?invalid⟩
  case valid =>
    have houtcome (e : Effect) :
        seedOutcome s rd rs1 l e = .ok (.wrote rd.toNat (seedToSubseed Config.hash S)) := by
      rw [seedOutcome_of_read hl hread, if_pos ((seedValid_iff S).2 hletters)]
    rw [← seedToSubseed_of_letters Config.hash hletters]
    exact ⟨.of_fits (fits_raw rd) (seedToSubseed_length _ S) (by rw [exec_seedStrict, houtcome]),
      .of_fits (fits_raw rd) (seedToSubseed_length _ S) (by rw [exec_seedTry, houtcome])⟩
  case invalid =>
    rintro ⟨b, hb, hrange⟩
    refine seed_turnedDown fun e => ?_
    rw [seedOutcome_of_read hl hread, if_neg (not_seedValid_of_mem hb hrange)]

/-! ## The bytes past the seed (O51) -/

/-- A read of n bytes depends on those n bytes alone. -/
theorem Memory.readBytes_congr {m m' : Memory} {a n : Nat} (h : ∀ k, k < n → m'.read (a + k) = m.read (a + k)) :
    m'.readBytes a n = m.readBytes a n := by
  refine Option.ext fun bs => ?_
  rw [Memory.readBytes_eq_some, Memory.readBytes_eq_some]
  refine and_congr_right fun _ => forall₂_congr fun k hk => ?_
  rw [h k hk]

/-- A seed command's outcome depends on the 55 bytes of the seed alone. -/
theorem seedOutcome_congr {s : State} {m : Memory} {rs1 : Slot}
    (h : ∀ k, k < 55 → m.read (slotAddr rs1.toNat + k) = s.opRam.read (slotAddr rs1.toNat + k)) (rd : Slot) (l : Byte)
    (e : Effect) : seedOutcome { s with opRam := m } rd rs1 l e = seedOutcome s rd rs1 l e := by
  simp only [seedOutcome, readBytes, memRead, Memory.readBytes_congr h]

theorem complete_cp (w : Word) (rc : Rc) (s : State) :
    (complete w rc s).cp = if s.cp = 255 then s.cp else s.cp + 1 :=
  apply_ite State.cp (s.cp = 255) _ _

theorem complete_state (w : Word) (rc : Rc) (s : State) :
    (complete w rc s).state = if s.cp = 255 then .faulted else s.state :=
  apply_ite State.state (s.cp = 255) _ _

/-- CP after a completion depends on CP alone, and STATE on CP and STATE (40_control.md R113). -/
theorem complete_cp_congr (w : Word) (rc : Rc) {s u : State} (hcp : u.cp = s.cp) :
    (complete w rc u).cp = (complete w rc s).cp := by
  rw [complete_cp, complete_cp, hcp]

theorem complete_state_congr (w : Word) (rc : Rc) {s u : State} (hcp : u.cp = s.cp) (hstate : u.state = s.state) :
    (complete w rc u).state = (complete w rc s).state := by
  rw [complete_state, complete_state, hcp, hstate]

/-- Whether the end of a command is a fault of the model depends on its outcome alone. -/
theorem retire_fault_congr {w : Word} {s : State} {r : Except Fault Effect} {f : Fault} (h : retire w s r = .fault f)
    (u : State) : retire w u r = .fault f := by
  match r with
  | .error _ => exact h
  | .ok (.raised _) => cases h
  | .ok (.silent _) => cases h
  | .ok (.wrote _ _) =>
    unfold retire at h ⊢
    dsimp only at h ⊢
    split at h
    · cases h
    · rwa [if_neg ‹_›]

/-- What SEED_TRY has in common after two runs: the code, CP, STATE, and the bytes of a result in the slot RD. -/
structure SameSeedResult (rd : Slot) (t t' : State) : Prop where
  rc : t'.rc = t.rc
  cp : t'.cp = t.cp
  state : t'.state = t.state
  bytes : t.rc = .ok → ∀ k, k < 32 → t'.opRam.read (slotAddr rd.toNat + k) = t.opRam.read (slotAddr rd.toNat + k)

theorem sameSeedResult_complete_invalid (rd : Slot) (w : Word) (s : State) (m : Memory) :
    SameSeedResult rd (complete w .invalid s) (complete w .invalid { s with opRam := m }) where
  rc := by simp
  cp := complete_cp_congr w _ rfl
  state := complete_state_congr w _ rfl rfl
  bytes := by simp

theorem sameSeedResult_complete_wrote (rd : Slot) (w : Word) (s : State) (m : Memory) {bs : List Byte}
    (hl : bs.length = 32) : SameSeedResult rd (complete w .ok (writeSlots rd.toNat bs s))
      (complete w .ok (writeSlots rd.toNat bs { s with opRam := m })) where
  rc := by simp
  cp := complete_cp_congr w _ rfl
  state := complete_state_congr w _ rfl rfl
  bytes := fun _ k hk => by
    simp only [complete_opRam, writeSlots_opRam]
    rw [Memory.read_writeBytes_inside _ _ _ _ (hl ▸ hk), Memory.read_writeBytes_inside _ _ _ _ (hl ▸ hk)]

/-- SEED_TRY run on an operand RAM with the same 55 seed bytes gives the same result. -/
theorem exec_seedTry_sameSeedResult {rd rs1 : Slot} {l : Byte} {s t : State} {m : Memory}
    (h : ∀ k, k < 55 → m.read (slotAddr rs1.toNat + k) = s.opRam.read (slotAddr rs1.toNat + k))
    (ht : exec (.seedTry rd rs1 l) s = .next t) :
    ∃ t', exec (.seedTry rd rs1 l) { s with opRam := m } = .next t' ∧ SameSeedResult rd t t' := by
  rw [exec_seedTry] at ht
  rw [exec_seedTry, seedOutcome_congr h]
  rcases seedOutcome_cases s rd rs1 l (.silent .invalid) with ⟨f, hr⟩ | hr | ⟨bs, hl, hr⟩ <;> rw [hr] at ht ⊢
  · cases ht
  · cases ht
    exact ⟨_, rfl, sameSeedResult_complete_invalid rd _ s m⟩
  · have hin : slotAddr rd.toNat + bs.length ≤ opRamSize := hl ▸ slot_in_range rd
    cases (if_pos hin).symm.trans ht
    exact ⟨_, if_pos hin, sameSeedResult_complete_wrote rd _ s m hl⟩

/-- Settles O51: the outcome is the same (`seedOutcome_congr`), and so is what the command makes of it. -/
theorem seedTailIsNeverRead : Obligations.SeedTailIsNeverRead := by
  unfold Obligations.SeedTailIsNeverRead
  rintro rd rs1 l s _ ⟨m, rfl, h⟩
  refine ⟨fun t ht => ?next, fun f hf => ?stop⟩
  case next =>
    obtain ⟨t', ht', same⟩ := exec_seedTry_sameSeedResult h ht
    exact ⟨t', ht', same.rc, same.cp, same.state, same.bytes⟩
  case stop =>
    rw [exec_seedTry] at hf
    rw [exec_seedTry, seedOutcome_congr h]
    exact retire_fault_congr hf _

end Sys2Proof.Machine
end

section
/-! PROOFS: how each command can end: its result codes, and the fault of SEED_STRICT (60_exceptions.md R280 to R283, R290 to
R292). -/

namespace Sys2Proof.Machine

/-- The ways the command i may end, as 60_exceptions.md R282 and R290 give them: with a result, with a code of its own, or,
for SEED_STRICT, with INVALID_SEED. -/
def Effect.MayEnd (i : Instr) : Effect → Prop
  | .wrote _ _ => True
  | .silent rc => rc ∈ possibleRc i
  | .raised c => c = .invalidSeed ∧ ∃ rd rs1 l, i = .seedStrict rd rs1 l

theorem Effect.mayEnd_wroteOr {i : Instr} {rc : Rc} (h : rc ∈ possibleRc i) (j : Nat) (r : Option (List Byte)) :
    (wroteOr rc j r).MayEnd i := by
  rcases wroteOr_cases rc j r with ⟨-, hr⟩ | ⟨bs, -, hr⟩ <;> rw [hr]
  · exact h
  · trivial

/-- Whatever the reads of the command i answer, it may end so. -/
def EndsAsListed (i : Instr) (r : Except Fault Effect) : Prop := ∀ e, r = .ok e → e.MayEnd i

theorem EndsAsListed.done {i : Instr} {e : Effect} (h : e.MayEnd i) : EndsAsListed i (.ok e) := by
  rintro _ ⟨⟩
  exact h

/-- A read in front adds no way to end. -/
theorem EndsAsListed.read {α : Type} {i : Instr} {r : Except Fault α} {q : α → Except Fault Effect}
    (h : ∀ v, EndsAsListed i (q v)) : EndsAsListed i (r >>= q) := by
  cases r with
  | error f => exact fun _ h => nomatch h
  | ok v => exact h v

/-- A command whose one read is followed by a result. -/
theorem EndsAsListed.unary {α : Type} {i : Instr} {r : Except Fault α} {j : Nat} {f : α → List Byte} :
    EndsAsListed i (do let v ← r; return .wrote j (f v)) :=
  .read fun _ => .done trivial

/-- A command whose two reads are followed by a result. -/
theorem EndsAsListed.binary {α β : Type} {i : Instr} {r : Except Fault α} {r' : Except Fault β} {j : Nat}
    {f : α → β → List Byte} : EndsAsListed i (do let v ← r; let w ← r'; return .wrote j (f v w)) :=
  .read fun _ => .unary

/-- A command whose one read is followed by a result that may be absent. -/
theorem EndsAsListed.unaryOr {α : Type} {i : Instr} {r : Except Fault α} {j : Nat} {rc : Rc}
    {f : α → Option (List Byte)} (h : rc ∈ possibleRc i) : EndsAsListed i (do let v ← r; return wroteOr rc j (f v)) :=
  .read fun _ => .done (Effect.mayEnd_wroteOr h j _)

/-- A seed command ends with a result, or as it turns an invalid seed down (48_schnorr_sign.md R252, R253). -/
theorem endsAsListed_seedOutcome {i : Instr} {e : Effect} (h : e.MayEnd i) (s : State) (rd rs1 : Slot) (l : Byte) :
    EndsAsListed i (seedOutcome s rd rs1 l e) := by
  rcases seedOutcome_cases s rd rs1 l e with ⟨f, hr⟩ | hr | ⟨bs, -, hr⟩ <;> rw [hr]
  · exact fun _ h => nomatch h
  · exact .done h
  · exact .done trivial

/-- HALT apart, every command ends in one of the ways listed for it. -/
theorem exec_endsAsListed (i : Instr) (s : State) (hi : i ≠ .halt) :
    ∃ r, exec i s = retire (encode i) s r ∧ EndsAsListed i r := by
  cases i with
  | halt => exact absurd rfl hi
  | nop => exact ⟨_, exec_nop s, .done List.mem_cons_self⟩
  | ptLdid rd => exact ⟨_, exec_ptLdid rd s, .done trivial⟩
  | ptLdb rd => exact ⟨_, exec_ptLdb rd s, .done trivial⟩
  | mov rd a | fpSqr rd a | fpRed rd a | fpNeg rd a | fpHalf rd a | fp2Sqr rd a | fp2Neg rd a | fp2Half rd a
  | scRed32 rd a | scRed64 rd a | ptNeg rd a | ptOncurve rd a | ptDbl rd a | fp2Sign rd a | ptChkenc rd a
  | keyPriv rd a | keyPub rd a => exact ⟨_, rfl, .unary⟩
  | fpMul rd a b | fpAdd rd a b | fpSub rd a b | fp2Mul rd a b | fp2Add rd a b | fp2Sub rd a b | scAdd rd a b
  | scSub rd a b | scMul rd a b | ptAdd rd a b | ptEq rd a b | ptMul rd a b => exact ⟨_, rfl, .binary⟩
  | sign rd a b | verify rd a b => exact ⟨_, rfl, .read fun _ => .binary⟩
  | fpInv rd a | fp2Inv rd a | scInv rd a | ptEnc rd a | fpSqrt rd a | fp2Sqrt rd a | ptDec rd a =>
    exact ⟨_, rfl, .unaryOr (List.mem_cons_of_mem _ List.mem_cons_self)⟩
  | seedStrict rd a l =>
    have hraised : (Effect.raised .invalidSeed).MayEnd (.seedStrict rd a l) := ⟨rfl, rd, a, l, rfl⟩
    exact ⟨_, exec_seedStrict rd a l s, endsAsListed_seedOutcome hraised s rd a l⟩
  | seedTry rd a l =>
    have hsilent : (Effect.silent .invalid).MayEnd (.seedTry rd a l) := List.mem_cons_of_mem _ List.mem_cons_self
    exact ⟨_, exec_seedTry rd a l s, endsAsListed_seedOutcome hsilent s rd a l⟩

/-- Every command that sets a result code can set OK (60_exceptions.md R282). -/
theorem ok_mem_possibleRc {i : Instr} (hi : i ≠ .halt) : .ok ∈ possibleRc i := by
  cases i with
  | halt => exact absurd rfl hi
  | _ => exact List.mem_cons_self

/-- What O15 says of one command other than HALT that goes from s to t. -/
def EndsWithItsCode (i : Instr) (s t : State) : Prop :=
  (FaultEntered 0x04 (encode i) s t ∧ ∃ rd rs1 l, i = .seedStrict rd rs1 l) ∨
    (∃ code, code ∈ possibleRc i ∧ CompletedAs (encode i) code s t ∧ (code ≠ .ok → t.opRam = s.opRam))

theorem endsWithItsCode {i : Instr} {s t : State} (hi : i ≠ .halt) (h : exec i s = .next t) : EndsWithItsCode i s t := by
  obtain ⟨r, hr, hlisted⟩ := exec_endsAsListed i s hi
  rw [hr] at h
  rcases retire_cases (encode i) s r with ⟨f, hf⟩ | ⟨c, rfl, hc⟩ | ⟨rc, rfl, hrc⟩ | ⟨j, bs, rfl, hin, -⟩
  · cases hf.symm.trans h
  · obtain ⟨rfl, hstrict⟩ := hlisted _ rfl
    cases hc.symm.trans h
    exact .inl ⟨faultEntered_raiseFault .invalidSeed _ s, hstrict⟩
  · obtain ⟨t', ht', hcompleted, hram⟩ := retire_silent (encode i) s rc
    cases ht'.symm.trans h
    exact .inr ⟨rc, hlisted _ rfl, hcompleted, fun _ => hram⟩
  · obtain ⟨t', ht', hcompleted, -⟩ := retire_wrote (encode i) s j bs hin
    cases ht'.symm.trans h
    exact .inr ⟨.ok, ok_mem_possibleRc hi, hcompleted, absurd rfl⟩

/-- Settles O15: HALT by its own two writes, every other command by `endsWithItsCode`. -/
theorem commandsCompleteWithTheirCodes : Obligations.CommandsCompleteWithTheirCodes := by
  unfold Obligations.CommandsCompleteWithTheirCodes
  intro i s t h
  refine ⟨?halt, fun hi => endsWithItsCode hi h⟩
  case halt =>
    rintro rfl
    rw [exec_halt_next h]

end Sys2Proof.Machine
end

section
/-! PROOFS: KEY_PRIV, KEY_PUB and SIGN (48_schnorr_sign.md R254 to R259). -/

namespace Sys2Proof.Machine

/-! ## Reads of one slot and of a pair -/

theorem readSlot_of_holdsAt {s : State} {j : Slot} {bs : List Byte} (hl : bs.length = 32) (h : holdsAt s j.toNat bs) :
    readBytes s j.toNat 32 = .ok bs :=
  hl ▸ readBytes_of_holdsAt s j.toNat bs h (hl ▸ slot_in_range j)

/-- A Pair holds its first half in slot j and its second in slot j + 1 (30_encoding.md R97). -/
theorem readPair_of_holdsAt {s : State} {j : Slot} {lo hi : List Byte} (hf : fits .pair j = true) (hlo : lo.length = 32)
    (hhi : hi.length = 32) (h : holdsAt s j.toNat (lo ++ hi)) :
    readBytes s j.toNat 32 = .ok lo ∧ readBytes s (j.toNat + 1) 32 = .ok hi := by
  have hend := fits_in_range .pair j hf
  have hfirst := holdsAt_take s j.toNat 32 _ h
  have hsecond := holdsAt_drop s j.toNat 1 _ h
  rw [List.take_left' hlo] at hfirst
  rw [List.drop_left' hlo] at hsecond
  have hin : slotAddr (j.toNat + 1) + hi.length ≤ opRamSize := by
    simp only [slotAddr, OperandType.span] at hend ⊢
    omega
  exact ⟨readSlot_of_holdsAt hlo hfirst, hhi ▸ readBytes_of_holdsAt s (j.toNat + 1) hi hsecond hin⟩

/-! ## Keys (O47) -/

/-- Where a multiple of the base point has an encoding, that is what is written (48_schnorr_sign.md R254). -/
theorem encodeMultiple_of_some {c : Curve} {k : Nat} {E : List Byte} (h : ptEncode (ptMul c (ptBase c) k) = some E) :
    encodeMultiple c k = E := by
  rw [encodeMultiple, h]

/-- Settles O47: the subSeed is read whole, and both commands start from the scalar `privOf` makes of it. -/
theorem keyCommands : Obligations.KeyCommands := by
  unfold Obligations.KeyCommands
  intro rd rs1 s ss hl hss a
  have hread := readSlot_of_holdsAt hl hss
  refine ⟨?priv, encodeMultiple Config.curve a, encodeMultiple_length _ _, fun E hE => encodeMultiple_of_some hE, ?pub⟩
  case priv => exact .unary (fun ss => scBytes (privOf Config.hash Config.curve ss)) rfl (scBytes_length _) hread
  case pub => exact .unary (fun ss => pubOf Config.hash Config.curve ss) rfl (encodeMultiple_length _ _) hread

/-! ## Signing (O48) -/

/-- The nonce comes from the whole second half of the seed hash (48_schnorr_sign.md R257). -/
theorem nonceOf_eq (H : HashFn) (c : Curve) (ss dg : List Byte) :
    nonceOf H c ss dg = leNat ((H ((H ss 64).toList.drop 32 ++ dg) 64).toList.take 32) % c.n := by
  have hhalf : ((H ss 64).toList.drop 32).take 32 = (H ss 64).toList.drop 32 := List.take_of_length_le (by simp)
  rw [nonceOf, hhalf, scReduce]

/-- s in integer arithmetic: (k − h·a) mod N, for a nonce k below N (48_schnorr_sign.md R258). -/
theorem scSub_scMul_eq (c : Curve) (hn : 0 < c.n) {k : Nat} (hk : k < c.n) (h a : Nat) :
    scSub c k (scMul c h a) = (((k : Int) - h * a) % (c.n : Int)).toNat := by
  have hmod := scSub_mod c hn k (h * a)
  rwa [Nat.mod_eq_of_lt hk, Nat.cast_mul] at hmod

theorem exec_sign_of_reads {rd rs1 rs2 : Slot} {s : State} {ss pk dg : List Byte}
    (hss : readBytes s rs1.toNat 32 = .ok ss) (hpk : readBytes s (rs1.toNat + 1) 32 = .ok pk)
    (hdg : readBytes s rs2.toNat 32 = .ok dg) : exec (.sign rd rs1 rs2) s = retire (encode (.sign rd rs1 rs2)) s
      (.ok (.wrote rd.toNat (schnorrSign Config.hash Config.curve ss pk dg))) := by
  simp only [exec, execSign, hss, hpk, hdg]
  rfl

/-- Settles O48: the three operands are read before the signature is written, and its two halves are R and s. -/
theorem signing : Obligations.Signing := by
  unfold Obligations.Signing
  intro rd rs1 rs2 s ss pk dg hwf hls hlp hld hkeys hdg N seedHash a k
  simp only [Instr.wellFormed, Bool.and_eq_true] at hwf
  obtain ⟨⟨hrd, hrs1⟩, -⟩ := hwf
  obtain ⟨hss, hpk⟩ := readPair_of_holdsAt hrs1 hls hlp hkeys
  have hk : k < N := Nat.mod_lt _ curveN_pos
  have hnonce : nonceOf Config.hash Config.curve ss dg = k := nonceOf_eq ..
  refine ⟨encodeMultiple Config.curve k, encodeMultiple_length _ _, fun E hE => encodeMultiple_of_some hE, ?_⟩
  intro h
  have hsign : schnorrSign Config.hash Config.curve ss pk dg =
      encodeMultiple Config.curve k ++ toLE 32 (((k : Int) - h * a) % (N : Int)).toNat := by
    rw [← scSub_scMul_eq Config.curve curveN_pos hk h a, schnorrSign, hnonce]
    rfl
  rw [← hsign]
  exact .of_fits hrd (schnorrSign_length ..) (exec_sign_of_reads hss hpk (readSlot_of_holdsAt hld hdg))

end Sys2Proof.Machine
end

section
/-! PROOFS: VERIFY, and what tampering with a key or a signature does to its result (49_schnorr_verify.md R270 to R273). -/

namespace Sys2Proof.Machine

/-! ## What a verification decides -/

/-- `verify` is true exactly when both encodings pass the validator, both decode, and the equation holds for s modulo N
(49_schnorr_verify.md R270). -/
theorem schnorrVerify_iff (H : HashFn) (c : Curve) (pk dg : List Byte) {Rb Sb : List Byte} (hR : Rb.length = 32)
    (hS : Sb.length = 32) : schnorrVerify H c pk dg (Rb ++ Sb) = true ↔
      encValid pk = true ∧ encValid Rb = true ∧ ∃ P R, ptDecode c pk = some P ∧ ptDecode c Rb = some R ∧
        verifyEquation c P R (leNat Sb % c.n) (challengeOf H c Rb pk dg) = true := by
  have hRb : (Rb ++ Sb).take 32 = Rb := List.take_left' hR
  have hSb : ((Rb ++ Sb).drop 32).take 32 = Sb := by rw [List.drop_left' hR, List.take_of_length_le hS.le]
  simp only [schnorrVerify, hRb, hSb]
  by_cases hvalid : encValid pk = true ∧ encValid Rb = true
  case neg =>
    have hrejected : (!encValid pk || !encValid Rb) = true := by simpa [imp_iff_not_or] using hvalid
    rw [if_pos hrejected]
    exact iff_of_false Bool.false_ne_true fun ⟨hpk, hRb, _⟩ => hvalid ⟨hpk, hRb⟩
  case pos =>
    obtain ⟨hpk, hRb⟩ := hvalid
    rw [hpk, hRb]
    cases ptDecode c pk with
    | none => simp
    | some P =>
      cases ptDecode c Rb with
      | none => simp
      | some R => simp

/-! ## VERIFY (O49) -/

theorem exec_verify_of_reads {rd rs1 rs2 : Slot} {s : State} {pk dg sig : List Byte}
    (hpk : readBytes s rs1.toNat 32 = .ok pk) (hdg : readBytes s (rs1.toNat + 1) 32 = .ok dg)
    (hsig : readBytes s rs2.toNat 64 = .ok sig) : exec (.verify rd rs1 rs2) s = retire (encode (.verify rd rs1 rs2)) s
      (.ok (.wrote rd.toNat (boolBytes (schnorrVerify Config.hash Config.curve pk dg sig)))) := by
  simp only [exec, execVerify, hpk, hdg, hsig]
  rfl

/-- A command that writes a Bool writes one of two bytes, and 0x01 exactly when the Bool is true (30_encoding.md R98). -/
theorem Writes.exists_bool_byte {i : Instr} {s : State} {rd : Slot} {v : Bool} {p : Prop} (hw : Writes i s rd (boolBytes v))
    (h : v = true ↔ p) : ∃ b : Byte, (b = 0x00 ∨ b = 0x01) ∧ Writes i s rd (b :: zeroBytes 31) ∧ (b = 0x01 ↔ p) := by
  cases v with
  | false => exact ⟨0x00, .inl rfl, hw, by simpa using h⟩
  | true => exact ⟨0x01, .inr rfl, hw, by simpa using h⟩

/-- Settles O49: the four operands are read before the Bool is written, and it is `schnorrVerify_iff`. -/
theorem verification : Obligations.Verification := by
  unfold Obligations.Verification
  intro rd rs1 rs2 s pk dg Rb Sb hwf hlp hld hlR hlS hsigned hsig c h
  simp only [Instr.wellFormed, Bool.and_eq_true] at hwf
  obtain ⟨⟨hrd, hrs1⟩, hrs2⟩ := hwf
  obtain ⟨hpk, hdg⟩ := readPair_of_holdsAt hrs1 hlp hld hsigned
  have hlen : (Rb ++ Sb).length = 64 := by rw [List.length_append, hlR, hlS]
  have hread : readBytes s rs2.toNat 64 = .ok (Rb ++ Sb) :=
    hlen ▸ readBytes_of_holdsAt s rs2.toNat _ hsig (hlen ▸ fits_in_range .pair rs2 hrs2)
  have hwrites : Writes (.verify rd rs1 rs2) s rd (boolBytes (schnorrVerify Config.hash c pk dg (Rb ++ Sb))) :=
    .of_fits hrd (boolBytes_length _) (exec_verify_of_reads hpk hdg hread)
  have hiff := schnorrVerify_iff Config.hash c pk dg hlR hlS
  rw [encValid_iff, encValid_iff] at hiff
  exact hwrites.exists_bool_byte hiff

/-! ## Tampering (O50) -/

/-- The result depends on the second half of the signature only modulo N (49_schnorr_verify.md R270). -/
theorem schnorrVerify_congr (H : HashFn) (c : Curve) (pk dg : List Byte) {Rb Sb Sb' : List Byte} (hR : Rb.length = 32)
    (hS : Sb.length = 32) (hS' : Sb'.length = 32) (h : leNat Sb' % c.n = leNat Sb % c.n) :
    schnorrVerify H c pk dg (Rb ++ Sb') = schnorrVerify H c pk dg (Rb ++ Sb) := by
  rw [Bool.eq_iff_iff, schnorrVerify_iff H c pk dg hR hS', schnorrVerify_iff H c pk dg hR hS, h]

/-- Settles O50: a set bit fails the validator, and s + N is s modulo N. -/
theorem verifyTamperingConsequences : Obligations.VerifyTamperingConsequences := by
  unfold Obligations.VerifyTamperingConsequences
  intro H c pk dg Rb Sb Sb' hR hS hS'
  refine ⟨fun hbit => ?bit, fun hsum => ?sum⟩
  case bit =>
    rw [← Bool.not_eq_true, schnorrVerify_iff H c pk dg hR hS, encValid_iff, encValid_iff]
    rintro ⟨hpk, hRb, -⟩
    omega
  case sum => exact schnorrVerify_congr H c pk dg hR hS hS' (by rw [hsum, Nat.add_mod_right])

end Sys2Proof.Machine
end
